-- ==== Sys2Proof/Word.lean ====
section
/-! DEFINITION. The bit vectors of the block: a 16-bit cell that holds any pulse register, the byte of a CDF ROM and the
32-bit word of the command and response ports (00_scope.md R8, R12, R13: every value is unsigned, bit 0 is the least
significant). -/

namespace Sys2Proof

/-- A 16-bit value: a pulse register's cell, an immediate, the data field of a response. The widest register, level 4 at
`N = 12`, has 16 bits (00_scope.md R8). -/
abbrev Word := BitVec 16

/-- One byte of a CDF ROM (20_memory.md R50). -/
abbrev Byte := BitVec 8

/-- One word of the command port or of the response port (30_encoding.md R70, R74). -/
abbrev CommandWord := BitVec 32

end Sys2Proof
end

