-- ==== Sys2Proof/Config.lean ====
section
/-! DEFINITION. What an implementation of the block fixes. The constants are the document's; the `opaque` names are the
parameters the spec leaves OPEN (00_scope.md R9, R11): they have no body, so that no proof can learn a value of them. -/

namespace Sys2Proof.Config

/-- `PREC`, the CDF precision in bits, a constant (00_scope.md R11). -/
def prec : BitVec 4 := 8

/-- The number of split operations of a subframe, a constant (00_scope.md R5, 42_shell_sequencer.md R120). -/
def splits : Nat := 15

/-- The spec's default for the parameter `N` (00_scope.md R8). DESIGN CHOICE (log 1): the state after reset holds it. -/
def defaultAmpBits : Nat := 8

/-- OPEN (00_scope.md R9): one of the 255 values 1..255 that `A_MAX` may have at `N = 8`, counted from 0 (log 3). -/
opaque aMaxIndex : Fin 255

/-- `A_MAX` of the machine after reset: open, but within the bounds of 00_scope.md R9 and R10 at `N = 8`. -/
def aMax : Nat := aMaxIndex.val + 1

/-- OPEN (00_scope.md R11): `OFF_BITS` of the machine after reset (log 3). -/
opaque offBits : Nat

/-- OPEN (00_scope.md R11, 20_memory.md R50): `CDF_SIZE[L]` of the machine after reset (log 3). -/
opaque cdfSize : (level : Nat) → Nat

/-- OPEN (20_memory.md R52, 93_implementation_defined.md U6): entry `a` of `OFF[L]`, where State lists none (log 4). -/
opaque offEntry : (level amplitude : Nat) → Nat

/-- OPEN (20_memory.md R52, 93_implementation_defined.md U6, U13): byte `o` of `CDF[L]`, where State lists none (log 4). -/
opaque cdfByte : (level offset : Nat) → Byte

/-- FREE VALUE (20_memory.md R56, 93_implementation_defined.md U14): what the row port returns at an index above `amp`
(log 16). -/
opaque rowPortByte : (index : Nat) → Byte

end Sys2Proof.Config
end

