-- ==== Sys2Proof/Syntax.lean ====
section
/-! DEFINITION. The twelve commands of SHELLCMD version 1, one constructor per row of spec/opcode_table.json
(30_encoding.md R75). Operands keep the widths of the command word's fields `LVL`, `IDX`, `IMM` (30_encoding.md R70); the
ranges of 30_encoding.md R71 are checked in WellFormed.lean. -/

namespace Sys2Proof

/-- The direction of a frame, of a split and of a coder request (10_state.md R27, 41_split_codec.md R101). -/
inductive Dir where
  /-- encode, coded as 0 -/
  | enc
  /-- decode, coded as 1 -/
  | dec
deriving DecidableEq, Repr

/-- The one-bit code of a direction: 0 = encode, 1 = decode (10_state.md R27). -/
def Dir.bit : Dir → BitVec 1
  | .enc => 0
  | .dec => 1

/-- The direction a bit codes. -/
def Dir.ofBit (b : BitVec 1) : Dir :=
  if b = 0 then .enc else .dec

/-- The commands (30_encoding.md R75). -/
inductive Instr where
  /-- `NOP` (44_host_access.md R160) -/
  | nop
  /-- `WR k, i, v`: write `P[k][i]` (44_host_access.md R161) -/
  | wr (k : BitVec 3) (i : BitVec 4) (v : Word)
  /-- `RD k, i`: read `P[k][i]` (44_host_access.md R162) -/
  | rd (k : BitVec 3) (i : BitVec 4)
  /-- `RDS`: read `STATUS` (44_host_access.md R163) -/
  | rds
  /-- `CMB k`: combine one level (40_combiner.md R92) -/
  | cmb (k : BitVec 3)
  /-- `CMBT`: combine the whole tree (40_combiner.md R93) -/
  | cmbt
  /-- `ESPL L, j`: encode one split (41_split_codec.md R105) -/
  | espl (l : BitVec 3) (j : BitVec 4)
  /-- `DSPL L, j`: decode one split (41_split_codec.md R106) -/
  | dspl (l : BitVec 3) (j : BitVec 4)
  /-- `SENC`: shell-encode (42_shell_sequencer.md R122) -/
  | senc
  /-- `SDEC t`: shell-decode from the root total `t` (42_shell_sequencer.md R123) -/
  | sdec (t : Word)
  /-- `FBEG dir`: open a frame (43_coder_wrapper.md R141) -/
  | fbeg (dir : Dir)
  /-- `FEND`: close the frame (43_coder_wrapper.md R142) -/
  | fend
deriving DecidableEq, Repr

end Sys2Proof
end

