-- ==== Sys2Proof/WellFormed.lean ====
section
/-! DEFINITION. The ranges of the operands (30_encoding.md R71, the range conditions of R75). They depend on the operands
and on the parameter `N` alone (30_encoding.md R77). -/

namespace Sys2Proof

/-- The number of registers of tree level `k` (10_state.md R20). -/
def registersAt (k : Nat) : Nat := 16 >>> k

/-- The number of nodes of table level `L` (41_split_codec.md R100). -/
def nodesAt (l : Nat) : Nat := 8 >>> l

/-- `(k, i)` names a pulse register (30_encoding.md R71, formats R and W). -/
def isRegister (k i : Nat) : Bool := decide (k ≤ 4) && decide (i < registersAt k)

/-- `(L, j)` names an internal node of the tree (30_encoding.md R71, format S). -/
def isNode (l j : Nat) : Bool := decide (l ≤ 3) && decide (j < nodesAt l)

/-- Every operand is in the range of its command's format, at register width `n` of level 0 (30_encoding.md R71). -/
def Instr.wellFormed (n : Nat) : Instr → Bool
  | .nop => true
  | .wr k i v => isRegister k.toNat i.toNat && decide (v.toNat < 2 ^ (n + k.toNat))
  | .rd k i => isRegister k.toNat i.toNat
  | .rds => true
  | .cmb k => decide (1 ≤ k.toNat) && decide (k.toNat ≤ 4)
  | .cmbt => true
  | .espl l j => isNode l.toNat j.toNat
  | .dspl l j => isNode l.toNat j.toNat
  | .senc => true
  | .sdec t => decide (t.toNat < 2 ^ (n + 4))
  | .fbeg _ => true
  | .fend => true

end Sys2Proof
end

