-- ==== Sys2Proof/Decode.lean ====
section
/-! DEFINITION. `Decode`, total on 32-bit words (30_encoding.md R73), the opcode map it reads (R75), and after it the
encoder written from the same map. Command words are whole 32-bit values (20_memory.md R57): there are no bytes to order. -/

namespace Sys2Proof

/-! ## The fields of a command word (30_encoding.md R70) -/

/-- `OPC`, bits 31:28. -/
def fieldOpc (w : CommandWord) : BitVec 4 := w.extractLsb' 28 4

/-- `LVL`, bits 26:24. -/
def fieldLvl (w : CommandWord) : BitVec 3 := w.extractLsb' 24 3

/-- `IDX`, bits 23:20. -/
def fieldIdx (w : CommandWord) : BitVec 4 := w.extractLsb' 20 4

/-- `IMM`, bits 15:0. -/
def fieldImm (w : CommandWord) : Word := w.extractLsb' 0 16

/-! ## The opcode map -/

/-- A row of the opcode map: a word selects the row when `(w & mask) == bits` (30_encoding.md R75). -/
structure OpcodeRow where
  mnemonic : String
  bits : CommandWord
  mask : CommandWord
deriving DecidableEq, Repr

def rowNop : OpcodeRow := ⟨"NOP", 0x00000000, 0xFFFFFFFF⟩
def rowWr : OpcodeRow := ⟨"WR", 0x10000000, 0xF80F0000⟩
def rowRd : OpcodeRow := ⟨"RD", 0x20000000, 0xF80FFFFF⟩
def rowRds : OpcodeRow := ⟨"RDS", 0x30000000, 0xFFFFFFFF⟩
def rowCmb : OpcodeRow := ⟨"CMB", 0x40000000, 0xF8FFFFFF⟩
def rowCmbt : OpcodeRow := ⟨"CMBT", 0x50000000, 0xFFFFFFFF⟩
def rowEspl : OpcodeRow := ⟨"ESPL", 0x60000000, 0xF80FFFFF⟩
def rowDspl : OpcodeRow := ⟨"DSPL", 0x70000000, 0xF80FFFFF⟩
def rowSenc : OpcodeRow := ⟨"SENC", 0x80000000, 0xFFFFFFFF⟩
def rowSdec : OpcodeRow := ⟨"SDEC", 0x90000000, 0xFFFF0000⟩
def rowFbeg : OpcodeRow := ⟨"FBEG", 0xA0000000, 0xFFFFFFFE⟩
def rowFend : OpcodeRow := ⟨"FEND", 0xB0000000, 0xFFFFFFFF⟩

/-- The opcode map, in the order of the table. -/
def opcodeMap : List OpcodeRow :=
  [rowNop, rowWr, rowRd, rowRds, rowCmb, rowCmbt, rowEspl, rowDspl, rowSenc, rowSdec, rowFbeg, rowFend]

/-- The word has every bit that the row fixes. -/
def OpcodeRow.selects (r : OpcodeRow) (w : CommandWord) : Bool := w &&& r.mask == r.bits

/-- The row of a command. -/
def Instr.row : Instr → OpcodeRow
  | .nop => rowNop
  | .wr _ _ _ => rowWr
  | .rd _ _ => rowRd
  | .rds => rowRds
  | .cmb _ => rowCmb
  | .cmbt => rowCmbt
  | .espl _ _ => rowEspl
  | .dspl _ _ => rowDspl
  | .senc => rowSenc
  | .sdec _ => rowSdec
  | .fbeg _ => rowFbeg
  | .fend => rowFend

/-! ## Decoding -/

/-- Why a word is `illegal` (30_encoding.md R76). The machine treats the three alike. -/
inductive DecodeError where
  /-- `OPC` is 0xC..0xF -/
  | reservedOpcode
  /-- `Z27`, `Z16` or a field that the format does not use is not zero -/
  | nonzeroField
  /-- a field that the format uses is out of its range -/
  | outOfRange
deriving DecidableEq, Repr

/-- The command that the opcode selects, with its operands taken from their fields (30_encoding.md R72). -/
def commandOf (w : CommandWord) : Option Instr :=
  match (fieldOpc w).toNat with
  | 0 => some .nop
  | 1 => some (.wr (fieldLvl w) (fieldIdx w) (fieldImm w))
  | 2 => some (.rd (fieldLvl w) (fieldIdx w))
  | 3 => some .rds
  | 4 => some (.cmb (fieldLvl w))
  | 5 => some .cmbt
  | 6 => some (.espl (fieldLvl w) (fieldIdx w))
  | 7 => some (.dspl (fieldLvl w) (fieldIdx w))
  | 8 => some .senc
  | 9 => some (.sdec (fieldImm w))
  | 10 => some (.fbeg (Dir.ofBit (w.extractLsb' 0 1)))
  | 11 => some .fend
  | _ => none

/-- `Decode(w)` at register width `n` (30_encoding.md R73): the opcode, then the zero fields, then the ranges. -/
def decode (n : Nat) (w : CommandWord) : Except DecodeError Instr :=
  match commandOf w with
  | none => .error .reservedOpcode
  | some i =>
    if i.row.selects w then
      if i.wellFormed n then .ok i else .error .outOfRange
    else .error .nonzeroField

/-- What the decoder reads from a word given as a number, at the spec's default `N = 8` (log 1, log 6). Every command has
32 bits, so the bits above a shorter row would be 0. -/
def decodeTableWord (_nbits w : Nat) : Option Instr :=
  match decode Config.defaultAmpBits (BitVec.ofNat 32 w) with
  | .ok i => some i
  | .error _ => none

/-! ## Encoding -/

/-- A word from its fields, `Z27` and `Z16` zero (30_encoding.md R70). -/
def packWord (opc : BitVec 4) (lvl : BitVec 3) (idx : BitVec 4) (imm : Word) : CommandWord :=
  opc ++ 0#1 ++ lvl ++ idx ++ 0#4 ++ imm

/-- The word of a command (30_encoding.md R71, R75). -/
def encode : Instr → CommandWord
  | .nop => packWord 0x0 0 0 0
  | .wr k i v => packWord 0x1 k i v
  | .rd k i => packWord 0x2 k i 0
  | .rds => packWord 0x3 0 0 0
  | .cmb k => packWord 0x4 k 0 0
  | .cmbt => packWord 0x5 0 0 0
  | .espl l j => packWord 0x6 l j 0
  | .dspl l j => packWord 0x7 l j 0
  | .senc => packWord 0x8 0 0 0
  | .sdec t => packWord 0x9 0 0 t
  | .fbeg dir => packWord 0xA 0 0 (dir.bit.setWidth 16)
  | .fend => packWord 0xB 0 0 0

end Sys2Proof
end

