-- ==== Sys2Proof/Machine/State.lean ====
section
/-! DEFINITION. The state of the block as plain data (10_state.md), the configuration its parameters form, and the lists
that stand for its neighbours. Nothing here computes. -/

namespace Sys2Proof.Machine

/-! ## Table storage (20_memory.md) -/

/-- A read-only byte memory: its listed bytes, addresses strictly rising. An address that is not listed holds no byte
(log 4). -/
abbrev Memory := List Host.Cell

/-- Table `L`: the pair of the offset ROM `OFF[L]` and the byte ROM `CDF[L]` (20_memory.md R51). -/
structure Table where
  /-- `OFF[L]`, entry `a` at position `a` -/
  off : List Nat
  /-- `CDF_SIZE[L]`, in bytes -/
  cdfSize : Nat
  /-- the listed bytes of `CDF[L]` -/
  cdf : Memory
deriving DecidableEq, Repr

/-- The parameters of an implementation (00_scope.md R8 to R11). -/
structure Params where
  /-- `AMP_BITS`, written `N`: the width of a level-0 register -/
  ampBits : Nat
  /-- `A_MAX`: the largest parent amplitude for which every table has a row -/
  aMax : Nat
  /-- `OFF_BITS`: the width of an entry of an offset ROM -/
  offBits : Nat
  /-- the four tables, by table level -/
  tables : Vector Table 4
deriving DecidableEq, Repr

/-! ## The registers (10_state.md) -/

/-- The 31 pulse registers in five levels (10_state.md R20). A register of level `k` is the low `N + k` bits of its cell;
the cell's upper bits are 0 (log 12). -/
structure PulseFile where
  p0 : Vector Word 16
  p1 : Vector Word 8
  p2 : Vector Word 4
  p3 : Vector Word 2
  p4 : Vector Word 1
deriving DecidableEq, Repr

/-- `OP`, the running macro command (10_state.md R25). The value 3 is never held (log 14). -/
inductive Op where
  | idle
  | enc
  | dec
deriving DecidableEq, Repr

/-- `CAUSE` (60_exceptions.md R171). The codes 6 and 7 are never used (log 14). -/
inductive Cause where
  /-- 0: no fault -/
  | noFault
  /-- 1, `ILL`: the word decodes to no command (R173) -/
  | ill
  /-- 2, `MODE`: the frame state is wrong for the command (R174) -/
  | mode
  /-- 3, `RANGE`: a split's parent exceeds `A_MAX` (R175) -/
  | range
  /-- 4, `ORDER`: child1 exceeds the parent (R176) -/
  | order
  /-- 5, `SYM`: the decoded symbol exceeds the parent (R177) -/
  | sym
deriving DecidableEq, Repr

/-! ## The coder port and the observation (43_coder_wrapper.md, 70_reset_and_hazards.md R203) -/

/-- A request to the coder (43_coder_wrapper.md R143), with the row it denotes as a value. -/
structure EcRequest where
  dir : Dir
  lvl : Nat
  amp : Word
  off : Nat
  sym : Word
  prec : BitVec 4
  row : List Byte
deriving DecidableEq, Repr

/-- A response of the coder (43_coder_wrapper.md R144). The core takes the low `N` bits of `sym` (log 10). -/
structure EcResponse where
  sym : Word
deriving DecidableEq, Repr

/-- What is observed of a run (70_reset_and_hazards.md R203), and the resets among it. -/
inductive Event where
  /-- the block sent a response word to the host (30_encoding.md R74) -/
  | respond (w : CommandWord)
  /-- the block sent a request to the coder -/
  | request (r : EcRequest)
  /-- the coder answered the pending request -/
  | answer (r : EcResponse)
  /-- the host took a response word (70_reset_and_hazards.md R204, log 18) -/
  | taken (w : CommandWord)
  /-- the reset input was applied (10_state.md R39) -/
  | reset
deriving DecidableEq, Repr

/-- The moves that the agents' turns are spent on (00_scope.md R6, 70_reset_and_hazards.md R204). -/
inductive Agent where
  /-- the host issues a command (10_state.md R36) -/
  | host
  /-- the host takes a response (70_reset_and_hazards.md R204) -/
  | take
  /-- the core takes a micro-step (10_state.md R37) -/
  | core
  /-- the coder answers (10_state.md R38) -/
  | coder
  /-- the platform resets (10_state.md R39) -/
  | reset
deriving DecidableEq, Repr

/-! ## The state -/

/-- The state of the block, its parameters, and its surroundings. -/
structure State where
  /-- the parameters and the table contents; no step changes them (log 2) -/
  params : Params
  /-- `P[k][i]` (10_state.md R20) -/
  pulses : PulseFile
  /-- `SEQ`, 0..14 (10_state.md R24) -/
  seq : Fin 15
  /-- `OP` (10_state.md R25) -/
  op : Op
  /-- `FRAME` (10_state.md R27) -/
  frame : Bool
  /-- `FDIR` (10_state.md R27) -/
  fdir : Dir
  /-- `HALT` (10_state.md R28) -/
  halt : Bool
  /-- `CAUSE` (10_state.md R28) -/
  cause : Cause
  /-- `CUR`: the accepted command word, or none (10_state.md R31) -/
  cur : Option CommandWord
  /-- `PEND`: a request to the coder is outstanding (10_state.md R32) -/
  pend : Bool
  /-- the words the host will issue, next first (log 7) -/
  hostWords : List CommandWord
  /-- the responses the coder will give, next first (log 10) -/
  coderResponses : List EcResponse
  /-- the responses sent that the host has not taken yet, oldest first (70_reset_and_hazards.md R204, log 18) -/
  untaken : List CommandWord
  /-- whose turn comes next; where it is empty the enabled agent moves (log 8) -/
  schedule : List Agent
  /-- what has been observed, oldest first (log 18) -/
  trace : List Event
deriving DecidableEq, Repr

/-! ## The reasons a step can stop

Every fault of the spec is a NEXT state (60_exceptions.md R172), and waiting for a neighbour is one too. -/

/-- Stops in states that the spec's rules never reach (log 15). -/
inductive Fault where
  /-- Raised by the coder's turn where `PEND == 1` and `CUR` names no split command. SAFE: the spec gives such a state no
  meaning (10_state.md R32), and the invariant rules it out. -/
  | strayRequest
  /-- Raised by `SENC` where `OP == DEC`, and by `SDEC` where `OP == ENC`. SAFE: the spec gives such a state no meaning
  (42_shell_sequencer.md R122, R123), and the invariant rules it out. -/
  | macroMismatch
deriving DecidableEq, Repr

/-- Instructions and configurations that the model turns away. -/
inductive Refusal where
  /-- Raised by `exec` for an instruction that has no meaning yet. SAFE: nothing is claimed of it. No arm raises it. -/
  | notModelled (mnemonic : String)
  /-- Raised by `configure`, never by a step: the configuration breaks a constraint of 20_memory.md R52 (R58, log 5).
  SAFE: the spec has the model refuse it at the boundary. -/
  | malformedConfiguration
deriving DecidableEq, Repr

/-! ## Reset -/

/-- The configuration of the machine after reset: `N` at its default (log 1), `A_MAX`, `OFF_BITS` and each `CDF_SIZE[L]` at
constants that nothing can evaluate (log 3), and no table entry listed, so that every one is open (log 4). -/
def Params.unlisted : Params where
  ampBits := Config.defaultAmpBits
  aMax := Config.aMax
  offBits := Config.offBits
  tables := Vector.ofFn fun l => ⟨[], Config.cdfSize l.val, []⟩

/-- All 31 registers 0 (10_state.md R35). -/
def PulseFile.zero : PulseFile where
  p0 := Vector.replicate 16 0
  p1 := Vector.replicate 8 0
  p2 := Vector.replicate 4 0
  p3 := Vector.replicate 2 0
  p4 := Vector.replicate 1 0

/-- The machine right after reset (10_state.md R35, 70_reset_and_hazards.md R190), with nothing to come from outside. -/
def State.reset : State where
  params := Params.unlisted
  pulses := PulseFile.zero
  seq := 0
  op := .idle
  frame := false
  fdir := .enc
  halt := false
  cause := .noFault
  cur := none
  pend := false
  hostWords := []
  coderResponses := []
  untaken := []
  schedule := []
  trace := []

end Sys2Proof.Machine
end

