-- ==== Sys2Proof/Machine/Ops.lean ====
section
/-! DEFINITION. The named operations over memory, pulse registers and state that every meaning is written with: reads and
writes, the adder tree's one adder row, the response to the host, taking a fault, and reset, the only way out of one. -/

namespace Sys2Proof.Machine

/-- The result of one step. -/
abbrev Out := Host.Outcome State Fault Refusal

/-! ## Memory -/

/-- The canonical form: addresses strictly rising. An unlisted address holds no byte, so no entry can repeat what an
unlisted address reads as (log 4). -/
def Memory.wf : Memory → Bool
  | [] => true
  | [_] => true
  | c :: d :: m => decide (c.1 < d.1) && Memory.wf (d :: m)

/-- The byte at an address, where one is listed. -/
def Memory.read : Memory → Nat → Option Byte
  | [], _ => none
  | c :: m, a => if c.1 = a then some c.2 else Memory.read m a

/-- The platform places one byte of a ROM (20_memory.md R65); the core has no such access (00_scope.md R15). -/
def Memory.place : Memory → Nat → Byte → Memory
  | [], a, b => [(a, b)]
  | c :: m, a, b =>
    if a < c.1 then (a, b) :: c :: m
    else if a = c.1 then (a, b) :: m
    else c :: Memory.place m a b

/-- A ROM image: the bytes at the addresses from `a` on (20_memory.md R60). -/
def Memory.image (a : Nat) : List Byte → Memory
  | [] => []
  | b :: bs => (a, b) :: Memory.image (a + 1) bs

/-! ## Pulse registers -/

/-- The low `width` bits of a value, zero-extended to a cell (00_scope.md R13, `zext`). -/
def fit (width : Nat) (v : Word) : Word := (v.setWidth width).setWidth 16

/-- `P[k][i]` as a value (00_scope.md R14); 0 where `(k, i)` names no register. -/
def PulseFile.read (f : PulseFile) (k i : Nat) : Word :=
  match k with
  | 0 => f.p0[i]?.getD 0
  | 1 => f.p1[i]?.getD 0
  | 2 => f.p2[i]?.getD 0
  | 3 => f.p3[i]?.getD 0
  | 4 => f.p4[i]?.getD 0
  | _ => 0

/-- `P[k][i] <- v`, the low `n + k` bits of `v` (10_state.md R20); nothing where `(k, i)` names no register. -/
def PulseFile.write (n : Nat) (f : PulseFile) (k i : Nat) (v : Word) : PulseFile :=
  match k with
  | 0 => { f with p0 := f.p0.setIfInBounds i (fit n v) }
  | 1 => { f with p1 := f.p1.setIfInBounds i (fit (n + 1) v) }
  | 2 => { f with p2 := f.p2.setIfInBounds i (fit (n + 2) v) }
  | 3 => { f with p3 := f.p3.setIfInBounds i (fit (n + 3) v) }
  | 4 => { f with p4 := f.p4.setIfInBounds i (fit (n + 4) v) }
  | _ => f

/-- `combine(in, len)` (40_combiner.md R90): one adder row, all lanes together, each sum kept in `width` bits (R91). -/
def combine {len : Nat} (width : Nat) (input : Vector Word (2 * len)) : Vector Word len :=
  Vector.ofFn fun i => fit width (input[2 * i.val] + input[2 * i.val + 1])

/-- Level `k` of the adder tree, from the current contents of level `k - 1` (40_combiner.md R92). -/
def PulseFile.combineLevel (n : Nat) (f : PulseFile) (k : Nat) : PulseFile :=
  match k with
  | 1 => { f with p1 := combine (len := 8) (n + 1) f.p0 }
  | 2 => { f with p2 := combine (len := 4) (n + 2) f.p1 }
  | 3 => { f with p3 := combine (len := 2) (n + 3) f.p2 }
  | 4 => { f with p4 := combine (len := 1) (n + 4) f.p3 }
  | _ => f

/-- The whole tree of level 0, each level from the new value of the level below (40_combiner.md R93). -/
def PulseFile.combineTree (n : Nat) (f : PulseFile) : PulseFile :=
  let t1 : Vector Word 8 := combine (len := 8) (n + 1) f.p0
  let t2 : Vector Word 4 := combine (len := 4) (n + 2) t1
  let t3 : Vector Word 2 := combine (len := 2) (n + 3) t2
  let t4 : Vector Word 1 := combine (len := 1) (n + 4) t3
  { p0 := f.p0, p1 := t1, p2 := t2, p3 := t3, p4 := t4 }

/-- `P[k][i]` (00_scope.md R14). -/
def State.pulse (s : State) (k i : Nat) : Word := s.pulses.read k i

/-- `P[k][i] <- v` (00_scope.md R14). -/
def State.writePulse (s : State) (k i : Nat) (v : Word) : State :=
  { s with pulses := s.pulses.write s.params.ampBits k i v }

/-- One level of the combiner (40_combiner.md R92). -/
def State.combineLevel (s : State) (k : Nat) : State :=
  { s with pulses := s.pulses.combineLevel s.params.ampBits k }

/-- The whole combiner (40_combiner.md R93). -/
def State.combineTree (s : State) : State :=
  { s with pulses := s.pulses.combineTree s.params.ampBits }

/-! ## The response, the fault and reset -/

/-- The three-bit code of a cause (60_exceptions.md R171). -/
def Cause.code : Cause → BitVec 3
  | .noFault => 0
  | .ill => 1
  | .mode => 2
  | .range => 3
  | .order => 4
  | .sym => 5

/-- The response word `{rc[3:0], 12'b0, data[15:0]}` (30_encoding.md R74). -/
def responseWord (rc : BitVec 4) (data : Word) : CommandWord := rc ++ 0#12 ++ data

/-- `Respond(rc, data)`: the word is sent to the host, which may take it at any later time (70_reset_and_hazards.md R204),
and `CUR` becomes none (30_encoding.md R74). -/
def State.respond (s : State) (rc : BitVec 4) (data : Word) : State :=
  { s with
    cur := none
    untaken := s.untaken ++ [responseWord rc data]
    trace := s.trace ++ [.respond (responseWord rc data)] }

/-- `Respond(0, 0)`, the end of a command that gives no data (30_encoding.md R74). -/
def State.done (s : State) : State := s.respond 0 0

/-- `Fault(cause)` (60_exceptions.md R172), applied to the state from before the micro-step's register writes. `SEQ`,
`OP`, `FRAME`, `FDIR` and the pulse registers stay. -/
def State.takeFault (s : State) (c : Cause) : State :=
  { s with halt := true, cause := c, pend := false }.respond (c.code.setWidth 4) 0

/-- The reset step (10_state.md R39), the only way out of the halted state (60_exceptions.md R181): every piece of the
block's state as in 10_state.md R35. The constants stay, and so do the lists of what is outside the block (log 11). -/
def State.resetBlock (s : State) : State :=
  { State.reset with
    params := s.params
    hostWords := s.hostWords
    coderResponses := s.coderResponses
    untaken := s.untaken
    schedule := s.schedule
    trace := s.trace ++ [.reset] }

/-- What the halted block answers to every word that it does not execute: the recorded cause (60_exceptions.md R180). -/
def State.refuseHalted (s : State) : State := s.respond (s.cause.code.setWidth 4) 0

/-- An illegal word (60_exceptions.md R173), which a halted block does not record (R180). -/
def State.illegalWord (s : State) : State :=
  if s.halt then s.refuseHalted else s.takeFault .ill

/-- The body, where the block is not halted (10_state.md R37, 60_exceptions.md R180). -/
def whenRunning (s : State) (body : Out) : Out :=
  if s.halt then .next s.refuseHalted else body

/-- The body, where the operands are in range; a command out of range has only illegal words (30_encoding.md R76,
log 13). -/
def whenLegal (i : Instr) (s : State) (body : Out) : Out :=
  if i.wellFormed s.params.ampBits then body else .next s.illegalWord

end Sys2Proof.Machine
end

