-- ==== Sys2Proof/Machine/Operands.lean ====
section
/-! DEFINITION. The operand forms: the node of a split with its parent and children, the traversal ROM that names a node
by `SEQ`, the table entry and the row of a node, and the configuration that makes them lawful. -/

namespace Sys2Proof.Machine

/-! ## The node of a split -/

/-- An internal node of the tree: table level `L` and parent index `j` (41_split_codec.md R100). -/
structure Node where
  lvl : Nat
  idx : Nat
deriving DecidableEq, Repr

/-- The node that the fields of a command name (30_encoding.md R72). -/
def Node.ofFields (l : BitVec 3) (j : BitVec 4) : Node := ⟨l.toNat, j.toNat⟩

/-- The parent amplitude `P[L+1][j]` (41_split_codec.md R100). -/
def State.parent (s : State) (nd : Node) : Word := s.pulse (nd.lvl + 1) nd.idx

/-- child1, `P[L][2j]` (41_split_codec.md R100). -/
def State.child1 (s : State) (nd : Node) : Word := s.pulse nd.lvl (2 * nd.idx)

/-- child2, `P[L][2j+1]` (41_split_codec.md R100). -/
def State.child2 (s : State) (nd : Node) : Word := s.pulse nd.lvl (2 * nd.idx + 1)

/-- Both children in one step (41_split_codec.md R104). -/
def State.writeChildren (s : State) (nd : Node) (c1 c2 : Word) : State :=
  (s.writePulse nd.lvl (2 * nd.idx) c1).writePulse nd.lvl (2 * nd.idx + 1) c2

/-! ## The traversal ROM -/

/-- `TRAV`, the 15 nodes in the order both macro commands visit them (42_shell_sequencer.md R120). -/
def travTable : Vector Node 15 :=
  #v[⟨3, 0⟩, ⟨2, 0⟩, ⟨1, 0⟩, ⟨0, 0⟩, ⟨0, 1⟩, ⟨1, 1⟩, ⟨0, 2⟩, ⟨0, 3⟩,
     ⟨2, 1⟩, ⟨1, 2⟩, ⟨0, 4⟩, ⟨0, 5⟩, ⟨1, 3⟩, ⟨0, 6⟩, ⟨0, 7⟩]

/-- `TRAV[SEQ]`. -/
def trav (q : Fin 15) : Node := travTable[q]

/-- The pre-order, left-before-right, depth-first walk from node `(L, j)` (42_shell_sequencer.md R121). -/
def visit : (l j : Nat) → List Node
  | 0, j => [⟨0, j⟩]
  | l + 1, j => ⟨l + 1, j⟩ :: (visit l (2 * j) ++ visit l (2 * j + 1))

/-! ## The tables -/

/-- Table `L` (20_memory.md R51); no table has another number. -/
def Params.table (p : Params) (l : Nat) : Table := p.tables[l]?.getD ⟨[], 0, []⟩

/-- `TblOff(L, a)` (20_memory.md R53): an entry of `OFF_BITS` bits, the open one where none is listed (log 4). -/
def Params.tblOff (p : Params) (l a : Nat) : Nat :=
  ((p.table l).off[a]?.getD (Config.offEntry l a)) % 2 ^ p.offBits

/-- The byte `CDF[L][o]` (20_memory.md R50), the open one where none is listed (log 4). -/
def Params.cdfByte (p : Params) (l o : Nat) : Byte :=
  ((p.table l).cdf.read o).getD (Config.cdfByte l o)

/-- `Row(L, a)`: the `a + 1` bytes from `TblOff(L, a)` on (20_memory.md R54). -/
def Params.row (p : Params) (l a : Nat) : List Byte :=
  (List.range (a + 1)).map fun i => p.cdfByte l (p.tblOff l a + i)

/-! ## Lawful configurations (20_memory.md R52) -/

/-- The four constraints on the row for amplitude `a` of table `t`, every value listed (20_memory.md R52, 1 to 4). -/
def Table.rowLawful (t : Table) (a : Nat) : Bool :=
  match t.off[a]? with
  | none => false
  | some o =>
    decide (o + a < t.cdfSize)
    && (List.range (a + 1)).all (fun i => (t.cdf.read (o + i)).isSome)
    && (List.range a).all (fun i =>
      decide ((t.cdf.read (o + i + 1)).getD 0 < (t.cdf.read (o + i)).getD 0))
    && t.cdf.read (o + a) == some 0

/-- The offset ROM has its `A_MAX + 1` entries, the table's storage fits its address width and is in canonical form, and
every row is lawful (00_scope.md R11, 20_memory.md R50, R52). -/
def Table.lawful (p : Params) (t : Table) : Bool :=
  t.cdf.wf
  && t.cdf.all (fun c => decide (c.1 < t.cdfSize))
  && decide (t.cdfSize ≤ 2 ^ p.offBits)
  && decide (t.off.length = p.aMax + 1)
  && t.off.all (fun o => decide (o < 2 ^ p.offBits))
  && (List.range p.aMax).all (fun a => t.rowLawful (a + 1))

/-- The bounds on `N` and `A_MAX` (00_scope.md R8, R9). -/
def Params.bounded (p : Params) : Bool :=
  decide (1 ≤ p.ampBits) && decide (p.ampBits ≤ 12)
  && decide (1 ≤ p.aMax) && decide (p.aMax ≤ 255) && decide (p.aMax < 2 ^ p.ampBits)

/-- A configuration that meets every constraint (00_scope.md R8 to R11, 20_memory.md R52). -/
def Params.lawful (p : Params) : Bool :=
  p.bounded && p.tables.toList.all (Table.lawful p)

/-- The platform loads a configuration (70_reset_and_hazards.md R204, R193): a malformed one is refused at this boundary
(20_memory.md R58, log 5). -/
def configure (p : Params) (s : State) : Out :=
  if p.lawful then .next { s with params := p } else .refused .malformedConfiguration

end Sys2Proof.Machine
end

