-- ==== Sys2Proof/Machine/Flags.lean ====
section
/-! DEFINITION. Every flag computation: the `STATUS` view, the output pins, and the conditions of the four faults that a
legal command can raise. -/

namespace Sys2Proof.Machine

/-- The two-bit code of `OP` (10_state.md R25). -/
def Op.code : Op → BitVec 2
  | .idle => 0
  | .enc => 1
  | .dec => 2

/-- `STATUS = {2'b0, OP, SEQ, 1'b0, CAUSE, 1'b0, HALT, FDIR, FRAME}` (10_state.md R29, 44_host_access.md R163). -/
def State.status (s : State) : Word :=
  0#2 ++ s.op.code ++ BitVec.ofNat 4 s.seq.val ++ 0#1 ++ s.cause.code ++ 0#1
    ++ BitVec.ofBool s.halt ++ s.fdir.bit ++ BitVec.ofBool s.frame

/-! ## The output pins (10_state.md R33) -/

/-- `ec_own = FRAME` (43_coder_wrapper.md R145). -/
def State.ecOwn (s : State) : Bool := s.frame

/-- `ec_dir = FDIR` (43_coder_wrapper.md R145). -/
def State.ecDir (s : State) : Dir := s.fdir

/-- `fault_o = HALT` (60_exceptions.md R182). -/
def State.faultO (s : State) : Bool := s.halt

/-- `cmd_ready = (CUR == none)` (10_state.md R33). -/
def State.cmdReady (s : State) : Bool := s.cur.isNone

/-! ## The conditions of the faults -/

/-- The open frame fits a command of direction `dir` (60_exceptions.md R174). -/
def State.frameIs (s : State) (dir : Dir) : Bool := s.frame && s.fdir == dir

/-- The parent amplitude exceeds `A_MAX` (60_exceptions.md R175). -/
def State.overRange (s : State) (nd : Node) : Bool := decide (s.params.aMax < (s.parent nd).toNat)

/-- child1 exceeds the parent (60_exceptions.md R176). -/
def State.outOfOrder (s : State) (nd : Node) : Bool := decide ((s.parent nd).toNat < (s.child1 nd).toNat)

/-- The decoded symbol exceeds the parent (60_exceptions.md R177). -/
def State.symbolTooLarge (s : State) (nd : Node) (sym : Word) : Bool :=
  decide ((s.parent nd).toNat < sym.toNat)

end Sys2Proof.Machine
end

