-- ==== Sys2Proof/Machine/CoderWrapper.lean ====
section
/-! DEFINITION. The wrapper around the coder's port: the frame commands FBEG, FEND, the request (43_coder_wrapper.md) and
the row read port (20_memory.md R56). -/

namespace Sys2Proof.Machine

/-- `FBEG dir` (43_coder_wrapper.md R141). -/
def execFbeg (dir : Dir) (s : State) : Out :=
  whenRunning s <|
    if s.frame then .next (s.takeFault .mode)
    else .next { s with frame := true, fdir := dir }.done

/-- `FEND` (43_coder_wrapper.md R142). -/
def execFend (s : State) : Out :=
  whenRunning s <|
    if s.frame then .next { s with frame := false, fdir := .enc }.done
    else .next (s.takeFault .mode)

/-- The request for the symbol `sym` of a node (43_coder_wrapper.md R143): the row is that of the parent amplitude. -/
def State.requestFor (s : State) (dir : Dir) (nd : Node) (sym : Word) : EcRequest where
  dir := dir
  lvl := nd.lvl
  amp := s.parent nd
  off := s.params.tblOff nd.lvl (s.parent nd).toNat
  sym := sym
  prec := Config.prec
  row := s.params.row nd.lvl (s.parent nd).toNat

/-- `EcRequest{...}` with `PEND <- 1` (43_coder_wrapper.md R143). -/
def State.sendRequest (s : State) (r : EcRequest) : State :=
  { s with pend := true, trace := s.trace ++ [.request r] }

end Sys2Proof.Machine
end

