-- ==== Sys2Proof/Machine/Combiner.lean ====
section
/-! DEFINITION. The pulse-tree combiner CMB, CMBT (40_combiner.md). -/

namespace Sys2Proof.Machine

/-- `CMB k` (40_combiner.md R92). -/
def execCmb (k : BitVec 3) (s : State) : Out :=
  whenRunning s <| whenLegal (.cmb k) s <| .next (s.combineLevel k.toNat).done

/-- `CMBT` (40_combiner.md R93). -/
def execCmbt (s : State) : Out := whenRunning s <| .next s.combineTree.done

end Sys2Proof.Machine
end

