-- ==== Sys2Proof/Machine/HostAccess.lean ====
section
/-! DEFINITION. The host access commands NOP, WR, RD, RDS (44_host_access.md). -/

namespace Sys2Proof.Machine

/-- `NOP` (44_host_access.md R160): also executes while halted. -/
def execNop (s : State) : Out := .next s.done

/-- `WR k, i, v` (44_host_access.md R161). -/
def execWr (k : BitVec 3) (i : BitVec 4) (v : Word) (s : State) : Out :=
  whenRunning s <| whenLegal (.wr k i v) s <| .next (s.writePulse k.toNat i.toNat v).done

/-- `RD k, i` (44_host_access.md R162): also executes while halted. -/
def execRd (k : BitVec 3) (i : BitVec 4) (s : State) : Out :=
  whenLegal (.rd k i) s <| .next (s.respond 0 (s.pulse k.toNat i.toNat))

/-- `RDS` (44_host_access.md R163): also executes while halted. -/
def execRds (s : State) : Out := .next (s.respond 0 s.status)

end Sys2Proof.Machine
end

