-- ==== Sys2Proof/Machine/SplitCodec.lean ====
section
/-! DEFINITION. The split codec: SplitBegin, SplitComplete, SplitDone, and the commands ESPL, DSPL (41_split_codec.md). -/

namespace Sys2Proof.Machine

/-- `SplitDone` inside a macro command (42_shell_sequencer.md R124). -/
def State.advance (s : State) : State :=
  if h : s.seq.val < 14 then { s with seq := ⟨s.seq.val + 1, by omega⟩ }
  else { s with seq := 0, op := .idle }.done

/-- `SplitDone` (41_split_codec.md R110): `inMacro` says that the command is `SENC` or `SDEC`. -/
def State.splitDone (s : State) (inMacro : Bool) : State :=
  if inMacro then s.advance else s.done

/-- `SplitBegin(dir, L, j)` (41_split_codec.md R101): range, then on encode order, then the zero parent. -/
def splitBegin (dir : Dir) (nd : Node) (inMacro : Bool) (s : State) : State :=
  if s.overRange nd then s.takeFault .range
  else match dir with
    | .enc =>
      if s.outOfOrder nd then s.takeFault .order
      else if s.parent nd = 0 then s.splitDone inMacro
      else s.sendRequest (s.requestFor .enc nd (s.child1 nd))
    | .dec =>
      if s.parent nd = 0 then (s.writeChildren nd 0 0).splitDone inMacro
      else s.sendRequest (s.requestFor .dec nd 0)

/-- A split whose request is pending (10_state.md R32). -/
structure PendingSplit where
  dir : Dir
  node : Node
  inMacro : Bool
deriving DecidableEq, Repr

/-- The split that a command has under way at step `q` of the traversal (10_state.md R32). -/
def splitOf (q : Fin 15) : Instr → Option PendingSplit
  | .espl l j => some ⟨.enc, Node.ofFields l j, false⟩
  | .dspl l j => some ⟨.dec, Node.ofFields l j, false⟩
  | .senc => some ⟨.enc, trav q, true⟩
  | .sdec _ => some ⟨.dec, trav q, true⟩
  | .nop => none
  | .wr _ _ _ => none
  | .rd _ _ => none
  | .rds => none
  | .cmb _ => none
  | .cmbt => none
  | .fbeg _ => none
  | .fend => none

/-- The command in `CUR`, where it holds a legal word (10_state.md R31, 30_encoding.md R73). -/
def State.command (s : State) : Option Instr :=
  match s.cur with
  | none => none
  | some w =>
    match decode s.params.ampBits w with
    | .ok i => some i
    | .error _ => none

/-- The split that the pending request belongs to (10_state.md R32). -/
def State.pendingSplit (s : State) : Option PendingSplit := s.command.bind (splitOf s.seq)

/-- `SplitComplete(rsp)` of a split (41_split_codec.md R104). The symbol is the low `N` bits of the response. -/
def splitComplete (p : PendingSplit) (rsp : EcResponse) (s : State) : State :=
  match p.dir with
  | .enc => { s with pend := false }.splitDone p.inMacro
  | .dec =>
    let sym := fit s.params.ampBits rsp.sym
    if s.symbolTooLarge p.node sym then s.takeFault .sym
    else
      ({ s with pend := false }.writeChildren p.node sym (s.parent p.node - sym)).splitDone p.inMacro

/-- `ESPL L, j` (41_split_codec.md R105). -/
def execEspl (l : BitVec 3) (j : BitVec 4) (s : State) : Out :=
  whenRunning s <| whenLegal (.espl l j) s <|
    if s.frameIs .enc then .next (splitBegin .enc (Node.ofFields l j) false s)
    else .next (s.takeFault .mode)

/-- `DSPL L, j` (41_split_codec.md R106). -/
def execDspl (l : BitVec 3) (j : BitVec 4) (s : State) : Out :=
  whenRunning s <| whenLegal (.dspl l j) s <|
    if s.frameIs .dec then .next (splitBegin .dec (Node.ofFields l j) false s)
    else .next (s.takeFault .mode)

/-- The row read port (20_memory.md R56): with a request pending, the byte at index `idx` of the selected row, for an
index up to `amp`, and an unspecified byte above it (log 16); nothing is read where no request is pending. -/
def State.ecCdfByte (s : State) (idx : Nat) : Option Byte :=
  if s.pend then
    s.pendingSplit.map fun p =>
      let amp := (s.parent p.node).toNat
      if idx ≤ amp then s.params.cdfByte p.node.lvl (s.params.tblOff p.node.lvl amp + idx)
      else Config.rowPortByte idx
  else none

end Sys2Proof.Machine
end

