-- ==== Sys2Proof/Machine/Sequencer.lean ====
section
/-! DEFINITION. The shell sequencer SENC, SDEC (42_shell_sequencer.md): one micro-step of the command, chosen by `OP`. -/

namespace Sys2Proof.Machine

/-- `SENC` (42_shell_sequencer.md R122): the combine phase where no macro command runs, else the split at `TRAV[SEQ]`. -/
def execSenc (s : State) : Out :=
  whenRunning s <|
    match s.op with
    | .idle =>
      if s.frameIs .enc then .next { s.combineTree with op := .enc, seq := 0 }
      else .next (s.takeFault .mode)
    | .enc => .next (splitBegin .enc (trav s.seq) true s)
    | .dec => .fault .macroMismatch

/-- `SDEC t` (42_shell_sequencer.md R123): the root total where no macro command runs, else the split at `TRAV[SEQ]`. -/
def execSdec (t : Word) (s : State) : Out :=
  whenRunning s <| whenLegal (.sdec t) s <|
    match s.op with
    | .idle =>
      if s.frameIs .dec then .next { s.writePulse 4 0 t with op := .dec, seq := 0 }
      else .next (s.takeFault .mode)
    | .dec => .next (splitBegin .dec (trav s.seq) true s)
    | .enc => .fault .macroMismatch

end Sys2Proof.Machine
end

