-- ==== Sys2Proof/Machine/Dispatch.lean ====
section
/-! DEFINITION. One arm per command: the meaning of its next micro-step (10_state.md R37). -/

namespace Sys2Proof.Machine

def exec (i : Instr) (s : State) : Host.Outcome State Fault Refusal :=
  match i with
  | .nop => Sys2Proof.Machine.execNop s
  | .wr k idx v => Sys2Proof.Machine.execWr k idx v s
  | .rd k idx => Sys2Proof.Machine.execRd k idx s
  | .rds => Sys2Proof.Machine.execRds s
  | .cmb k => Sys2Proof.Machine.execCmb k s
  | .cmbt => Sys2Proof.Machine.execCmbt s
  | .espl l j => Sys2Proof.Machine.execEspl l j s
  | .dspl l j => Sys2Proof.Machine.execDspl l j s
  | .senc => Sys2Proof.Machine.execSenc s
  | .sdec t => Sys2Proof.Machine.execSdec t s
  | .fbeg dir => Sys2Proof.Machine.execFbeg dir s
  | .fend => Sys2Proof.Machine.execFend s

end Sys2Proof.Machine
end

