-- ==== Sys2Proof/Machine/Agents.lean ====
section
/-! DEFINITION. The step of each agent (10_state.md R36 to R39) and whose turn it is (log 8). A turn of an agent that has
no enabled step changes nothing (log 9). -/

namespace Sys2Proof.Machine

/-- `CUR <- w` (10_state.md R36). -/
def State.accept (s : State) (w : CommandWord) : State := { s with cur := some w }

/-- The host's turn, `Issue(w)`: enabled when `CUR == none` (10_state.md R36). -/
def hostTurn (s : State) : Out :=
  match s.cur, s.hostWords with
  | none, w :: ws => .next ({ s with hostWords := ws }.accept w)
  | none, [] => .next s
  | some _, _ => .next s

/-- The host takes the oldest response that it has not taken, at any time after it was sent (70_reset_and_hazards.md R204,
log 18). -/
def takeTurn (s : State) : Out :=
  match s.untaken with
  | [] => .next s
  | w :: ws => .next { s with untaken := ws, trace := s.trace ++ [.taken w] }

/-- The core's turn, `Exec`: enabled when `CUR != none` and `PEND == 0` (10_state.md R37). -/
def coreTurn (s : State) : Out :=
  if s.pend then .next s
  else match s.cur with
    | none => .next s
    | some w =>
      match decode s.params.ampBits w with
      | .ok i => exec i s
      | .error _ => .next s.illegalWord

/-- The coder's turn, `EcRespond(s)`: enabled when `PEND == 1` (10_state.md R38). -/
def coderTurn (s : State) : Out :=
  if s.pend then
    match s.coderResponses with
    | [] => .next s
    | r :: rs =>
      match s.pendingSplit with
      | none => .fault .strayRequest
      | some p =>
        .next (splitComplete p r { s with coderResponses := rs, trace := s.trace ++ [.answer r] })
  else .next s

/-- The reset step, enabled always (10_state.md R39). -/
def resetTurn (s : State) : Out := .next s.resetBlock

/-- Who moves where no turn is scheduled (log 8): the coder, else the core, else the host, which takes its responses before
it issues the next command (10_state.md R36 to R38, 70_reset_and_hazards.md R204). -/
def State.enabledAgent (s : State) : Agent :=
  if s.pend then .coder
  else if s.cur.isNone then (if s.untaken.isEmpty then .host else .take)
  else .core

/-- Whose turn it is (log 8). -/
def State.turn (s : State) : Agent := s.schedule.head?.getD s.enabledAgent

/-- The turn is used up. -/
def State.popTurn (s : State) : State := { s with schedule := s.schedule.tail }

/-- The step of one agent. -/
def runTurn (a : Agent) (s : State) : Out :=
  match a with
  | .host => hostTurn s
  | .take => takeTurn s
  | .core => coreTurn s
  | .coder => coderTurn s
  | .reset => resetTurn s

/-- The word is the command in execution, accepted, and the core's turn is next (log 7). -/
def State.placeCommand (s : State) (w : CommandWord) : State :=
  { s with cur := some w, pend := false, schedule := [] }

end Sys2Proof.Machine
end

