-- ==== Sys2Proof/Machine/Step.lean ====
section
/-! DEFINITION. One step of the machine: one turn of one agent (00_scope.md R6). -/

namespace Sys2Proof.Machine

/-- One step: the agent whose turn it is takes it. -/
def step (s : State) : Host.Outcome State Fault Refusal := runTurn s.turn s.popTurn

/-- The next step runs the command whose word is `w` (30_encoding.md R70: every command has 32 bits; log 6, 7). -/
def State.withFetchWord (s : State) (_nbits w : Nat) : State := s.placeCommand (BitVec.ofNat 32 w)

end Sys2Proof.Machine
end

