-- ==== Sys2Proof/Machine/Assembler.lean ====
section
/-! DEFINITION. The spec's assembler spelling of a command (30_encoding.md R78) and the pseudo-commands (R79). -/

namespace Sys2Proof.Machine

/-- A direction's operand name (30_encoding.md R78). -/
def asmOfDir : Dir → String
  | .enc => "ENC"
  | .dec => "DEC"

/-- One command, as a line of the assembler (30_encoding.md R78). -/
def asmOf : Instr → String
  | .nop => "NOP"
  | .wr k i v => "WR " ++ toString k.toNat ++ ", " ++ toString i.toNat ++ ", " ++ toString v.toNat
  | .rd k i => "RD " ++ toString k.toNat ++ ", " ++ toString i.toNat
  | .rds => "RDS"
  | .cmb k => "CMB " ++ toString k.toNat
  | .cmbt => "CMBT"
  | .espl l j => "ESPL " ++ toString l.toNat ++ ", " ++ toString j.toNat
  | .dspl l j => "DSPL " ++ toString l.toNat ++ ", " ++ toString j.toNat
  | .senc => "SENC"
  | .sdec t => "SDEC " ++ toString t.toNat
  | .fbeg dir => "FBEG " ++ asmOfDir dir
  | .fend => "FEND"

/-- `LDV v0, .., v15`: sixteen writes of level 0 (30_encoding.md R79). -/
def pseudoLdv (v : Vector Word 16) : List Instr :=
  v.toList.zipIdx.map fun p => .wr 0 (BitVec.ofNat 4 p.2) p.1

/-- `RDV`: sixteen reads of level 0 (30_encoding.md R79). -/
def pseudoRdv : List Instr := (List.range 16).map fun i => .rd 0 (BitVec.ofNat 4 i)

/-- `SETROOT t` (30_encoding.md R79). -/
def pseudoSetroot (t : Word) : List Instr := [.wr 4 0 t]

/-- `RDROOT` (30_encoding.md R79). -/
def pseudoRdroot : List Instr := [.rd 4 0]

end Sys2Proof.Machine
end

