-- ==== Sys2Proof/Safety.lean ====
section
/-! DEFINITION. The terms in which claims are made: the observation of a run, the invariant of the block, a command that is
ready to run, and the requests that a tree calls for. -/

namespace Sys2Proof.Machine

/-! ## Steps in a row, and the events of them -/

/-- `k` steps, stopping at the first fault or refusal. -/
def runSteps : Nat → State → Out
  | 0, s => .next s
  | k + 1, s =>
    match step s with
    | .next t => runSteps k t
    | .fault r => .fault r
    | .refused r => .refused r

/-- The response words sent to the host, oldest first. -/
def responsesOf (es : List Event) : List CommandWord :=
  es.filterMap fun
    | .respond w => some w
    | .request _ => none
    | .answer _ => none
    | .taken _ => none
    | .reset => none

/-- The response words that the host took, oldest first. -/
def takenOf (es : List Event) : List CommandWord :=
  es.filterMap fun
    | .respond _ => none
    | .request _ => none
    | .answer _ => none
    | .taken w => some w
    | .reset => none

/-- The requests sent to the coder, oldest first. -/
def requestsOf (es : List Event) : List EcRequest :=
  es.filterMap fun
    | .respond _ => none
    | .request r => some r
    | .answer _ => none
    | .taken _ => none
    | .reset => none

/-- The coder's traffic, oldest first: the requests, interleaved with the answers. -/
def trafficOf (es : List Event) : List (EcRequest ⊕ EcResponse) :=
  es.filterMap fun
    | .respond _ => none
    | .request r => some (.inl r)
    | .answer r => some (.inr r)
    | .taken _ => none
    | .reset => none

/-- The events that `t` has observed since `s`. -/
def eventsSince (s t : State) : List Event := t.trace.drop s.trace.length

/-- The command has ended with the response word `w`, and nothing else of the state is changed. -/
def State.endsWith (s : State) (w : CommandWord) : State :=
  { s with cur := none, untaken := s.untaken ++ [w], trace := s.trace ++ [.respond w] }

/-- The block has halted with the cause `c` and the response word `w`, and nothing else of the state is changed
(60_exceptions.md R172). -/
def State.haltsWith (s : State) (c : Cause) (w : CommandWord) : State :=
  { s with
    halt := true
    cause := c
    pend := false
    cur := none
    untaken := s.untaken ++ [w]
    trace := s.trace ++ [.respond w] }

/-- The word is illegal at width `n`: it decodes to no command, and a core that finds it raises `ILL` and writes nothing
else (30_encoding.md R73, 60_exceptions.md R173). -/
structure IllegalWord (n : Nat) (w : CommandWord) : Prop where
  noCommand : ∃ e, decode n w = .error e
  raisesIll : ∀ s : State, s.params.ampBits = n → s.halt = false → s.pend = false → s.cur = some w →
    coreTurn s = .next (s.haltsWith .ill 0x10000000)

/-- The request for `sym` at the node `(l, j)` has been sent, and nothing else of the state is changed: every field as
43_coder_wrapper.md R143 gives it. -/
def State.awaits (s : State) (dir : Dir) (l j : Nat) (sym : Word) : State :=
  { s with
    pend := true
    trace := s.trace ++ [.request
      { dir := dir, lvl := l, amp := s.pulse (l + 1) j, off := s.params.tblOff l (s.pulse (l + 1) j).toNat,
        sym := sym, prec := 8, row := s.params.row l (s.pulse (l + 1) j).toNat }] }

/-- The macro command has gone on to its next split, or has ended after the last (42_shell_sequencer.md R124). -/
def State.nextSplit (s : State) : State :=
  if s.seq = 14 then { s with seq := 0, op := .idle }.endsWith 0 else { s with seq := s.seq + 1 }

/-- The command in execution has ended, and no fault stands. -/
def State.commandDone (s : State) : Bool := s.cur.isNone && !s.pend && !s.halt

/-! ## Runs and what is observed of them (70_reset_and_hazards.md R203) -/

/-- The start of a run of the words `ws`: a reset, with the words still to be issued, in order. The coder's answers and the
turns are those that `s` holds. -/
def State.startRun (s : State) (ws : List CommandWord) : State := { s.resetBlock with hostWords := ws }

/-- `k` steps of the run of the words `ws`. -/
def runOf (ws : List CommandWord) (k : Nat) (s : State) : Out := runSteps k (s.startRun ws)

/-- A run has ended well: every word has been issued and the last command has responded, `CUR == none`, `PEND == 0` and
`HALT == 0`. -/
def State.endedWell (s : State) : Bool := s.hostWords.isEmpty && s.commandDone

/-- What is observed of a run. -/
structure Observation where
  /-- (1) the response words -/
  responses : List CommandWord
  /-- (2) the requests with the rows they denote, interleaved with the coder's answers -/
  traffic : List (EcRequest ⊕ EcResponse)
  /-- (3) the final values of the pulse registers -/
  pulses : PulseFile
  /-- (3) the final `STATUS` -/
  status : Word
deriving DecidableEq, Repr

/-- What is observed from `s` to `t`. -/
def State.observed (s t : State) : Observation where
  responses := responsesOf (eventsSince s t)
  traffic := trafficOf (eventsSince s t)
  pulses := t.pulses
  status := t.status

/-! ## The invariant -/

/-- Every register is within its width, and the widest fits a cell (00_scope.md R8, 10_state.md R20). -/
structure State.WidthsFit (s : State) : Prop where
  narrow : s.params.ampBits ≤ 12
  fits : ∀ k i, (s.pulse k i).toNat < 2 ^ (s.params.ampBits + k)

/-- The next micro-step finds a macro command under way in order (42_shell_sequencer.md R122, R123). -/
def State.macroInOrder (s : State) : Prop :=
  match s.op with
  | .idle => True
  | .enc => s.command = some .senc ∧ s.frameIs .enc = true
  | .dec => (∃ t, s.command = some (.sdec t)) ∧ s.frameIs .dec = true

/-- The pending request is that of the split `p`, which passed the checks of `SplitBegin` (10_state.md R32,
43_coder_wrapper.md R143). -/
structure State.PendingOf (s : State) (p : PendingSplit) : Prop where
  split : s.pendingSplit = some p
  frame : s.frameIs p.dir = true
  inMacro : p.inMacro = decide (s.op ≠ .idle)
  coded : s.parent p.node ≠ 0
  inRange : s.overRange p.node = false
  ordered : p.dir = .enc → s.outOfOrder p.node = false

/-- The invariant of the block: the parameters are in bounds, every register is within its width, and the flags and the
sequencer agree with one another and with the command in execution. -/
structure State.Inv (s : State) : Prop where
  /-- 00_scope.md R8, R9 -/
  bounded : s.params.bounded = true
  /-- 10_state.md R20 -/
  fits : ∀ k i, (s.pulse k i).toNat < 2 ^ (s.params.ampBits + k)
  /-- 10_state.md R28 -/
  haltHasCause : s.halt = true ↔ s.cause ≠ .noFault
  /-- 60_exceptions.md R172, R180 -/
  haltNotPending : s.halt = true → s.pend = false
  /-- 10_state.md R27, R29 -/
  closedFrame : s.frame = false → s.fdir = .enc
  /-- 10_state.md R24 -/
  idleSeq : s.op = .idle → s.seq = 0
  /-- 10_state.md R26, R31 -/
  running : s.halt = false → s.macroInOrder
  /-- 10_state.md R32 -/
  pending : s.pend = true → ∃ p, s.PendingOf p

/-! ## Macro commands from start to end -/

/-- The command `i` has just been accepted and the block is ready to run it: nothing halted, nothing under way, an open
frame of direction `dir`, every turn left to the enabled agent. -/
structure State.ReadyFor (s : State) (i : Instr) (dir : Dir) : Prop where
  inv : s.Inv
  legal : i.wellFormed s.params.ampBits = true
  notHalted : s.halt = false
  notPending : s.pend = false
  idle : s.op = .idle
  frame : s.frameIs dir = true
  accepted : s.cur = some (encode i)
  noSchedule : s.schedule = []

/-- The 15 nodes in the order of the walk (42_shell_sequencer.md R121). -/
def walk : List Node := visit 3 0

/-- The encode requests that a tree calls for: one for each node with a nonzero parent, in order (41_split_codec.md R107,
R108, 42_shell_sequencer.md R122). -/
def State.encodeRequests (s : State) : List EcRequest :=
  walk.filterMap fun nd => if s.parent nd = 0 then none else some (s.requestFor .enc nd (s.child1 nd))

/-- The decode requests of the first `m` nodes of the walk, read from the registers as the splits leave them: one for each
node with a nonzero parent, in order (41_split_codec.md R107, R108, 42_shell_sequencer.md R123, R128). -/
def State.decodeRequests (s : State) (m : Nat) : List EcRequest :=
  (walk.take m).filterMap fun nd => if s.parent nd = 0 then none else some (s.requestFor .dec nd 0)

/-- The symbols of the coded nodes of the walk, read from the registers, in order. -/
def State.codedSymbols (s : State) : List Word :=
  walk.filterMap fun nd => if s.parent nd = 0 then none else some (s.child1 nd)

/-- What encoder and decoder must agree on in a request: `lvl`, `amp`, `off` (42_shell_sequencer.md R129). -/
def EcRequest.rowName (r : EcRequest) : Nat × Word × Nat := (r.lvl, r.amp, r.off)

/-- The total of the 16 leaves. -/
def State.leafSum (s : State) : Nat := ((List.range 16).map fun i => (s.pulse 0 i).toNat).sum

/-- The sum invariant at a node: `child1 + child2 == parent` (40_combiner.md R96, 41_split_codec.md R109). -/
def State.sumsAt (s : State) (nd : Node) : Prop :=
  (s.child1 nd).toNat + (s.child2 nd).toNat = (s.parent nd).toNat

/-- The sum invariant at every node of the tree. -/
def State.sumsEverywhere (s : State) : Prop := ∀ l j, isNode l j = true → s.sumsAt ⟨l, j⟩

/-- The root total is within the tables. -/
def State.rootInRange (s : State) : Prop := (s.pulse 4 0).toNat ≤ s.params.aMax

/-- The invariant of a running macro command (42_shell_sequencer.md R126, R127), beside that of the block: in `SENC` the
tree stands whole, in `SDEC` the nodes that have been split do; past the first split the root is within the tables; and a
macro command that has faulted did so with `RANGE` at `SEQ == 0`, or with `SYM` in `SDEC`. -/
structure State.MacroInv (s : State) : Prop where
  inv : s.Inv
  treeInEncode : s.op = .enc → s.sumsEverywhere
  splitInDecode : s.op = .dec → ∀ q : Fin 15, q < s.seq → s.sumsAt (trav q)
  rootPassed : s.op ≠ .idle → s.seq ≠ 0 ∨ s.pend = true → s.rootInRange
  faults : s.op ≠ .idle → s.halt = true →
    (s.cause = .range ∧ s.seq = 0 ∧ ¬ s.rootInRange) ∨ (s.cause = .sym ∧ s.op = .dec ∧ s.rootInRange)

/-! ## Lawful configurations -/

/-- The four constraints on the row of amplitude `a`, which stands at offset `o` of table `t` (20_memory.md R52). -/
structure Table.RowAt (t : Table) (a o : Nat) (row : List Byte) : Prop where
  offset : t.off[a]? = some o
  /-- constraint 1 -/
  inside : o + a < t.cdfSize
  /-- constraint 2 -/
  length : row.length = a + 1
  /-- constraint 2 -/
  listed : ∀ i, i ≤ a → t.cdf.read (o + i) = row[i]?
  /-- constraint 3 -/
  decreasing : row.Pairwise fun x y => y < x
  /-- constraint 4 -/
  endsInZero : row.getLast? = some 0

/-- The storage of a table has the shape that the parameters give it (00_scope.md R11, 20_memory.md R50): `A_MAX + 1`
entries of `OFF_BITS` bits, `CDF_SIZE` bytes that `OFF_BITS` bits address, in canonical form (log 4). -/
structure Table.ShapedBy (t : Table) (p : Params) : Prop where
  entries : t.off.length = p.aMax + 1
  entryWidth : ∀ o ∈ t.off, o < 2 ^ p.offBits
  addressed : t.cdfSize ≤ 2 ^ p.offBits
  inSize : ∀ c ∈ t.cdf, c.1 < t.cdfSize
  canonical : t.cdf.wf = true

end Sys2Proof.Machine
end

