-- ==== Sys2Proof/Certificates/Slice0/Obligations.lean ====
section
/-! DEFINITION. The statements for the provers. Each docstring names the rule of spec/ that it formalises; where a clause
rests on a choice of the model, the docstring names the log entry. -/

open Sys2Proof Sys2Proof.Machine

/-! ## Encoding -/

/-- 30_encoding.md R80: the encoding examples at `N = 8`, legal and illegal. -/
def Obligations.WrittenWordsDecode : Prop :=
  decode 8 0x00000000 = .ok .nop ∧ decode 8 0x10500001 = .ok (.wr 0 5 1) ∧
  decode 8 0x14000008 = .ok (.wr 4 0 8) ∧ decode 8 0x21700000 = .ok (.rd 1 7) ∧
  decode 8 0x30000000 = .ok .rds ∧ decode 8 0x43000000 = .ok (.cmb 3) ∧
  decode 8 0x50000000 = .ok .cmbt ∧ decode 8 0x63000000 = .ok (.espl 3 0) ∧
  decode 8 0x60700000 = .ok (.espl 0 7) ∧ decode 8 0x71200000 = .ok (.dspl 1 2) ∧
  decode 8 0x80000000 = .ok .senc ∧ decode 8 0x90000008 = .ok (.sdec 8) ∧
  decode 8 0xA0000000 = .ok (.fbeg .enc) ∧ decode 8 0xA0000001 = .ok (.fbeg .dec) ∧
  decode 8 0xB0000000 = .ok .fend ∧ decode 8 0x22200000 = .ok (.rd 2 2) ∧
  decode 8 0xC0000000 = .error .reservedOpcode ∧ decode 8 0x40000000 = .error .outOfRange ∧
  decode 8 0x22400000 = .error .outOfRange ∧ decode 8 0x10000100 = .error .outOfRange ∧
  decode 8 0x68000000 = .error .nonzeroField ∧ decode 8 0x50010000 = .error .nonzeroField

/-- 30_encoding.md R70 to R75: decoding the word of a well-formed command gives that command back, for every command, every
operand and every width `n`. -/
def Obligations.DecodeOfEncodeIsTheCommand : Prop :=
  ∀ (n : Nat) (i : Instr), i.wellFormed n = true → decode n (encode i) = .ok i

/-- 30_encoding.md R73, R76: a word that decodes is well-formed and is the word of its command, so every other word is
illegal. -/
def Obligations.DecodedWordIsItsCommandsWord : Prop :=
  ∀ (n : Nat) (w : CommandWord) (i : Instr), decode n w = .ok i → i.wellFormed n = true ∧ encode i = w

/-! ## Steps -/

/-- 10_state.md R37: where the core's turn comes and `CUR` holds a legal word, the step uses up the turn and is `exec` of
the decoded command; with no turn scheduled, the core's turn comes by itself (log 8). -/
def Obligations.StepRunsTheDecodedCommand : Prop :=
  ∀ (s : State) (w : CommandWord) (i : Instr),
    s.pend = false → s.cur = some w → decode s.params.ampBits w = .ok i →
      (s.turn = .core → step s = exec i s.popTurn) ∧ (s.schedule = [] → step s = exec i s)

/-- 10_state.md R36: on the host's turn, its next word goes into `CUR` where `CUR == none`, and nothing else of the block
changes; while a command is executing the host issues nothing. The words to come are a list (log 7), and a turn on which
nothing is issued is a next state that only uses up the turn (log 9). -/
def Obligations.HostIssuesOnlyWhenReady : Prop :=
  ∀ s : State, s.turn = .host →
    (∀ w ws, s.cur = none → s.hostWords = w :: ws → step s = .next { s.popTurn with cur := some w, hostWords := ws }) ∧
    (s.cur ≠ none → step s = .next s.popTurn)

/-- 70_reset_and_hazards.md R204: on its turn to take, the host takes the oldest response not yet taken and nothing else
changes; whatever the steps, the responses are taken in the order in which they were sent, and none is lost (log 18). -/
def Obligations.HostTakesResponsesInOrder : Prop :=
  (∀ (s : State) (w : CommandWord) (ws : List CommandWord), s.turn = .take → s.untaken = w :: ws →
    step s = .next { s.popTurn with untaken := ws, trace := s.trace ++ [.taken w] }) ∧
  (∀ s t : State, step s = .next t →
    s.untaken ++ responsesOf (eventsSince s t) = takenOf (eventsSince s t) ++ t.untaken)

/-- 60_exceptions.md R173: an illegal word raises `ILL`, and nothing else is read or written. -/
def Obligations.IllegalWordTakesIll : Prop :=
  ∀ (s : State) (w : CommandWord) (e : DecodeError),
    s.turn = .core → s.pend = false → s.halt = false → s.cur = some w → decode s.params.ampBits w = .error e →
      step s = .next (s.popTurn.haltsWith .ill 0x10000000)

/-- 10_state.md R32, R37, 70_reset_and_hazards.md R201: while a request is pending the core takes no micro-step and the host
issues nothing, whatever answers are ready; and with a coder that never answers, any number of turns of any agents but a
reset leaves the block where it is: only turns are used up, and responses sent earlier may be taken (turns in which nothing
happens: log 9). -/
def Obligations.SilentCoderLeavesTheBlockWaiting : Prop :=
  ∀ s : State, s.pend = true →
    (s.turn = .core ∨ s.turn = .host ∧ s.cur ≠ none → step s = .next s.popTurn) ∧
    (s.coderResponses = [] → ∀ k,
      (s.schedule = [] → runSteps k s = .next s) ∧
      (s.cur ≠ none → .reset ∉ s.schedule →
        ∃ m, m ≤ k ∧ (.take ∉ s.schedule → m = 0) ∧ runSteps k s = .next
          { s with
            schedule := s.schedule.drop k
            untaken := s.untaken.drop m
            trace := s.trace ++ (s.untaken.take m).map .taken }))

/-- 30_encoding.md R74: a step sends one response exactly when it ends the command in execution, and none otherwise,
unless it is the reset step. -/
def Obligations.OneResponseEndsEachCommand : Prop :=
  ∀ s t : State, step s = .next t → s.turn ≠ .reset →
    (responsesOf (eventsSince s t)).length = if s.cur ≠ none ∧ t.cur = none then 1 else 0

/-- 70_reset_and_hazards.md R203, 30_encoding.md R74: in a run of the words `ws` without a further reset, each word has been
answered once, is in execution, or is still to be issued; so a run that has ended well has answered every word. -/
def Obligations.RunAnswersEveryWord : Prop :=
  ∀ (s t : State) (ws : List CommandWord) (k : Nat), .reset ∉ s.schedule → runOf ws k s = .next t →
    let seen := (s.startRun ws).observed t
    seen.responses.length + (if t.cur = none then 0 else 1) + t.hostWords.length = ws.length ∧
    (t.endedWell = true → seen.responses.length = ws.length ∧ t.cur = none ∧ t.pend = false ∧ t.halt = false)

/-- 10_state.md R37: each micro-step of the core ends in exactly one of these ways: a response, which ends the command; a
request, after which the core waits; or neither, and the macro command moves on. -/
def Obligations.EveryMicroStepEndsInOneWay : Prop :=
  ∀ s t : State, s.turn = .core → s.pend = false → s.cur ≠ none → step s = .next t →
    let sent := requestsOf (eventsSince s t)
    let answers := responsesOf (eventsSince s t)
    (t.cur = none ∧ t.pend = false ∧ answers.length = 1 ∧ sent = []) ∨
    (t.cur = s.cur ∧ t.pend = true ∧ answers = [] ∧ sent.length = 1 ∧ t.seq = s.seq ∧ t.op = s.op) ∨
    (t.cur = s.cur ∧ t.pend = false ∧ answers = [] ∧ sent = [] ∧ (t.seq ≠ s.seq ∨ t.op ≠ s.op))

/-- 20_memory.md R65, 10_state.md R30: no step changes the parameters or the tables. -/
def Obligations.StepKeepsTheConfiguration : Prop :=
  ∀ s t : State, step s = .next t → t.params = s.params

/-! ## Reset -/

/-- 10_state.md R35, R39: a reset step may be taken in any state; every piece of state takes its reset value, the constants
are unchanged, and a command in execution is abandoned without a response. -/
def Obligations.ResetStepClearsTheBlock : Prop :=
  ∀ s : State, s.turn = .reset →
    ∃ t, step s = .next t ∧ (∀ k i, t.pulse k i = 0) ∧ t.seq = 0 ∧ t.op = .idle ∧ t.frame = false ∧ t.fdir = .enc ∧
      t.halt = false ∧ t.cause = .noFault ∧ t.cur = none ∧ t.pend = false ∧ t.status = 0 ∧ t.params = s.params ∧
      responsesOf (eventsSince s t) = [] ∧ requestsOf (eventsSince s t) = []

/-- 10_state.md R35: after reset every piece of state is zero or empty. -/
def Obligations.ResetStateIsZero : Prop :=
  (∀ k i, State.reset.pulse k i = 0) ∧ State.reset.seq = 0 ∧ State.reset.op = .idle ∧
  State.reset.frame = false ∧ State.reset.fdir = .enc ∧ State.reset.halt = false ∧
  State.reset.cause = .noFault ∧ State.reset.cur = none ∧ State.reset.pend = false ∧ State.reset.status = 0

/-! ## Host access -/

/-- 44_host_access.md R160: `NOP` in any state, halted or not, answers 0 and changes no state but `CUR`. -/
def Obligations.NopAnswersZeroInAnyState : Prop :=
  encode .nop = 0x00000000 ∧ ∀ s : State, exec .nop s = .next (s.endsWith 0)

/-- 44_host_access.md R161: `WR` writes exactly one register and leaves all else; it is illegal out of range and not
executed while halted. -/
def Obligations.WriteStoresExactlyOneRegister : Prop :=
  ∀ (s : State) (k : BitVec 3) (i : BitVec 4) (v : Word),
    encode (.wr k i v) = 0x1#4 ++ 0#1 ++ k ++ i ++ 0#4 ++ v ∧
    (k.toNat ≤ 4 ∧ i.toNat < 16 >>> k.toNat ∧ v.toNat < 2 ^ (s.params.ampBits + k.toNat) →
      (s.halt = false →
        ∃ f, exec (.wr k i v) s = .next ({ s with pulses := f }.endsWith 0) ∧
          f.read k.toNat i.toNat = v ∧
          ∀ k' i', ¬ (k' = k.toNat ∧ i' = i.toNat) → f.read k' i' = s.pulse k' i') ∧
      (s.halt = true → exec (.wr k i v) s = .next (s.endsWith (s.cause.code.setWidth 4 ++ 0#28)))) ∧
    (¬ (k.toNat ≤ 4 ∧ i.toNat < 16 >>> k.toNat ∧ v.toNat < 2 ^ (s.params.ampBits + k.toNat)) →
      IllegalWord s.params.ampBits (encode (.wr k i v)))

/-- 44_host_access.md R162: `RD` answers the register's value, zero-extended, halted or not, and writes nothing; it is
illegal out of range. -/
def Obligations.ReadAnswersTheRegister : Prop :=
  ∀ (s : State) (k : BitVec 3) (i : BitVec 4),
    encode (.rd k i) = 0x2#4 ++ 0#1 ++ k ++ i ++ 0#20 ∧
    (k.toNat ≤ 4 ∧ i.toNat < 16 >>> k.toNat →
      exec (.rd k i) s = .next (s.endsWith (0#16 ++ s.pulse k.toNat i.toNat))) ∧
    (¬ (k.toNat ≤ 4 ∧ i.toNat < 16 >>> k.toNat) →
      IllegalWord s.params.ampBits (encode (.rd k i)))

/-- 44_host_access.md R163: `RDS` answers `STATUS`, halted or not, and writes nothing. -/
def Obligations.ReadStatusAnswersStatus : Prop :=
  encode .rds = 0x30000000 ∧
  ∀ s : State, exec .rds s = .next (s.endsWith (0#16 ++ s.status)) ∧
    s.status = 0#2 ++ s.op.code ++ BitVec.ofNat 4 s.seq.val ++ 0#1 ++ s.cause.code ++ 0#1 ++
      BitVec.ofBool s.halt ++ s.fdir.bit ++ BitVec.ofBool s.frame

/-- 10_state.md R25, R27, R29, 60_exceptions.md R171: where each field of `STATUS` stands, which code each value of it has,
and that the reserved bits read 0. -/
def Obligations.StatusFieldsStandInTheirPlaces : Prop :=
  (∀ s : State,
    s.status[0] = s.frame ∧ s.status[1] = decide (s.fdir = .dec) ∧ s.status[2] = s.halt ∧ s.status[3] = false ∧
    s.status.extractLsb' 4 3 = s.cause.code ∧ s.status[7] = false ∧
    (s.status.extractLsb' 8 4).toNat = s.seq.val ∧ s.status.extractLsb' 12 2 = s.op.code ∧
    s.status[14] = false ∧ s.status[15] = false) ∧
  Op.idle.code = 0 ∧ Op.enc.code = 1 ∧ Op.dec.code = 2 ∧
  Cause.noFault.code = 0 ∧ Cause.ill.code = 1 ∧ Cause.mode.code = 2 ∧ Cause.range.code = 3 ∧ Cause.order.code = 4 ∧
  Cause.sym.code = 5 ∧ Dir.enc.bit = 0 ∧ Dir.dec.bit = 1

/-- 10_state.md R29: under the invariant, `RDS` sees `OP == IDLE` and `SEQ == 0` unless the block has halted. -/
def Obligations.StatusShowsIdleUnlessHalted : Prop :=
  ∀ s : State, s.Inv → s.command = some .rds → s.halt = false → s.status.extractLsb' 8 6 = 0

/-! ## The combiner -/

/-- 40_combiner.md R92: `CMB k` leaves in each register of level `k` the exact sum of its pair and touches nothing else;
it is illegal for other levels and not executed while halted. -/
def Obligations.CombineLevelAddsPairs : Prop :=
  ∀ (s : State) (k : BitVec 3),
    encode (.cmb k) = 0x4#4 ++ 0#1 ++ k ++ 0#24 ∧
    (1 ≤ k.toNat ∧ k.toNat ≤ 4 →
      (s.halt = false → s.WidthsFit →
        ∃ f, exec (.cmb k) s = .next ({ s with pulses := f }.endsWith 0) ∧
          (∀ i, i < 16 >>> k.toNat → (f.read k.toNat i).toNat =
            (s.pulse (k.toNat - 1) (2 * i)).toNat + (s.pulse (k.toNat - 1) (2 * i + 1)).toNat) ∧
          ∀ k' i, k' ≠ k.toNat → f.read k' i = s.pulse k' i) ∧
      (s.halt = true → exec (.cmb k) s = .next (s.endsWith (s.cause.code.setWidth 4 ++ 0#28)))) ∧
    (¬ (1 ≤ k.toNat ∧ k.toNat ≤ 4) → IllegalWord s.params.ampBits (encode (.cmb k)))

/-- 40_combiner.md R93: `CMBT` leaves level 0 alone and leaves in each register of levels 1 to 4 the exact sum of the NEW
values of its pair; it is not executed while halted. -/
def Obligations.CombineTreeAddsFromTheLeaves : Prop :=
  encode .cmbt = 0x50000000 ∧
  ∀ s : State,
    (s.halt = false → s.WidthsFit →
      ∃ f, exec .cmbt s = .next ({ s with pulses := f }.endsWith 0) ∧
        (∀ i, f.read 0 i = s.pulse 0 i) ∧
        ∀ k i, 1 ≤ k → k ≤ 4 → i < 16 >>> k →
          (f.read k i).toNat = (f.read (k - 1) (2 * i)).toNat + (f.read (k - 1) (2 * i + 1)).toNat) ∧
    (s.halt = true → exec .cmbt s = .next (s.endsWith (s.cause.code.setWidth 4 ++ 0#28)))

/-- 40_combiner.md R94: `CMBT` has the same effect on the pulse registers as `CMB 1; CMB 2; CMB 3; CMB 4`. -/
def Obligations.CombineTreeIsTheFourLevelsInTurn : Prop :=
  ∀ s : State, s.halt = false →
    ∃ t1 t2 t3 t4 t, exec (.cmb 1) s = .next t1 ∧ exec (.cmb 2) t1 = .next t2 ∧ exec (.cmb 3) t2 = .next t3 ∧
      exec (.cmb 4) t3 = .next t4 ∧ exec .cmbt s = .next t ∧ t.pulses = t4.pulses

/-- 40_combiner.md R96: after `CMBT`, and after the combine phase of `SENC`, the sum invariant holds at every node, child1 is
at most its parent, every register is the sum of its leaves, the root is the sum of all 16, and no register exceeds the
root. -/
def Obligations.CombineTreeMeetsTheSumInvariant : Prop :=
  ∀ s : State, s.halt = false → s.WidthsFit →
    ∃ t, exec .cmbt s = .next t ∧
      (s.op = .idle → s.frameIs .enc = true → ∃ u, exec .senc s = .next u ∧ u.pulses = t.pulses) ∧ t.sumsEverywhere ∧
      (∀ l j, isNode l j = true → (t.child1 ⟨l, j⟩).toNat ≤ (t.parent ⟨l, j⟩).toNat) ∧
      (∀ k i, isRegister k i = true → (t.pulse k i).toNat =
        ((List.range (2 ^ k)).map fun d => (t.pulse 0 (i * 2 ^ k + d)).toNat).sum) ∧
      (t.pulse 4 0).toNat = t.leafSum ∧
      ∀ k i, isRegister k i = true → (t.pulse k i).toNat ≤ (t.pulse 4 0).toNat

/-! ## The split codec -/

/-- 41_split_codec.md R105: the first micro-step of `ESPL` in an open encode frame, by the parent and child1: a request, or
no request for a zero parent, or the faults `RANGE` and `ORDER`; outside such a frame `MODE`. It writes no register. -/
def Obligations.EncodeSplitFirstMicroStep : Prop :=
  ∀ (s : State) (l : BitVec 3) (j : BitVec 4),
    let amp := s.pulse (l.toNat + 1) j.toNat
    let c1 := s.pulse l.toNat (2 * j.toNat)
    encode (.espl l j) = 0x6#4 ++ 0#1 ++ l ++ j ++ 0#20 ∧
    (l.toNat ≤ 3 ∧ j.toNat < 8 >>> l.toNat → s.halt = false →
      (s.frame = true ∧ s.fdir = .enc →
        (amp.toNat ≤ s.params.aMax → c1.toNat ≤ amp.toNat → amp ≠ 0 →
          exec (.espl l j) s = .next (s.awaits .enc l.toNat j.toNat c1)) ∧
        (amp = 0 → c1 = 0 → exec (.espl l j) s = .next (s.endsWith 0)) ∧
        (s.params.aMax < amp.toNat → exec (.espl l j) s = .next (s.haltsWith .range 0x30000000)) ∧
        (amp.toNat ≤ s.params.aMax → amp.toNat < c1.toNat →
          exec (.espl l j) s = .next (s.haltsWith .order 0x40000000))) ∧
      (¬ (s.frame = true ∧ s.fdir = .enc) → exec (.espl l j) s = .next (s.haltsWith .mode 0x20000000))) ∧
    (¬ (l.toNat ≤ 3 ∧ j.toNat < 8 >>> l.toNat) → IllegalWord s.params.ampBits (encode (.espl l j)))

/-- 41_split_codec.md R106: the first micro-step of `DSPL` in an open decode frame, by the parent: a request, or both
children 0 and no request for a zero parent, or the fault `RANGE`; outside such a frame `MODE`. -/
def Obligations.DecodeSplitFirstMicroStep : Prop :=
  ∀ (s : State) (l : BitVec 3) (j : BitVec 4),
    let amp := s.pulse (l.toNat + 1) j.toNat
    encode (.dspl l j) = 0x7#4 ++ 0#1 ++ l ++ j ++ 0#20 ∧
    (l.toNat ≤ 3 ∧ j.toNat < 8 >>> l.toNat → s.halt = false →
      (s.frame = true ∧ s.fdir = .dec →
        (amp.toNat ≤ s.params.aMax → amp ≠ 0 →
          exec (.dspl l j) s = .next (s.awaits .dec l.toNat j.toNat 0)) ∧
        (amp = 0 →
          ∃ f, exec (.dspl l j) s = .next ({ s with pulses := f }.endsWith 0) ∧
            f.read l.toNat (2 * j.toNat) = 0 ∧ f.read l.toNat (2 * j.toNat + 1) = 0 ∧
            ∀ k i, ¬ (k = l.toNat ∧ (i = 2 * j.toNat ∨ i = 2 * j.toNat + 1)) → f.read k i = s.pulse k i) ∧
        (s.params.aMax < amp.toNat → exec (.dspl l j) s = .next (s.haltsWith .range 0x30000000))) ∧
      (¬ (s.frame = true ∧ s.fdir = .dec) → exec (.dspl l j) s = .next (s.haltsWith .mode 0x20000000))) ∧
    (¬ (l.toNat ≤ 3 ∧ j.toNat < 8 >>> l.toNat) → IllegalWord s.params.ampBits (encode (.dspl l j)))

/-- 41_split_codec.md R104, R110: on encode the coder's answer only ends the split: `ESPL` responds, `SENC` goes on. -/
def Obligations.EncodeAnswerEndsTheSplit : Prop :=
  ∀ (s : State) (p : PendingSplit) (r : EcResponse) (rs : List EcResponse),
    s.turn = .coder → s.pend = true → s.pendingSplit = some p → p.dir = .enc → s.coderResponses = r :: rs →
      let u : State := { s.popTurn with pend := false, coderResponses := rs, trace := s.trace ++ [.answer r] }
      step s = .next (if p.inMacro then u.nextSplit else u.endsWith 0)

/-- 41_split_codec.md R104, R109, R110: on decode a symbol of at most the parent is written to child1, the rest of the
parent to child2, no other register changes, and the split ends: `DSPL` responds, `SDEC` goes on. The symbol is the
response's low `N` bits (log 10). -/
def Obligations.DecodeAnswerWritesBothChildren : Prop :=
  ∀ (s : State) (p : PendingSplit) (r : EcResponse) (rs : List EcResponse),
    s.Inv → s.turn = .coder → s.pend = true → s.pendingSplit = some p → p.dir = .dec → s.coderResponses = r :: rs →
      r.sym.toNat % 2 ^ s.params.ampBits ≤ (s.parent p.node).toNat →
      ∃ f,
        let u : State :=
          { s.popTurn with pulses := f, pend := false, coderResponses := rs, trace := s.trace ++ [.answer r] }
        step s = .next (if p.inMacro then u.nextSplit else u.endsWith 0) ∧
        (u.child1 p.node).toNat = r.sym.toNat % 2 ^ s.params.ampBits ∧ u.sumsAt p.node ∧
        u.parent p.node = s.parent p.node ∧
        ∀ k i, ¬ (k = p.node.lvl ∧ (i = 2 * p.node.idx ∨ i = 2 * p.node.idx + 1)) → f.read k i = s.pulse k i

/-- 60_exceptions.md R177: a decoded symbol above the parent raises `SYM`; `PEND` is cleared, the children are not written,
and the coder's answer is used up. The symbol is the response's low `N` bits (log 10). -/
def Obligations.SymbolAboveParentTakesSym : Prop :=
  ∀ (s : State) (p : PendingSplit) (r : EcResponse) (rs : List EcResponse),
    s.turn = .coder → s.pend = true → s.pendingSplit = some p → p.dir = .dec → s.coderResponses = r :: rs →
      (s.parent p.node).toNat < r.sym.toNat % 2 ^ s.params.ampBits →
      let u : State := { s.popTurn with coderResponses := rs, trace := s.trace ++ [.answer r] }
      step s = .next (u.haltsWith .sym 0x50000000)

/-- 41_split_codec.md R107: a split whose parent is 0 sends nothing to the coder in either direction, and on decode writes
`(0, 0)` to the children: single splits, and the splits of the macro commands. -/
def Obligations.ZeroParentSendsNothing : Prop :=
  ∀ (s : State) (l : BitVec 3) (j : BitVec 4) (t : Word), s.halt = false → s.pend = false →
    (isNode l.toNat j.toNat = true → s.parent ⟨l.toNat, j.toNat⟩ = 0 →
      (s.frameIs .enc = true →
        ∃ u, exec (.espl l j) s = .next u ∧ requestsOf (eventsSince s u) = [] ∧ u.pend = false) ∧
      (s.frameIs .dec = true →
        ∃ u, exec (.dspl l j) s = .next u ∧ requestsOf (eventsSince s u) = [] ∧ u.pend = false ∧
          u.child1 ⟨l.toNat, j.toNat⟩ = 0 ∧ u.child2 ⟨l.toNat, j.toNat⟩ = 0)) ∧
    (s.parent (trav s.seq) = 0 →
      (s.op = .enc →
        ∃ u, exec .senc s = .next u ∧ requestsOf (eventsSince s u) = [] ∧ u.pend = false) ∧
      (s.op = .dec → (Instr.sdec t).wellFormed s.params.ampBits = true →
        ∃ u, exec (.sdec t) s = .next u ∧ requestsOf (eventsSince s u) = [] ∧ u.pend = false ∧
          u.child1 (trav s.seq) = 0 ∧ u.child2 (trav s.seq) = 0))

/-! ## The sequencer -/

/-- 42_shell_sequencer.md R121: `TRAV` is the pre-order, left-before-right, depth-first walk of the 15 nodes. -/
def Obligations.TraversalIsDepthFirst : Prop :=
  (List.finRange 15).map trav = visit 3 0 ∧
  (∀ l j, visit (l + 1) j = ⟨l + 1, j⟩ :: (visit l (2 * j) ++ visit l (2 * j + 1))) ∧ (∀ j, visit 0 j = [⟨0, j⟩])

/-- 42_shell_sequencer.md R125: in `TRAV` the node whose child is the parent of a node comes before it. -/
def Obligations.ParentComesBeforeChildren : Prop :=
  ∀ q : Fin 15, (trav q).lvl < 3 → ∃ q' : Fin 15, q' < q ∧ trav q' = ⟨(trav q).lvl + 1, (trav q).idx / 2⟩

/-- 42_shell_sequencer.md R122, R124: the micro-steps of `SENC`: the tree exactly as `CMBT` builds it with `OP <- ENC` and
`SEQ <- 0`, or `MODE` outside an encode frame; then at each node a request, or the next split for a zero parent, or
`RANGE`. -/
def Obligations.EncodeMacroMicroSteps : Prop :=
  encode .senc = 0x80000000 ∧
  ∀ s : State, s.halt = false →
    (s.op = .idle →
      (s.frame = true ∧ s.fdir = .enc →
        ∃ f, exec .cmbt s = .next ({ s with pulses := f }.endsWith 0) ∧
          exec .senc s = .next { s with pulses := f, op := .enc, seq := 0 }) ∧
      (¬ (s.frame = true ∧ s.fdir = .enc) → exec .senc s = .next (s.haltsWith .mode 0x20000000))) ∧
    (s.op = .enc →
      let amp := s.parent (trav s.seq)
      let c1 := s.child1 (trav s.seq)
      (amp.toNat ≤ s.params.aMax → c1.toNat ≤ amp.toNat → amp ≠ 0 →
        exec .senc s = .next (s.awaits .enc (trav s.seq).lvl (trav s.seq).idx c1)) ∧
      (amp = 0 → c1 = 0 → exec .senc s = .next s.nextSplit) ∧
      (s.params.aMax < amp.toNat → exec .senc s = .next (s.haltsWith .range 0x30000000)))

/-- 42_shell_sequencer.md R123, R124: the micro-steps of `SDEC t`: the root total with `OP <- DEC` and `SEQ <- 0`, or
`MODE` outside a decode frame; then at each node a request, or both children 0 and the next split for a zero parent, or
`RANGE`. -/
def Obligations.DecodeMacroMicroSteps : Prop :=
  ∀ (s : State) (t : Word),
    encode (.sdec t) = 0x9000#16 ++ t ∧
    (t.toNat < 2 ^ (s.params.ampBits + 4) → s.halt = false →
      (s.op = .idle →
        (s.frame = true ∧ s.fdir = .dec →
          ∃ f, exec (.sdec t) s = .next { s with pulses := f, op := .dec, seq := 0 } ∧ f.read 4 0 = t ∧
            ∀ k i, ¬ (k = 4 ∧ i = 0) → f.read k i = s.pulse k i) ∧
        (¬ (s.frame = true ∧ s.fdir = .dec) → exec (.sdec t) s = .next (s.haltsWith .mode 0x20000000))) ∧
      (s.op = .dec →
        let nd := trav s.seq
        let amp := s.parent nd
        (amp.toNat ≤ s.params.aMax → amp ≠ 0 → exec (.sdec t) s = .next (s.awaits .dec nd.lvl nd.idx 0)) ∧
        (amp = 0 →
          ∃ f, exec (.sdec t) s = .next { s with pulses := f }.nextSplit ∧
            f.read nd.lvl (2 * nd.idx) = 0 ∧ f.read nd.lvl (2 * nd.idx + 1) = 0 ∧
            ∀ k i, ¬ (k = nd.lvl ∧ (i = 2 * nd.idx ∨ i = 2 * nd.idx + 1)) → f.read k i = s.pulse k i) ∧
        (s.params.aMax < amp.toNat → exec (.sdec t) s = .next (s.haltsWith .range 0x30000000)))) ∧
    (¬ t.toNat < 2 ^ (s.params.ampBits + 4) → IllegalWord s.params.ampBits (encode (.sdec t)))

/-- 42_shell_sequencer.md R122, R124, 70_reset_and_hazards.md R201: with a total of at most `A_MAX` and a coder that
answers, `SENC` runs to its end in at most 31 steps: the tree is built, exactly the requests that it calls for have been
sent in `TRAV` order, one answer is used up for each, the response is 0, and nothing else is changed. -/
def Obligations.EncodeMacroRunsToItsEnd : Prop :=
  ∀ s : State, s.ReadyFor .senc .enc → s.leafSum ≤ s.params.aMax →
    let reqs := s.combineTree.encodeRequests
    reqs.length ≤ s.coderResponses.length →
      ∃ n es, n ≤ 31 ∧
        runSteps n s = .next
          { s.combineTree with
            cur := none
            coderResponses := s.coderResponses.drop reqs.length
            untaken := s.untaken ++ [0]
            trace := s.trace ++ es } ∧
        requestsOf es = reqs ∧ responsesOf es = [0]

/-- 42_shell_sequencer.md R128: a tree calls for at most 15 requests, and for at least 4 where the total is not 0. -/
def Obligations.TreeCallsForFourToFifteenRequests : Prop :=
  ∀ s : State, s.WidthsFit →
    s.combineTree.encodeRequests.length ≤ 15 ∧ (s.leafSum ≠ 0 → 4 ≤ s.combineTree.encodeRequests.length)

/-- 42_shell_sequencer.md R130: two runs of `SENC` on equal `P[0]` (and equal tables) send equal sequences of requests,
whatever the other registers, the answers and the rest of the state hold, and end alike. -/
def Obligations.EqualPulsesSendEqualRequests : Prop :=
  ∀ s s' : State, s.ReadyFor .senc .enc → s'.ReadyFor .senc .enc → s'.params = s.params →
    (∀ i, s'.pulse 0 i = s.pulse 0 i) → 15 ≤ s.coderResponses.length → 15 ≤ s'.coderResponses.length →
      ∃ n t n' t', runSteps n s = .next t ∧ runSteps n' s' = .next t' ∧ t.cur = none ∧ t'.cur = none ∧
        t.commandDone = decide (s.leafSum ≤ s.params.aMax) ∧ t'.commandDone = t.commandDone ∧
        requestsOf (eventsSince s' t') = requestsOf (eventsSince s t)

/-- 42_shell_sequencer.md R123, R126, R128, 41_split_codec.md R109, 70_reset_and_hazards.md R201: with a total of at most
`A_MAX` and a coder that answers, `SDEC t` ends in at most 31 steps, and sends one decode request for each visited node with
a nonzero parent, in `TRAV` order, one answer used up for each, whatever symbols the coder gives: with `SYM` at the node
`TRAV[SEQ]`; or with every node visited, the answers (their low `N` bits: log 10) in the coded children in order, the root
`t`, the sum invariant at every node, the leaves summing to `t`, and nothing but the registers changed. -/
def Obligations.DecodeMacroRunsToItsEnd : Prop :=
  ∀ (s : State) (t : Word), s.ReadyFor (.sdec t) .dec → t.toNat ≤ s.params.aMax → 15 ≤ s.coderResponses.length →
    ∃ n u, n ≤ 31 ∧ runSteps n s = .next u ∧ u.cur = none ∧ u.pend = false ∧
      let sent := requestsOf (eventsSince s u)
      let answers := responsesOf (eventsSince s u)
      u.coderResponses = s.coderResponses.drop sent.length ∧
      ((u.halt = true ∧ u.cause = .sym ∧ answers = [0x50000000] ∧ sent = u.decodeRequests (u.seq.val + 1)) ∨
        (u.halt = false ∧ u.op = .idle ∧ u.seq = 0 ∧ answers = [0] ∧ sent = u.decodeRequests 15 ∧
          u.codedSymbols = (s.coderResponses.take sent.length).map (fun r => fit s.params.ampBits r.sym) ∧
          u.pulse 4 0 = t ∧ u.sumsEverywhere ∧ u.leafSum = t.toNat ∧
          u =
            { s with
              pulses := u.pulses
              cur := none
              coderResponses := u.coderResponses
              untaken := s.untaken ++ [0]
              trace := u.trace }))

/-- 42_shell_sequencer.md R127: in a run of `SENC`, whatever the coder answers, the only fault is `RANGE` at `SEQ == 0`,
and it means a total above `A_MAX`; in a run of `SDEC t` it is that, or `SYM`. -/
def Obligations.MacroFaultsOnlyAsStated : Prop :=
  (∀ (s u : State) (k : Nat), s.ReadyFor .senc .enc → s.hostWords = [] → runSteps k s = .next u → u.halt = true →
    u.cause = .range ∧ u.seq = 0 ∧ s.params.aMax < s.leafSum) ∧
  (∀ (s u : State) (t : Word) (k : Nat), s.ReadyFor (.sdec t) .dec → s.hostWords = [] → runSteps k s = .next u →
    u.halt = true →
      (u.cause = .range ∧ u.seq = 0 ∧ s.params.aMax < t.toNat) ∨ (u.cause = .sym ∧ t.toNat ≤ s.params.aMax))

/-- 42_shell_sequencer.md R129, the round trip: encode 16 pulses of total `T` at most `A_MAX`, then decode from `T` against
a coder that answers the recorded symbols in order: the decode requests equal the encode requests in number, order, `lvl`,
`amp` and `off`, the 16 pulses come back, and so does every other level. -/
def Obligations.DecodeAfterEncodeGivesThePulsesBack : Prop :=
  ∀ s : State, s.ReadyFor .senc .enc → s.leafSum ≤ s.params.aMax → 15 ≤ s.coderResponses.length →
    ∃ n t, n ≤ 31 ∧ runSteps n s = .next t ∧ t.commandDone = true ∧
      ∀ (d : State) (total : Word) (rest : List EcResponse),
        d.params = s.params → total.toNat = s.leafSum → d.ReadyFor (.sdec total) .dec →
        d.coderResponses = (requestsOf (eventsSince s t)).map (fun r => ⟨r.sym⟩) ++ rest →
          ∃ m u, m ≤ 31 ∧ runSteps m d = .next u ∧ u.commandDone = true ∧ u.coderResponses = rest ∧
            (requestsOf (eventsSince d u)).map EcRequest.rowName =
              (requestsOf (eventsSince s t)).map EcRequest.rowName ∧
            (∀ i, u.pulse 0 i = s.pulse 0 i) ∧ u.pulses = t.pulses

/-! ## The wrapper -/

/-- 43_coder_wrapper.md R141: `FBEG dir` opens a frame of direction `dir`, or raises `MODE` where one is open. -/
def Obligations.FrameBeginOpensAFrame : Prop :=
  ∀ (s : State) (dir : Dir),
    encode (.fbeg dir) = 0xA000000#28 ++ 0#3 ++ dir.bit ∧
    (s.halt = false →
      (s.frame = false → exec (.fbeg dir) s = .next ({ s with frame := true, fdir := dir }.endsWith 0)) ∧
      (s.frame = true → exec (.fbeg dir) s = .next (s.haltsWith .mode 0x20000000)))

/-- 43_coder_wrapper.md R142: `FEND` closes the frame, or raises `MODE` where none is open. -/
def Obligations.FrameEndClosesTheFrame : Prop :=
  encode .fend = 0xB0000000 ∧
  ∀ s : State, s.halt = false →
    (s.frame = true → exec .fend s = .next ({ s with frame := false, fdir := .enc }.endsWith 0)) ∧
    (s.frame = false → exec .fend s = .next (s.haltsWith .mode 0x20000000))

/-- 43_coder_wrapper.md R143: under the invariant, a step that sends a request sends one, sets `PEND` in that step, none
was pending, the block is not halted, a frame is open, and every field is as the rule gives it. -/
def Obligations.EveryRequestIsLawful : Prop :=
  ∀ (s t : State) (r : EcRequest), s.Inv → step s = .next t → r ∈ requestsOf (eventsSince s t) →
    requestsOf (eventsSince s t) = [r] ∧ s.pend = false ∧ t.pend = true ∧ s.halt = false ∧ t.halt = false ∧
    s.frame = true ∧ r.dir = s.fdir ∧
    (∃ j, isNode r.lvl j = true ∧ r.amp = s.pulse (r.lvl + 1) j ∧ (r.dir = .enc → r.sym = s.pulse r.lvl (2 * j))) ∧
    1 ≤ r.amp.toNat ∧ r.amp.toNat ≤ s.params.aMax ∧ s.params.aMax < 2 ^ s.params.ampBits ∧
    r.off = s.params.tblOff r.lvl r.amp.toNat ∧ r.sym.toNat ≤ r.amp.toNat ∧ (r.dir = .dec → r.sym = 0) ∧
    r.prec = 8 ∧ r.row = s.params.row r.lvl r.amp.toNat

/-- 43_coder_wrapper.md R145: the pins `ec_own` and `ec_dir` show `FRAME` and `FDIR`, and change only in `FBEG`, `FEND` and
reset. -/
def Obligations.CoderPinsChangeOnlyByFrameCommands : Prop :=
  (∀ s : State, s.ecOwn = s.frame ∧ s.ecDir = s.fdir) ∧
  ∀ s t : State, step s = .next t → (t.ecOwn ≠ s.ecOwn ∨ t.ecDir ≠ s.ecDir) →
    s.turn = .reset ∨ s.turn = .core ∧ (s.command = some .fend ∨ ∃ dir, s.command = some (.fbeg dir))

/-! ## Tables -/

/-- 20_memory.md R52, R53, R54: in a lawful configuration, for every amplitude from 1 to `A_MAX`, `TblOff` is the listed
entry of the offset ROM and fits `OFF_BITS` bits, the row lies inside the array, each byte of it is the listed byte at its
address, and it is `a + 1` strictly decreasing bytes that end in 0. -/
def Obligations.LawfulRowsAreStrictlyDecreasing : Prop :=
  ∀ (p : Params) (l a : Nat), p.lawful = true → l < 4 → 1 ≤ a → a ≤ p.aMax →
    (p.table l).off[a]? = some (p.tblOff l a) ∧ p.tblOff l a < 2 ^ p.offBits ∧
    p.tblOff l a + a < (p.table l).cdfSize ∧ (p.table l).cdfSize ≤ 2 ^ p.offBits ∧
    (∀ i, i ≤ a → (p.table l).cdf.read (p.tblOff l a + i) = (p.row l a)[i]?) ∧
    (p.row l a).length = a + 1 ∧ (p.row l a).Pairwise (fun x y => y < x) ∧ (p.row l a).getLast? = some 0

/-- 20_memory.md R50, R52, 00_scope.md R8, R9, R11: a configuration is lawful exactly where its parameters are in bounds, the
storage of each table has the shape they give it, in canonical form (log 4), and the four constraints hold of the row of
every amplitude from 1 to `A_MAX`; nothing else is asked of the contents. -/
def Obligations.LawfulExactlyUnderTheConstraints : Prop :=
  ∀ p : Params, p.lawful = true ↔
    (1 ≤ p.ampBits ∧ p.ampBits ≤ 12 ∧ 1 ≤ p.aMax ∧ p.aMax ≤ 255 ∧ p.aMax < 2 ^ p.ampBits) ∧
    ∀ l, l < 4 → (p.table l).ShapedBy p ∧
      ∀ a, 1 ≤ a → a ≤ p.aMax → ∃ o row, (p.table l).RowAt a o row

/-- 20_memory.md R58: a malformed configuration is refused at the boundary, and a lawful one is loaded and changes nothing
else. -/
def Obligations.MalformedConfigurationIsRefused : Prop :=
  ∀ (p : Params) (s : State),
    (p.lawful = false → configure p s = .refused .malformedConfiguration) ∧
    (p.lawful = true → configure p s = .next { s with params := p })

/-- 20_memory.md R56: while a request is pending, the row read port gives at each index up to `amp` the byte of the row that
the request denotes. -/
def Obligations.RowPortGivesTheRow : Prop :=
  ∀ (s : State) (p : PendingSplit) (i : Nat), s.pend = true → s.pendingSplit = some p →
    i ≤ (s.parent p.node).toNat →
      s.ecCdfByte i = (s.params.row p.node.lvl (s.parent p.node).toNat)[i]?

/-! ## Faults, halt, modes -/

/-- 60_exceptions.md R174: `MODE` is raised in the first micro-step of each of the six commands whenever the frame state is
wrong, whatever the registers hold, and nothing is written or sent. -/
def Obligations.WrongFrameTakesMode : Prop :=
  ∀ (s : State) (i : Instr), s.halt = false → i.wellFormed s.params.ampBits = true →
    ((∃ l j, i = .espl l j) ∨ (i = .senc ∧ s.op = .idle)) ∧ ¬ (s.frame = true ∧ s.fdir = .enc) ∨
    ((∃ l j, i = .dspl l j) ∨ ((∃ t, i = .sdec t) ∧ s.op = .idle)) ∧ ¬ (s.frame = true ∧ s.fdir = .dec) ∨
    (∃ dir, i = .fbeg dir) ∧ s.frame = true ∨
    i = .fend ∧ s.frame = false →
      exec i s = .next (s.haltsWith .mode 0x20000000)

/-- 60_exceptions.md R180: while halted a legal `NOP`, `RD` or `RDS` runs with `RC = 0`; every other word, legal or
illegal, changes nothing and gets the recorded cause. -/
def Obligations.HaltedBlockAnswersTheRecordedCause : Prop :=
  ∀ (s : State) (w : CommandWord), s.halt = true → s.turn = .core → s.pend = false → s.cur = some w →
    (decode s.params.ampBits w = .ok .nop → step s = .next (s.popTurn.endsWith 0)) ∧
    (∀ k i, decode s.params.ampBits w = .ok (.rd k i) →
      step s = .next (s.popTurn.endsWith (0#16 ++ s.pulse k.toNat i.toNat))) ∧
    (decode s.params.ampBits w = .ok .rds → step s = .next (s.popTurn.endsWith (0#16 ++ s.status))) ∧
    (decode s.params.ampBits w ≠ .ok .nop → (∀ k i, decode s.params.ampBits w ≠ .ok (.rd k i)) →
      decode s.params.ampBits w ≠ .ok .rds →
        step s = .next (s.popTurn.endsWith (s.cause.code.setWidth 4 ++ 0#28)))

/-- 60_exceptions.md R172: the step that halts the block records a cause, clears `PEND`, ends the command with the cause as
`RC` and data 0, sends no request, and leaves `SEQ`, `OP`, `FRAME`, `FDIR` and every pulse register as they were. -/
def Obligations.FaultEntryRecordsTheCauseAndNothingElse : Prop :=
  ∀ s t : State, s.halt = false → step s = .next t → t.halt = true →
    t.cause ≠ .noFault ∧ t.pend = false ∧ t.cur = none ∧
    responsesOf (eventsSince s t) = [t.cause.code.setWidth 4 ++ 0#28] ∧ requestsOf (eventsSince s t) = [] ∧
    t.seq = s.seq ∧ t.op = s.op ∧ t.frame = s.frame ∧ t.fdir = s.fdir ∧ t.pulses = s.pulses

/-- 60_exceptions.md R181: only a reset step clears `HALT` or changes `CAUSE` of a halted block. -/
def Obligations.OnlyResetLeavesTheHaltedState : Prop :=
  ∀ s t : State, s.halt = true → s.pend = false → step s = .next t → s.turn ≠ .reset →
    t.halt = true ∧ t.cause = s.cause ∧ t.pulses = s.pulses ∧ t.seq = s.seq ∧ t.op = s.op ∧
      t.frame = s.frame ∧ t.fdir = s.fdir ∧ requestsOf (eventsSince s t) = []

/-- 10_state.md R21: the pulse registers change only by `WR`, `CMB`, `CMBT`, `SENC`, `DSPL`, `SDEC` and reset. -/
def Obligations.OnlyTheirWritersChangePulses : Prop :=
  ∀ s t : State, step s = .next t → t.pulses ≠ s.pulses →
    s.turn = .reset ∨
    s.turn = .core ∧ ((∃ k i v, s.command = some (.wr k i v)) ∨ (∃ k, s.command = some (.cmb k)) ∨
      s.command = some .cmbt ∨ s.command = some .senc ∨ (∃ l j, s.command = some (.dspl l j)) ∨
      ∃ x, s.command = some (.sdec x)) ∨
    s.turn = .coder ∧ ((∃ l j, s.command = some (.dspl l j)) ∨ ∃ x, s.command = some (.sdec x))

/-- 10_state.md R26: `SEQ` and `OP` change only by `SENC`, `SDEC` and reset. -/
def Obligations.OnlyMacrosChangeTheSequencer : Prop :=
  ∀ s t : State, step s = .next t → (t.seq ≠ s.seq ∨ t.op ≠ s.op) →
    s.turn = .reset ∨ s.command = some .senc ∨ ∃ x, s.command = some (.sdec x)

/-- The stops of the model (log 15): `SENC` where `OP == DEC`, `SDEC` where `OP == ENC`, and a pending request that no split
command owns. The spec gives such states no meaning. -/
def Obligations.UnreachableStatesStopByName : Prop :=
  (∀ s : State, s.halt = false → s.op = .dec → exec .senc s = .fault .macroMismatch) ∧
  (∀ (s : State) (t : Word), s.halt = false → (Instr.sdec t).wellFormed s.params.ampBits = true → s.op = .enc →
    exec (.sdec t) s = .fault .macroMismatch) ∧
  (∀ (s : State) (r : EcResponse) (rs : List EcResponse), s.turn = .coder → s.pend = true → s.pendingSplit = none →
    s.coderResponses = r :: rs → step s = .fault .strayRequest)

/-- A command whose operands are out of range is an illegal word (log 13): `exec` raises `ILL`, or answers the recorded
cause while halted. -/
def Obligations.IllFormedCommandTakesIll : Prop :=
  ∀ (s : State) (i : Instr), i.wellFormed s.params.ampBits = false →
    (s.halt = false → exec i s = .next (s.haltsWith .ill 0x10000000)) ∧
    (s.halt = true → exec i s = .next (s.endsWith (s.cause.code.setWidth 4 ++ 0#28)))

/-! ## The invariant -/

/-- The invariant holds after reset, and so does that of a running macro command. -/
def Obligations.ResetMeetsTheInvariant : Prop := State.reset.Inv ∧ State.reset.MacroInv

/-- The invariant (10_state.md R20, R24 to R28, R32) is kept by every step, whatever the host issues, the coder answers and
the schedule says, resets among it. -/
def Obligations.StepKeepsTheInvariant : Prop :=
  ∀ s t : State, s.Inv → step s = .next t → t.Inv

/-- 42_shell_sequencer.md R126, R127: every step keeps the invariant of a running macro command: the sum invariant at every
node of the tree in `SENC` and at every node split so far in `SDEC`, the root within the tables past the first split, and no
fault but `RANGE` at `SEQ == 0` and, in `SDEC`, `SYM`. -/
def Obligations.StepKeepsTheMacroInvariant : Prop :=
  ∀ s t : State, s.MacroInv → step s = .next t → t.MacroInv

/-- 60_exceptions.md R170: under the invariant no step stops: every fault of the spec is a next state, and nothing else is
an exception. That a turn with nothing to do is a next state too is the model's choice (log 9), and the stops that the
invariant rules out are the model's own (log 15). -/
def Obligations.NoStepStopsUnderTheInvariant : Prop :=
  ∀ s : State, s.Inv → ∃ t, step s = .next t
end

