-- ==== Sys2Proof/Laws/Decode.lean ====
section
/-! SUPPORT. The laws of command words: the fields of a packed word, and the rows of the opcode map never overlap. -/

namespace Sys2Proof

/-! ## The fields of a packed word (30_encoding.md R70) -/

@[simp] theorem fieldOpc_packWord (o : BitVec 4) (l : BitVec 3) (i : BitVec 4) (m : Word) :
    fieldOpc (packWord o l i m) = o := by
  ext b hb
  simp only [fieldOpc, packWord, BitVec.getElem_extractLsb', BitVec.getLsbD_append]
  interval_cases b <;> simp [BitVec.getLsbD_eq_getElem]

@[simp] theorem fieldLvl_packWord (o : BitVec 4) (l : BitVec 3) (i : BitVec 4) (m : Word) :
    fieldLvl (packWord o l i m) = l := by
  ext b hb
  simp only [fieldLvl, packWord, BitVec.getElem_extractLsb', BitVec.getLsbD_append]
  interval_cases b <;> simp [BitVec.getLsbD_eq_getElem]

@[simp] theorem fieldIdx_packWord (o : BitVec 4) (l : BitVec 3) (i : BitVec 4) (m : Word) :
    fieldIdx (packWord o l i m) = i := by
  ext b hb
  simp only [fieldIdx, packWord, BitVec.getElem_extractLsb', BitVec.getLsbD_append]
  interval_cases b <;> simp [BitVec.getLsbD_eq_getElem]

@[simp] theorem fieldImm_packWord (o : BitVec 4) (l : BitVec 3) (i : BitVec 4) (m : Word) :
    fieldImm (packWord o l i m) = m := by
  ext b hb
  simp only [fieldImm, packWord, BitVec.getElem_extractLsb', BitVec.getLsbD_append]
  interval_cases b <;> simp [BitVec.getLsbD_eq_getElem]

/-- Each bit of a packed word stands in one field (30_encoding.md R70). -/
theorem packWord_getElem (o : BitVec 4) (l : BitVec 3) (i : BitVec 4) (m : Word) (b : Nat) (hb : b < 32) :
    (packWord o l i m)[b] =
      if b < 16 then m.getLsbD b else if b < 20 then false else if b < 24 then i.getLsbD (b - 20)
      else if b < 27 then l.getLsbD (b - 24) else if b < 28 then false else o.getLsbD (b - 28) := by
  rw [← BitVec.getLsbD_eq_getElem]
  simp only [packWord, BitVec.getLsbD_append]
  interval_cases b <;> simp

@[simp] theorem Dir.ofBit_bit (d : Dir) : Dir.ofBit d.bit = d := by cases d <;> rfl

/-! ## Well-formedness, as the ranges of 30_encoding.md R71 -/

theorem Instr.wellFormed_wr_iff (n : Nat) (k : BitVec 3) (i : BitVec 4) (v : Word) :
    (Instr.wr k i v).wellFormed n = true ↔
      k.toNat ≤ 4 ∧ i.toNat < 16 >>> k.toNat ∧ v.toNat < 2 ^ (n + k.toNat) := by
  simp only [Instr.wellFormed, isRegister, Bool.and_eq_true, decide_eq_true_eq, and_assoc]
  exact Iff.rfl

theorem Instr.wellFormed_rd_iff (n : Nat) (k : BitVec 3) (i : BitVec 4) :
    (Instr.rd k i).wellFormed n = true ↔ k.toNat ≤ 4 ∧ i.toNat < 16 >>> k.toNat := by
  simp only [Instr.wellFormed, isRegister, Bool.and_eq_true, decide_eq_true_eq]
  exact Iff.rfl

theorem Instr.wellFormed_cmb_iff (n : Nat) (k : BitVec 3) :
    (Instr.cmb k).wellFormed n = true ↔ 1 ≤ k.toNat ∧ k.toNat ≤ 4 := by
  simp only [Instr.wellFormed, Bool.and_eq_true, decide_eq_true_eq]

theorem Instr.wellFormed_espl_iff (n : Nat) (l : BitVec 3) (j : BitVec 4) :
    (Instr.espl l j).wellFormed n = true ↔ l.toNat ≤ 3 ∧ j.toNat < 8 >>> l.toNat := by
  simp only [Instr.wellFormed, isNode, Bool.and_eq_true, decide_eq_true_eq]
  exact Iff.rfl

theorem Instr.wellFormed_dspl_iff (n : Nat) (l : BitVec 3) (j : BitVec 4) :
    (Instr.dspl l j).wellFormed n = true ↔ l.toNat ≤ 3 ∧ j.toNat < 8 >>> l.toNat := by
  simp only [Instr.wellFormed, isNode, Bool.and_eq_true, decide_eq_true_eq]
  exact Iff.rfl

theorem Instr.wellFormed_sdec_iff (n : Nat) (t : Word) :
    (Instr.sdec t).wellFormed n = true ↔ t.toNat < 2 ^ (n + 4) := by
  simp only [Instr.wellFormed, decide_eq_true_eq]

/-! ## The opcode map (30_encoding.md R75) -/

/-- No word has the fixed bits of two rows: two rows differ in a bit that both fix. -/
theorem opcodeMap_rows_disjoint :
    opcodeMap.Pairwise fun r q => r.mask &&& q.mask &&& (r.bits ^^^ q.bits) ≠ 0 := by decide

/-- Every row fixes the whole opcode, and its fixed bits lie in its mask. -/
theorem opcodeMap_rows_fix_opcode :
    opcodeMap.all (fun r => r.mask &&& 0xF0000000 == 0xF0000000 && r.bits &&& r.mask == r.bits) = true := by decide

/-- The row of every command is a row of the map. -/
theorem row_mem_opcodeMap (i : Instr) : i.row ∈ opcodeMap := by
  cases i <;> simp [Instr.row, opcodeMap]

end Sys2Proof
end

