-- ==== Sys2Proof/Laws/Memory.lean ====
section
/-! SUPPORT. The laws of the ROM memories: every operation keeps the canonical form, and a read after a placed byte. -/

namespace Sys2Proof.Machine

@[simp] theorem Memory.wf_nil : Memory.wf [] = true := rfl

@[simp] theorem Memory.wf_single (c : Host.Cell) : Memory.wf [c] = true := rfl

@[simp] theorem Memory.wf_cons_cons (c d : Host.Cell) (m : Memory) :
    Memory.wf (c :: d :: m) = true ↔ c.1 < d.1 ∧ Memory.wf (d :: m) = true := by
  simp [Memory.wf]

theorem Memory.wf_tail {c : Host.Cell} {m : Memory} (h : Memory.wf (c :: m) = true) : Memory.wf m = true := by
  cases m with
  | nil => rfl
  | cons d m => exact ((wf_cons_cons c d m).mp h).2

/-- Placing a byte at or below every listed address keeps the order of what follows. -/
theorem Memory.wf_cons_place {c : Host.Cell} {m : Memory} {a : Nat} {b : Byte} (hc : c.1 < a)
    (hm : Memory.wf (c :: m) = true) (hp : Memory.wf (m.place a b) = true) :
    Memory.wf (c :: m.place a b) = true := by
  cases m with
  | nil => simpa [Memory.place] using hc
  | cons d m =>
    have hcd := ((wf_cons_cons c d m).mp hm).1
    simp only [Memory.place] at hp ⊢
    split_ifs at hp ⊢ with h1 h2
    · exact (wf_cons_cons _ _ _).mpr ⟨hc, hp⟩
    · exact (wf_cons_cons _ _ _).mpr ⟨hc, hp⟩
    · exact (wf_cons_cons _ _ _).mpr ⟨hcd, hp⟩

/-- Placing a byte keeps the canonical form. -/
theorem Memory.place_wf {m : Memory} (a : Nat) (b : Byte) (h : m.wf = true) : (m.place a b).wf = true := by
  induction m with
  | nil => rfl
  | cons c m ih =>
    have hp := ih (Memory.wf_tail h)
    unfold Memory.place
    split <;> rename_i h1
    · exact (wf_cons_cons _ _ _).mpr ⟨h1, h⟩
    · split <;> rename_i h2
      · cases m with
        | nil => rfl
        | cons d m =>
          rw [wf_cons_cons] at h ⊢
          exact ⟨by simpa [h2] using h.1, h.2⟩
      · exact Memory.wf_cons_place (by omega) h hp

/-- A ROM image is in canonical form. -/
theorem Memory.image_wf (a : Nat) (bs : List Byte) : (Memory.image a bs).wf = true := by
  induction bs generalizing a with
  | nil => rfl
  | cons b bs ih =>
    cases bs with
    | nil => rfl
    | cons d bs =>
      have := ih (a + 1)
      simp only [Memory.image] at this ⊢
      exact (wf_cons_cons _ _ _).mpr ⟨Nat.lt_succ_self a, this⟩

/-- A placed byte is read back. -/
theorem Memory.read_place_same (m : Memory) (a : Nat) (b : Byte) : (m.place a b).read a = some b := by
  induction m with
  | nil => simp [Memory.place, Memory.read]
  | cons c m ih =>
    unfold Memory.place
    split
    · simp [Memory.read]
    · split
      · simp [Memory.read]
      · simp only [Memory.read]; rw [if_neg (by omega)]; exact ih

/-- A placed byte leaves every other address alone. -/
theorem Memory.read_place_other (m : Memory) {a a' : Nat} (b : Byte) (h : a' ≠ a) :
    (m.place a b).read a' = m.read a' := by
  induction m with
  | nil => simp [Memory.place, Memory.read, Ne.symm h]
  | cons c m ih =>
    unfold Memory.place
    split
    · simp [Memory.read, Ne.symm h]
    · split <;> rename_i h2
      · simp [Memory.read, Ne.symm h, h2 ▸ Ne.symm h]
      · simp only [Memory.read, ih]

/-- A ROM image holds its bytes from its first address on, and nothing else. -/
theorem Memory.read_image (a : Nat) (bs : List Byte) (i : Nat) : (Memory.image a bs).read (a + i) = bs[i]? := by
  induction bs generalizing a i with
  | nil => simp [Memory.image, Memory.read]
  | cons b bs ih =>
    cases i with
    | zero => simp [Memory.image, Memory.read]
    | succ i =>
      have := ih (a + 1) i
      simp only [Memory.image, Memory.read, List.getElem?_cons_succ]
      rw [if_neg (by omega), ← this]; congr 1; omega

/-- The machine after reset lists no byte, which is canonical. -/
theorem State.reset_tables_wf (l : Nat) (hl : l < 4) :
    (State.reset.params.tables[l]).cdf.wf = true := by
  simp [State.reset, Params.unlisted]

end Sys2Proof.Machine
end

