-- ==== Sys2Proof/Laws/Pulses.lean ====
section
/-! SUPPORT. The laws of the pulse registers: the width of a written value, a read after a write, and what one adder row
and the whole tree leave in each register. -/

namespace Sys2Proof.Machine

/-! ## Widths -/

@[simp] theorem fit_toNat (w : Nat) (v : Word) : (fit w v).toNat = v.toNat % 2 ^ w := by
  have h1 : v.toNat % 2 ^ w ≤ v.toNat := Nat.mod_le _ _
  have h2 := v.isLt
  simp only [fit, BitVec.toNat_setWidth]
  exact Nat.mod_eq_of_lt (by omega)

theorem fit_lt (w : Nat) (v : Word) : (fit w v).toNat < 2 ^ w := by
  rw [fit_toNat]; exact Nat.mod_lt _ (Nat.two_pow_pos w)

/-- A value that is within the width is stored whole. -/
theorem fit_of_lt {w : Nat} {v : Word} (h : v.toNat < 2 ^ w) : fit w v = v :=
  BitVec.eq_of_toNat_eq (by rw [fit_toNat, Nat.mod_eq_of_lt h])

/-- The adder's sum of two values of `w` bits is exact in `w + 1` bits (00_scope.md R16). -/
theorem fit_add_toNat {w : Nat} {a b : Word} (hw : w < 16) (ha : a.toNat < 2 ^ w) (hb : b.toNat < 2 ^ w) :
    (fit (w + 1) (a + b)).toNat = a.toNat + b.toNat := by
  have hp : 2 ^ (w + 1) = 2 ^ w + 2 ^ w := by rw [pow_succ]; omega
  have h16 : 2 ^ (w + 1) ≤ 2 ^ 16 := Nat.pow_le_pow_right (by omega) (by omega)
  rw [fit_toNat, BitVec.toNat_add, Nat.mod_eq_of_lt (a := a.toNat + b.toNat) (by omega)]
  exact Nat.mod_eq_of_lt (by omega)

/-! ## Names of registers -/

theorem isRegister_iff (k i : Nat) : isRegister k i = true ↔ k ≤ 4 ∧ i < registersAt k := by
  simp [isRegister]

theorem isNode_iff (l j : Nat) : isNode l j = true ↔ l ≤ 3 ∧ j < nodesAt l := by
  simp [isNode]

/-- A level has one of the five numbers, each with its own count of registers (10_state.md R20). -/
theorem isRegister_cases {k i : Nat} (h : isRegister k i = true) :
    (k = 0 ∧ i < 16) ∨ (k = 1 ∧ i < 8) ∨ (k = 2 ∧ i < 4) ∨ (k = 3 ∧ i < 2) ∨ (k = 4 ∧ i < 1) := by
  obtain ⟨hk, hi⟩ := (isRegister_iff k i).mp h
  interval_cases k <;> simp [registersAt] at hi <;> omega

/-- A table level has one of the four numbers, each with its own count of nodes (41_split_codec.md R100). -/
theorem isNode_cases {l j : Nat} (h : isNode l j = true) :
    (l = 0 ∧ j < 8) ∨ (l = 1 ∧ j < 4) ∨ (l = 2 ∧ j < 2) ∨ (l = 3 ∧ j < 1) := by
  obtain ⟨hl, hj⟩ := (isNode_iff l j).mp h
  interval_cases l <;> simp [nodesAt] at hj <;> omega

/-- The parent and both children of a node are registers (41_split_codec.md R100). -/
theorem isNode_registers {l j : Nat} (h : isNode l j = true) :
    isRegister (l + 1) j = true ∧ isRegister l (2 * j) = true ∧ isRegister l (2 * j + 1) = true := by
  rcases isNode_cases h with ⟨rfl, hj⟩ | ⟨rfl, hj⟩ | ⟨rfl, hj⟩ | ⟨rfl, hj⟩ <;>
    simp only [isRegister_iff, registersAt] <;> refine ⟨⟨by omega, ?_⟩, ⟨by omega, ?_⟩, by omega, ?_⟩ <;>
    simp <;> omega

/-- Where `(k, i)` names no register the read gives 0. -/
theorem PulseFile.read_of_not_register (f : PulseFile) {k i : Nat} (h : isRegister k i = false) : f.read k i = 0 := by
  have h' : ¬ (k ≤ 4 ∧ i < registersAt k) := by rw [← isRegister_iff]; simp [h]
  unfold PulseFile.read
  split <;> simp [registersAt] at h' <;>
    first
      | rfl
      | (rw [Vector.getElem?_eq_none (by omega)]; rfl)

/-! ## Reads after writes -/

/-- A write is read back, cut to the register's width. -/
theorem PulseFile.read_write_same (n : Nat) (f : PulseFile) {k i : Nat} (v : Word) (h : isRegister k i = true) :
    (f.write n k i v).read k i = fit (n + k) v := by
  rcases isRegister_cases h with ⟨rfl, hi⟩ | ⟨rfl, hi⟩ | ⟨rfl, hi⟩ | ⟨rfl, hi⟩ | ⟨rfl, hi⟩ <;>
    simp [PulseFile.read, PulseFile.write, hi]

/-- A write leaves every other register alone. -/
theorem PulseFile.read_write_other (n : Nat) (f : PulseFile) {k i k' i' : Nat} (v : Word)
    (h : ¬ (k' = k ∧ i' = i)) : (f.write n k i v).read k' i' = f.read k' i' := by
  unfold PulseFile.write
  split <;> unfold PulseFile.read <;> split <;> first
    | rfl
    | (have : i ≠ i' := fun e => h ⟨rfl, e.symm⟩
       simp [this])

/-- A register that held a value within its width still does after a write (10_state.md R20). -/
theorem PulseFile.read_write_lt (n : Nat) (f : PulseFile) (k i : Nat) (v : Word)
    (h : ∀ k' i', (f.read k' i').toNat < 2 ^ (n + k')) (k' i' : Nat) :
    ((f.write n k i v).read k' i').toNat < 2 ^ (n + k') := by
  by_cases e : k' = k ∧ i' = i
  · obtain ⟨rfl, rfl⟩ := e
    cases hr : isRegister k' i' with
    | true => rw [read_write_same n f v hr]; exact fit_lt _ _
    | false => rw [read_of_not_register _ hr]; exact Nat.two_pow_pos _
  · rw [read_write_other n f v e]; exact h k' i'

/-! ## The adder tree -/

theorem combine_getElem {len : Nat} (w : Nat) (v : Vector Word (2 * len)) (i : Nat) (h : i < len) :
    (combine w v)[i] = fit w (v[2 * i] + v[2 * i + 1]) := by
  simp [combine]

/-- What one adder row leaves in its output register (40_combiner.md R92). -/
theorem PulseFile.read_combineLevel (n : Nat) (f : PulseFile) {k i : Nat} (hk : 1 ≤ k)
    (h : isRegister k i = true) :
    (f.combineLevel n k).read k i = fit (n + k) (f.read (k - 1) (2 * i) + f.read (k - 1) (2 * i + 1)) := by
  rcases isRegister_cases h with ⟨rfl, hi⟩ | ⟨rfl, hi⟩ | ⟨rfl, hi⟩ | ⟨rfl, hi⟩ | ⟨rfl, hi⟩
  · omega
  all_goals
    have h1 : 2 * i + 1 < 16 := by omega
    simp only [PulseFile.read, PulseFile.combineLevel]
    rw [Vector.getElem?_eq_getElem (by omega), Vector.getElem?_eq_getElem (by omega),
      Vector.getElem?_eq_getElem (by omega)]
    simp only [Option.getD_some]
    exact combine_getElem _ _ _ _

/-- One adder row touches no other level (40_combiner.md R92). -/
theorem PulseFile.read_combineLevel_other (n : Nat) (f : PulseFile) {k k' : Nat} (i : Nat) (h : k' ≠ k) :
    (f.combineLevel n k).read k' i = f.read k' i := by
  unfold PulseFile.combineLevel
  split <;> unfold PulseFile.read <;> split <;> first
    | rfl
    | exact absurd rfl h

/-- The whole tree is the four rows in ascending order (40_combiner.md R94). -/
theorem PulseFile.combineTree_eq (n : Nat) (f : PulseFile) :
    f.combineTree n =
      (((f.combineLevel n 1).combineLevel n 2).combineLevel n 3).combineLevel n 4 := rfl

/-- The whole tree leaves level 0 alone (40_combiner.md R93). -/
theorem PulseFile.read_combineTree_leaf (n : Nat) (f : PulseFile) (i : Nat) :
    (f.combineTree n).read 0 i = f.read 0 i := rfl

/-- What the whole tree leaves in a register of levels 1 to 4: the sum of the new values below it (40_combiner.md R93). -/
theorem PulseFile.read_combineTree (n : Nat) (f : PulseFile) {k i : Nat} (hk : 1 ≤ k)
    (h : isRegister k i = true) :
    (f.combineTree n).read k i =
      fit (n + k) ((f.combineTree n).read (k - 1) (2 * i) + (f.combineTree n).read (k - 1) (2 * i + 1)) := by
  have hk4 := ((isRegister_iff k i).mp h).1
  have key : k = 1 ∨ k = 2 ∨ k = 3 ∨ k = 4 := by omega
  rw [combineTree_eq]
  rcases key with rfl | rfl | rfl | rfl
  · simp only [read_combineLevel_other, ne_eq, Nat.reduceEqDiff, not_false_eq_true, Nat.reduceSub]
    exact read_combineLevel n f (by omega) h
  · simp only [read_combineLevel_other, ne_eq, Nat.reduceEqDiff, not_false_eq_true, Nat.reduceSub]
    exact read_combineLevel n _ (by omega) h
  · simp only [read_combineLevel_other, ne_eq, Nat.reduceEqDiff, not_false_eq_true, Nat.reduceSub]
    exact read_combineLevel n _ (by omega) h
  · simp only [read_combineLevel_other, ne_eq, Nat.reduceEqDiff, not_false_eq_true, Nat.reduceSub]
    exact read_combineLevel n _ (by omega) h

end Sys2Proof.Machine
end

