-- ==== Sys2Proof/Laws/State.lean ====
section
/-! SUPPORT. One lemma per field per named update of State, each true by rfl, so that no later proof unfolds a record update. -/

namespace Sys2Proof.Machine

variable (s : State)

/-! ## respond -/

@[simp] theorem State.respond_params (rc : BitVec 4) (d : Word) : (s.respond rc d).params = s.params := rfl
@[simp] theorem State.respond_pulses (rc : BitVec 4) (d : Word) : (s.respond rc d).pulses = s.pulses := rfl
@[simp] theorem State.respond_seq (rc : BitVec 4) (d : Word) : (s.respond rc d).seq = s.seq := rfl
@[simp] theorem State.respond_op (rc : BitVec 4) (d : Word) : (s.respond rc d).op = s.op := rfl
@[simp] theorem State.respond_frame (rc : BitVec 4) (d : Word) : (s.respond rc d).frame = s.frame := rfl
@[simp] theorem State.respond_fdir (rc : BitVec 4) (d : Word) : (s.respond rc d).fdir = s.fdir := rfl
@[simp] theorem State.respond_halt (rc : BitVec 4) (d : Word) : (s.respond rc d).halt = s.halt := rfl
@[simp] theorem State.respond_cause (rc : BitVec 4) (d : Word) : (s.respond rc d).cause = s.cause := rfl
@[simp] theorem State.respond_cur (rc : BitVec 4) (d : Word) : (s.respond rc d).cur = none := rfl
@[simp] theorem State.respond_pend (rc : BitVec 4) (d : Word) : (s.respond rc d).pend = s.pend := rfl
@[simp] theorem State.respond_hostWords (rc : BitVec 4) (d : Word) : (s.respond rc d).hostWords = s.hostWords := rfl
@[simp] theorem State.respond_coderResponses (rc : BitVec 4) (d : Word) :
    (s.respond rc d).coderResponses = s.coderResponses := rfl
@[simp] theorem State.respond_untaken (rc : BitVec 4) (d : Word) :
    (s.respond rc d).untaken = s.untaken ++ [responseWord rc d] := rfl
@[simp] theorem State.respond_schedule (rc : BitVec 4) (d : Word) : (s.respond rc d).schedule = s.schedule := rfl
@[simp] theorem State.respond_trace (rc : BitVec 4) (d : Word) :
    (s.respond rc d).trace = s.trace ++ [.respond (responseWord rc d)] := rfl
@[simp] theorem State.respond_pulse (rc : BitVec 4) (d : Word) (k' i' : Nat) : (s.respond rc d).pulse k' i' = s.pulse k' i' := rfl

/-! ## done -/

@[simp] theorem State.done_params : (s.done).params = s.params := rfl
@[simp] theorem State.done_pulses : (s.done).pulses = s.pulses := rfl
@[simp] theorem State.done_seq : (s.done).seq = s.seq := rfl
@[simp] theorem State.done_op : (s.done).op = s.op := rfl
@[simp] theorem State.done_frame : (s.done).frame = s.frame := rfl
@[simp] theorem State.done_fdir : (s.done).fdir = s.fdir := rfl
@[simp] theorem State.done_halt : (s.done).halt = s.halt := rfl
@[simp] theorem State.done_cause : (s.done).cause = s.cause := rfl
@[simp] theorem State.done_cur : (s.done).cur = none := rfl
@[simp] theorem State.done_pend : (s.done).pend = s.pend := rfl
@[simp] theorem State.done_hostWords : (s.done).hostWords = s.hostWords := rfl
@[simp] theorem State.done_coderResponses : (s.done).coderResponses = s.coderResponses := rfl
@[simp] theorem State.done_untaken :
    (s.done).untaken = s.untaken ++ [responseWord 0 0] := rfl
@[simp] theorem State.done_schedule : (s.done).schedule = s.schedule := rfl
@[simp] theorem State.done_trace : (s.done).trace = s.trace ++ [.respond (responseWord 0 0)] := rfl
@[simp] theorem State.done_pulse (k' i' : Nat) : (s.done).pulse k' i' = s.pulse k' i' := rfl

/-! ## takeFault -/

@[simp] theorem State.takeFault_params (c : Cause) : (s.takeFault c).params = s.params := rfl
@[simp] theorem State.takeFault_pulses (c : Cause) : (s.takeFault c).pulses = s.pulses := rfl
@[simp] theorem State.takeFault_seq (c : Cause) : (s.takeFault c).seq = s.seq := rfl
@[simp] theorem State.takeFault_op (c : Cause) : (s.takeFault c).op = s.op := rfl
@[simp] theorem State.takeFault_frame (c : Cause) : (s.takeFault c).frame = s.frame := rfl
@[simp] theorem State.takeFault_fdir (c : Cause) : (s.takeFault c).fdir = s.fdir := rfl
@[simp] theorem State.takeFault_halt (c : Cause) : (s.takeFault c).halt = true := rfl
@[simp] theorem State.takeFault_cause (c : Cause) : (s.takeFault c).cause = c := rfl
@[simp] theorem State.takeFault_cur (c : Cause) : (s.takeFault c).cur = none := rfl
@[simp] theorem State.takeFault_pend (c : Cause) : (s.takeFault c).pend = false := rfl
@[simp] theorem State.takeFault_hostWords (c : Cause) : (s.takeFault c).hostWords = s.hostWords := rfl
@[simp] theorem State.takeFault_coderResponses (c : Cause) : (s.takeFault c).coderResponses = s.coderResponses := rfl
@[simp] theorem State.takeFault_untaken (c : Cause) :
    (s.takeFault c).untaken = s.untaken ++ [responseWord (c.code.setWidth 4) 0] := rfl
@[simp] theorem State.takeFault_schedule (c : Cause) : (s.takeFault c).schedule = s.schedule := rfl
@[simp] theorem State.takeFault_trace (c : Cause) :
    (s.takeFault c).trace = s.trace ++ [.respond (responseWord (c.code.setWidth 4) 0)] := rfl
@[simp] theorem State.takeFault_pulse (c : Cause) (k' i' : Nat) : (s.takeFault c).pulse k' i' = s.pulse k' i' := rfl

/-! ## refuseHalted -/

@[simp] theorem State.refuseHalted_params : (s.refuseHalted).params = s.params := rfl
@[simp] theorem State.refuseHalted_pulses : (s.refuseHalted).pulses = s.pulses := rfl
@[simp] theorem State.refuseHalted_seq : (s.refuseHalted).seq = s.seq := rfl
@[simp] theorem State.refuseHalted_op : (s.refuseHalted).op = s.op := rfl
@[simp] theorem State.refuseHalted_frame : (s.refuseHalted).frame = s.frame := rfl
@[simp] theorem State.refuseHalted_fdir : (s.refuseHalted).fdir = s.fdir := rfl
@[simp] theorem State.refuseHalted_halt : (s.refuseHalted).halt = s.halt := rfl
@[simp] theorem State.refuseHalted_cause : (s.refuseHalted).cause = s.cause := rfl
@[simp] theorem State.refuseHalted_cur : (s.refuseHalted).cur = none := rfl
@[simp] theorem State.refuseHalted_pend : (s.refuseHalted).pend = s.pend := rfl
@[simp] theorem State.refuseHalted_hostWords : (s.refuseHalted).hostWords = s.hostWords := rfl
@[simp] theorem State.refuseHalted_coderResponses : (s.refuseHalted).coderResponses = s.coderResponses := rfl
@[simp] theorem State.refuseHalted_untaken :
    (s.refuseHalted).untaken = s.untaken ++ [responseWord (s.cause.code.setWidth 4) 0] := rfl
@[simp] theorem State.refuseHalted_schedule : (s.refuseHalted).schedule = s.schedule := rfl
@[simp] theorem State.refuseHalted_trace :
    (s.refuseHalted).trace = s.trace ++ [.respond (responseWord (s.cause.code.setWidth 4) 0)] := rfl
@[simp] theorem State.refuseHalted_pulse (k' i' : Nat) : (s.refuseHalted).pulse k' i' = s.pulse k' i' := rfl

/-! ## writePulse -/

@[simp] theorem State.writePulse_params (k i : Nat) (v : Word) : (s.writePulse k i v).params = s.params := rfl
@[simp] theorem State.writePulse_pulses (k i : Nat) (v : Word) :
    (s.writePulse k i v).pulses = s.pulses.write s.params.ampBits k i v := rfl
@[simp] theorem State.writePulse_seq (k i : Nat) (v : Word) : (s.writePulse k i v).seq = s.seq := rfl
@[simp] theorem State.writePulse_op (k i : Nat) (v : Word) : (s.writePulse k i v).op = s.op := rfl
@[simp] theorem State.writePulse_frame (k i : Nat) (v : Word) : (s.writePulse k i v).frame = s.frame := rfl
@[simp] theorem State.writePulse_fdir (k i : Nat) (v : Word) : (s.writePulse k i v).fdir = s.fdir := rfl
@[simp] theorem State.writePulse_halt (k i : Nat) (v : Word) : (s.writePulse k i v).halt = s.halt := rfl
@[simp] theorem State.writePulse_cause (k i : Nat) (v : Word) : (s.writePulse k i v).cause = s.cause := rfl
@[simp] theorem State.writePulse_cur (k i : Nat) (v : Word) : (s.writePulse k i v).cur = s.cur := rfl
@[simp] theorem State.writePulse_pend (k i : Nat) (v : Word) : (s.writePulse k i v).pend = s.pend := rfl
@[simp] theorem State.writePulse_hostWords (k i : Nat) (v : Word) :
    (s.writePulse k i v).hostWords = s.hostWords := rfl
@[simp] theorem State.writePulse_coderResponses (k i : Nat) (v : Word) :
    (s.writePulse k i v).coderResponses = s.coderResponses := rfl
@[simp] theorem State.writePulse_untaken (k i : Nat) (v : Word) :
    (s.writePulse k i v).untaken = s.untaken := rfl
@[simp] theorem State.writePulse_schedule (k i : Nat) (v : Word) : (s.writePulse k i v).schedule = s.schedule := rfl
@[simp] theorem State.writePulse_trace (k i : Nat) (v : Word) : (s.writePulse k i v).trace = s.trace := rfl

/-! ## writeChildren -/

@[simp] theorem State.writeChildren_params (nd : Node) (a b : Word) :
    (s.writeChildren nd a b).params = s.params := rfl
@[simp] theorem State.writeChildren_pulses (nd : Node) (a b : Word) :
    (s.writeChildren nd a b).pulses = (s.pulses.write s.params.ampBits nd.lvl (2 * nd.idx) a).write s.params.ampBits nd.lvl (2 * nd.idx + 1) b := rfl
@[simp] theorem State.writeChildren_seq (nd : Node) (a b : Word) : (s.writeChildren nd a b).seq = s.seq := rfl
@[simp] theorem State.writeChildren_op (nd : Node) (a b : Word) : (s.writeChildren nd a b).op = s.op := rfl
@[simp] theorem State.writeChildren_frame (nd : Node) (a b : Word) : (s.writeChildren nd a b).frame = s.frame := rfl
@[simp] theorem State.writeChildren_fdir (nd : Node) (a b : Word) : (s.writeChildren nd a b).fdir = s.fdir := rfl
@[simp] theorem State.writeChildren_halt (nd : Node) (a b : Word) : (s.writeChildren nd a b).halt = s.halt := rfl
@[simp] theorem State.writeChildren_cause (nd : Node) (a b : Word) : (s.writeChildren nd a b).cause = s.cause := rfl
@[simp] theorem State.writeChildren_cur (nd : Node) (a b : Word) : (s.writeChildren nd a b).cur = s.cur := rfl
@[simp] theorem State.writeChildren_pend (nd : Node) (a b : Word) : (s.writeChildren nd a b).pend = s.pend := rfl
@[simp] theorem State.writeChildren_hostWords (nd : Node) (a b : Word) :
    (s.writeChildren nd a b).hostWords = s.hostWords := rfl
@[simp] theorem State.writeChildren_coderResponses (nd : Node) (a b : Word) :
    (s.writeChildren nd a b).coderResponses = s.coderResponses := rfl
@[simp] theorem State.writeChildren_untaken (nd : Node) (a b : Word) :
    (s.writeChildren nd a b).untaken = s.untaken := rfl
@[simp] theorem State.writeChildren_schedule (nd : Node) (a b : Word) :
    (s.writeChildren nd a b).schedule = s.schedule := rfl
@[simp] theorem State.writeChildren_trace (nd : Node) (a b : Word) : (s.writeChildren nd a b).trace = s.trace := rfl

/-! ## combineLevel -/

@[simp] theorem State.combineLevel_params (k : Nat) : (s.combineLevel k).params = s.params := rfl
@[simp] theorem State.combineLevel_pulses (k : Nat) :
    (s.combineLevel k).pulses = s.pulses.combineLevel s.params.ampBits k := rfl
@[simp] theorem State.combineLevel_seq (k : Nat) : (s.combineLevel k).seq = s.seq := rfl
@[simp] theorem State.combineLevel_op (k : Nat) : (s.combineLevel k).op = s.op := rfl
@[simp] theorem State.combineLevel_frame (k : Nat) : (s.combineLevel k).frame = s.frame := rfl
@[simp] theorem State.combineLevel_fdir (k : Nat) : (s.combineLevel k).fdir = s.fdir := rfl
@[simp] theorem State.combineLevel_halt (k : Nat) : (s.combineLevel k).halt = s.halt := rfl
@[simp] theorem State.combineLevel_cause (k : Nat) : (s.combineLevel k).cause = s.cause := rfl
@[simp] theorem State.combineLevel_cur (k : Nat) : (s.combineLevel k).cur = s.cur := rfl
@[simp] theorem State.combineLevel_pend (k : Nat) : (s.combineLevel k).pend = s.pend := rfl
@[simp] theorem State.combineLevel_hostWords (k : Nat) : (s.combineLevel k).hostWords = s.hostWords := rfl
@[simp] theorem State.combineLevel_coderResponses (k : Nat) :
    (s.combineLevel k).coderResponses = s.coderResponses := rfl
@[simp] theorem State.combineLevel_untaken (k : Nat) :
    (s.combineLevel k).untaken = s.untaken := rfl
@[simp] theorem State.combineLevel_schedule (k : Nat) : (s.combineLevel k).schedule = s.schedule := rfl
@[simp] theorem State.combineLevel_trace (k : Nat) : (s.combineLevel k).trace = s.trace := rfl

/-! ## combineTree -/

@[simp] theorem State.combineTree_params : (s.combineTree).params = s.params := rfl
@[simp] theorem State.combineTree_pulses : (s.combineTree).pulses = s.pulses.combineTree s.params.ampBits := rfl
@[simp] theorem State.combineTree_seq : (s.combineTree).seq = s.seq := rfl
@[simp] theorem State.combineTree_op : (s.combineTree).op = s.op := rfl
@[simp] theorem State.combineTree_frame : (s.combineTree).frame = s.frame := rfl
@[simp] theorem State.combineTree_fdir : (s.combineTree).fdir = s.fdir := rfl
@[simp] theorem State.combineTree_halt : (s.combineTree).halt = s.halt := rfl
@[simp] theorem State.combineTree_cause : (s.combineTree).cause = s.cause := rfl
@[simp] theorem State.combineTree_cur : (s.combineTree).cur = s.cur := rfl
@[simp] theorem State.combineTree_pend : (s.combineTree).pend = s.pend := rfl
@[simp] theorem State.combineTree_hostWords : (s.combineTree).hostWords = s.hostWords := rfl
@[simp] theorem State.combineTree_coderResponses : (s.combineTree).coderResponses = s.coderResponses := rfl
@[simp] theorem State.combineTree_untaken :
    (s.combineTree).untaken = s.untaken := rfl
@[simp] theorem State.combineTree_schedule : (s.combineTree).schedule = s.schedule := rfl
@[simp] theorem State.combineTree_trace : (s.combineTree).trace = s.trace := rfl

/-! ## sendRequest -/

@[simp] theorem State.sendRequest_params (r : EcRequest) : (s.sendRequest r).params = s.params := rfl
@[simp] theorem State.sendRequest_pulses (r : EcRequest) : (s.sendRequest r).pulses = s.pulses := rfl
@[simp] theorem State.sendRequest_seq (r : EcRequest) : (s.sendRequest r).seq = s.seq := rfl
@[simp] theorem State.sendRequest_op (r : EcRequest) : (s.sendRequest r).op = s.op := rfl
@[simp] theorem State.sendRequest_frame (r : EcRequest) : (s.sendRequest r).frame = s.frame := rfl
@[simp] theorem State.sendRequest_fdir (r : EcRequest) : (s.sendRequest r).fdir = s.fdir := rfl
@[simp] theorem State.sendRequest_halt (r : EcRequest) : (s.sendRequest r).halt = s.halt := rfl
@[simp] theorem State.sendRequest_cause (r : EcRequest) : (s.sendRequest r).cause = s.cause := rfl
@[simp] theorem State.sendRequest_cur (r : EcRequest) : (s.sendRequest r).cur = s.cur := rfl
@[simp] theorem State.sendRequest_pend (r : EcRequest) : (s.sendRequest r).pend = true := rfl
@[simp] theorem State.sendRequest_hostWords (r : EcRequest) : (s.sendRequest r).hostWords = s.hostWords := rfl
@[simp] theorem State.sendRequest_coderResponses (r : EcRequest) :
    (s.sendRequest r).coderResponses = s.coderResponses := rfl
@[simp] theorem State.sendRequest_untaken (r : EcRequest) :
    (s.sendRequest r).untaken = s.untaken := rfl
@[simp] theorem State.sendRequest_schedule (r : EcRequest) : (s.sendRequest r).schedule = s.schedule := rfl
@[simp] theorem State.sendRequest_trace (r : EcRequest) : (s.sendRequest r).trace = s.trace ++ [.request r] := rfl
@[simp] theorem State.sendRequest_pulse (r : EcRequest) (k' i' : Nat) : (s.sendRequest r).pulse k' i' = s.pulse k' i' := rfl

/-! ## resetBlock -/

@[simp] theorem State.resetBlock_params : (s.resetBlock).params = s.params := rfl
@[simp] theorem State.resetBlock_pulses : (s.resetBlock).pulses = PulseFile.zero := rfl
@[simp] theorem State.resetBlock_seq : (s.resetBlock).seq = 0 := rfl
@[simp] theorem State.resetBlock_op : (s.resetBlock).op = .idle := rfl
@[simp] theorem State.resetBlock_frame : (s.resetBlock).frame = false := rfl
@[simp] theorem State.resetBlock_fdir : (s.resetBlock).fdir = .enc := rfl
@[simp] theorem State.resetBlock_halt : (s.resetBlock).halt = false := rfl
@[simp] theorem State.resetBlock_cause : (s.resetBlock).cause = .noFault := rfl
@[simp] theorem State.resetBlock_cur : (s.resetBlock).cur = none := rfl
@[simp] theorem State.resetBlock_pend : (s.resetBlock).pend = false := rfl
@[simp] theorem State.resetBlock_hostWords : (s.resetBlock).hostWords = s.hostWords := rfl
@[simp] theorem State.resetBlock_coderResponses : (s.resetBlock).coderResponses = s.coderResponses := rfl
@[simp] theorem State.resetBlock_untaken :
    (s.resetBlock).untaken = s.untaken := rfl
@[simp] theorem State.resetBlock_schedule : (s.resetBlock).schedule = s.schedule := rfl
@[simp] theorem State.resetBlock_trace : (s.resetBlock).trace = s.trace ++ [.reset] := rfl

/-! ## accept -/

@[simp] theorem State.accept_params (w : CommandWord) : (s.accept w).params = s.params := rfl
@[simp] theorem State.accept_pulses (w : CommandWord) : (s.accept w).pulses = s.pulses := rfl
@[simp] theorem State.accept_seq (w : CommandWord) : (s.accept w).seq = s.seq := rfl
@[simp] theorem State.accept_op (w : CommandWord) : (s.accept w).op = s.op := rfl
@[simp] theorem State.accept_frame (w : CommandWord) : (s.accept w).frame = s.frame := rfl
@[simp] theorem State.accept_fdir (w : CommandWord) : (s.accept w).fdir = s.fdir := rfl
@[simp] theorem State.accept_halt (w : CommandWord) : (s.accept w).halt = s.halt := rfl
@[simp] theorem State.accept_cause (w : CommandWord) : (s.accept w).cause = s.cause := rfl
@[simp] theorem State.accept_cur (w : CommandWord) : (s.accept w).cur = some w := rfl
@[simp] theorem State.accept_pend (w : CommandWord) : (s.accept w).pend = s.pend := rfl
@[simp] theorem State.accept_hostWords (w : CommandWord) : (s.accept w).hostWords = s.hostWords := rfl
@[simp] theorem State.accept_coderResponses (w : CommandWord) : (s.accept w).coderResponses = s.coderResponses := rfl
@[simp] theorem State.accept_untaken (w : CommandWord) :
    (s.accept w).untaken = s.untaken := rfl
@[simp] theorem State.accept_schedule (w : CommandWord) : (s.accept w).schedule = s.schedule := rfl
@[simp] theorem State.accept_trace (w : CommandWord) : (s.accept w).trace = s.trace := rfl
@[simp] theorem State.accept_pulse (w : CommandWord) (k' i' : Nat) : (s.accept w).pulse k' i' = s.pulse k' i' := rfl

/-! ## popTurn -/

@[simp] theorem State.popTurn_params : (s.popTurn).params = s.params := rfl
@[simp] theorem State.popTurn_pulses : (s.popTurn).pulses = s.pulses := rfl
@[simp] theorem State.popTurn_seq : (s.popTurn).seq = s.seq := rfl
@[simp] theorem State.popTurn_op : (s.popTurn).op = s.op := rfl
@[simp] theorem State.popTurn_frame : (s.popTurn).frame = s.frame := rfl
@[simp] theorem State.popTurn_fdir : (s.popTurn).fdir = s.fdir := rfl
@[simp] theorem State.popTurn_halt : (s.popTurn).halt = s.halt := rfl
@[simp] theorem State.popTurn_cause : (s.popTurn).cause = s.cause := rfl
@[simp] theorem State.popTurn_cur : (s.popTurn).cur = s.cur := rfl
@[simp] theorem State.popTurn_pend : (s.popTurn).pend = s.pend := rfl
@[simp] theorem State.popTurn_hostWords : (s.popTurn).hostWords = s.hostWords := rfl
@[simp] theorem State.popTurn_coderResponses : (s.popTurn).coderResponses = s.coderResponses := rfl
@[simp] theorem State.popTurn_untaken :
    (s.popTurn).untaken = s.untaken := rfl
@[simp] theorem State.popTurn_schedule : (s.popTurn).schedule = s.schedule.tail := rfl
@[simp] theorem State.popTurn_trace : (s.popTurn).trace = s.trace := rfl
@[simp] theorem State.popTurn_pulse (k' i' : Nat) : (s.popTurn).pulse k' i' = s.pulse k' i' := rfl

/-! ## placeCommand -/

@[simp] theorem State.placeCommand_params (w : CommandWord) : (s.placeCommand w).params = s.params := rfl
@[simp] theorem State.placeCommand_pulses (w : CommandWord) : (s.placeCommand w).pulses = s.pulses := rfl
@[simp] theorem State.placeCommand_seq (w : CommandWord) : (s.placeCommand w).seq = s.seq := rfl
@[simp] theorem State.placeCommand_op (w : CommandWord) : (s.placeCommand w).op = s.op := rfl
@[simp] theorem State.placeCommand_frame (w : CommandWord) : (s.placeCommand w).frame = s.frame := rfl
@[simp] theorem State.placeCommand_fdir (w : CommandWord) : (s.placeCommand w).fdir = s.fdir := rfl
@[simp] theorem State.placeCommand_halt (w : CommandWord) : (s.placeCommand w).halt = s.halt := rfl
@[simp] theorem State.placeCommand_cause (w : CommandWord) : (s.placeCommand w).cause = s.cause := rfl
@[simp] theorem State.placeCommand_cur (w : CommandWord) : (s.placeCommand w).cur = some w := rfl
@[simp] theorem State.placeCommand_pend (w : CommandWord) : (s.placeCommand w).pend = false := rfl
@[simp] theorem State.placeCommand_hostWords (w : CommandWord) : (s.placeCommand w).hostWords = s.hostWords := rfl
@[simp] theorem State.placeCommand_coderResponses (w : CommandWord) :
    (s.placeCommand w).coderResponses = s.coderResponses := rfl
@[simp] theorem State.placeCommand_untaken (w : CommandWord) :
    (s.placeCommand w).untaken = s.untaken := rfl
@[simp] theorem State.placeCommand_schedule (w : CommandWord) : (s.placeCommand w).schedule = [] := rfl
@[simp] theorem State.placeCommand_trace (w : CommandWord) : (s.placeCommand w).trace = s.trace := rfl
@[simp] theorem State.placeCommand_pulse (w : CommandWord) (k' i' : Nat) : (s.placeCommand w).pulse k' i' = s.pulse k' i' := rfl

/-! ## advance and splitDone: what SplitDone leaves alone -/

@[simp] theorem State.advance_params : s.advance.params = s.params := by
  unfold State.advance; split <;> rfl
@[simp] theorem State.advance_pulses : s.advance.pulses = s.pulses := by
  unfold State.advance; split <;> rfl
@[simp] theorem State.advance_frame : s.advance.frame = s.frame := by
  unfold State.advance; split <;> rfl
@[simp] theorem State.advance_fdir : s.advance.fdir = s.fdir := by
  unfold State.advance; split <;> rfl
@[simp] theorem State.advance_halt : s.advance.halt = s.halt := by
  unfold State.advance; split <;> rfl
@[simp] theorem State.advance_cause : s.advance.cause = s.cause := by
  unfold State.advance; split <;> rfl
@[simp] theorem State.advance_pend : s.advance.pend = s.pend := by
  unfold State.advance; split <;> rfl
@[simp] theorem State.advance_hostWords : s.advance.hostWords = s.hostWords := by
  unfold State.advance; split <;> rfl
@[simp] theorem State.advance_coderResponses : s.advance.coderResponses = s.coderResponses := by
  unfold State.advance; split <;> rfl
@[simp] theorem State.advance_schedule : s.advance.schedule = s.schedule := by
  unfold State.advance; split <;> rfl
@[simp] theorem State.splitDone_params (m : Bool) : (s.splitDone m).params = s.params := by
  cases m <;> simp [State.splitDone]
@[simp] theorem State.splitDone_pulses (m : Bool) : (s.splitDone m).pulses = s.pulses := by
  cases m <;> simp [State.splitDone]
@[simp] theorem State.splitDone_frame (m : Bool) : (s.splitDone m).frame = s.frame := by
  cases m <;> simp [State.splitDone]
@[simp] theorem State.splitDone_fdir (m : Bool) : (s.splitDone m).fdir = s.fdir := by
  cases m <;> simp [State.splitDone]
@[simp] theorem State.splitDone_halt (m : Bool) : (s.splitDone m).halt = s.halt := by
  cases m <;> simp [State.splitDone]
@[simp] theorem State.splitDone_cause (m : Bool) : (s.splitDone m).cause = s.cause := by
  cases m <;> simp [State.splitDone]
@[simp] theorem State.splitDone_pend (m : Bool) : (s.splitDone m).pend = s.pend := by
  cases m <;> simp [State.splitDone]
@[simp] theorem State.splitDone_hostWords (m : Bool) : (s.splitDone m).hostWords = s.hostWords := by
  cases m <;> simp [State.splitDone]
@[simp] theorem State.splitDone_coderResponses (m : Bool) : (s.splitDone m).coderResponses = s.coderResponses := by
  cases m <;> simp [State.splitDone]
@[simp] theorem State.splitDone_schedule (m : Bool) : (s.splitDone m).schedule = s.schedule := by
  cases m <;> simp [State.splitDone]

end Sys2Proof.Machine
end

