-- ==== Sys2Proof/Laws/Ops.lean ====
section
/-! SUPPORT. For each shared operation, one lemma that says everything it can do. -/

namespace Sys2Proof.Machine

variable {s t : State}

/-! ## The guards -/

/-- A body that runs only while not halted: the recorded cause, or the body (60_exceptions.md R180). -/
theorem whenRunning_next {body : Out} (h : whenRunning s body = .next t) :
    (s.halt = true ∧ t = s.refuseHalted) ∨ (s.halt = false ∧ body = .next t) := by
  unfold whenRunning at h
  cases hh : s.halt with
  | true => rw [if_pos hh] at h; injection h with h; exact .inl ⟨rfl, h.symm⟩
  | false => simp [hh] at h; exact .inr ⟨rfl, h⟩

@[simp] theorem whenRunning_of_running {body : Out} (h : s.halt = false) : whenRunning s body = body := by
  simp [whenRunning, h]

@[simp] theorem whenRunning_of_halted {body : Out} (h : s.halt = true) :
    whenRunning s body = .next s.refuseHalted := by
  simp [whenRunning, h]

/-- A body that runs only for operands in range: the body, or an illegal word (30_encoding.md R76). -/
theorem whenLegal_next {i : Instr} {body : Out} (h : whenLegal i s body = .next t) :
    (i.wellFormed s.params.ampBits = true ∧ body = .next t) ∨
      (i.wellFormed s.params.ampBits = false ∧ t = s.illegalWord) := by
  unfold whenLegal at h
  cases hw : i.wellFormed s.params.ampBits with
  | true => rw [if_pos hw] at h; exact .inl ⟨rfl, h⟩
  | false => simp [hw] at h; exact .inr ⟨rfl, h.symm⟩

@[simp] theorem whenLegal_of_wellFormed {i : Instr} {body : Out} (h : i.wellFormed s.params.ampBits = true) :
    whenLegal i s body = body := by
  simp [whenLegal, h]

/-- An illegal word: the recorded cause while halted, else `ILL` (60_exceptions.md R173, R180). -/
theorem illegalWord_cases (s : State) :
    (s.halt = true ∧ s.illegalWord = s.refuseHalted) ∨ (s.halt = false ∧ s.illegalWord = s.takeFault .ill) := by
  cases h : s.halt <;> simp [State.illegalWord, h]

/-! ## The split procedures -/

/-- `SplitDone` inside a macro command: the next step of the traversal, or its end (42_shell_sequencer.md R124). -/
theorem advance_cases (s : State) :
    (∃ h : s.seq.val < 14, s.advance = { s with seq := ⟨s.seq.val + 1, by omega⟩ }) ∨
      (s.seq.val = 14 ∧ s.advance = { s with seq := 0, op := .idle }.done) := by
  by_cases h : s.seq.val < 14
  · exact .inl ⟨h, by simp [State.advance, h]⟩
  · exact .inr ⟨by omega, by simp [State.advance, h]⟩

/-- The symbol of a node's request: child1 on encode, 0 on decode (43_coder_wrapper.md R143). -/
def State.requestSymbol (s : State) (dir : Dir) (nd : Node) : Word :=
  match dir with
  | .enc => s.child1 nd
  | .dec => 0

/-- Everything `SplitBegin` can do (41_split_codec.md R101). -/
theorem splitBegin_cases (dir : Dir) (nd : Node) (m : Bool) (s : State) :
    (s.overRange nd = true ∧ splitBegin dir nd m s = s.takeFault .range) ∨
    (s.overRange nd = false ∧ dir = .enc ∧ s.outOfOrder nd = true ∧ splitBegin dir nd m s = s.takeFault .order) ∨
    (s.overRange nd = false ∧ dir = .enc ∧ s.outOfOrder nd = false ∧ s.parent nd = 0 ∧
      splitBegin dir nd m s = s.splitDone m) ∨
    (s.overRange nd = false ∧ dir = .dec ∧ s.parent nd = 0 ∧
      splitBegin dir nd m s = (s.writeChildren nd 0 0).splitDone m) ∨
    (s.overRange nd = false ∧ (dir = .enc → s.outOfOrder nd = false) ∧ s.parent nd ≠ 0 ∧
      splitBegin dir nd m s = s.sendRequest (s.requestFor dir nd (s.requestSymbol dir nd))) := by
  unfold splitBegin
  cases ho : s.overRange nd with
  | true => simp
  | false =>
    cases dir with
    | enc =>
      cases hc : s.outOfOrder nd with
      | true => simp
      | false => by_cases hp : s.parent nd = 0#16 <;> simp [hp, State.requestSymbol]
    | dec => by_cases hp : s.parent nd = 0#16 <;> simp [hp, State.requestSymbol]

/-- Everything `SplitComplete` can do (41_split_codec.md R104). -/
theorem splitComplete_cases (p : PendingSplit) (r : EcResponse) (s : State) :
    (p.dir = .enc ∧ splitComplete p r s = { s with pend := false }.splitDone p.inMacro) ∨
    (p.dir = .dec ∧ s.symbolTooLarge p.node (fit s.params.ampBits r.sym) = true ∧
      splitComplete p r s = s.takeFault .sym) ∨
    (p.dir = .dec ∧ s.symbolTooLarge p.node (fit s.params.ampBits r.sym) = false ∧
      splitComplete p r s =
        ({ s with pend := false }.writeChildren p.node (fit s.params.ampBits r.sym)
          (s.parent p.node - fit s.params.ampBits r.sym)).splitDone p.inMacro) := by
  unfold splitComplete
  cases hd : p.dir with
  | enc => exact .inl ⟨rfl, rfl⟩
  | dec => cases hs : s.symbolTooLarge p.node (fit s.params.ampBits r.sym) <;> simp [hs]

/-! ## The agents -/

/-- Everything the host's turn can do (10_state.md R36). -/
theorem hostTurn_next (h : hostTurn s = .next t) :
    t = s ∨ (s.cur = none ∧ ∃ w ws, s.hostWords = w :: ws ∧ t = ({ s with hostWords := ws }).accept w) := by
  unfold hostTurn at h
  split at h
  · rename_i w ws hc hw
    injection h with h
    exact .inr ⟨hc, w, ws, hw, h.symm⟩
  · injection h with h; exact .inl h.symm
  · injection h with h; exact .inl h.symm

/-- Everything the host's taking can do (70_reset_and_hazards.md R204). -/
theorem takeTurn_next (h : takeTurn s = .next t) :
    t = s ∨ ∃ w ws, s.untaken = w :: ws ∧ t = { s with untaken := ws, trace := s.trace ++ [.taken w] } := by
  unfold takeTurn at h
  split at h
  · injection h with h; exact .inl h.symm
  · rename_i w ws hu; injection h with h; exact .inr ⟨w, ws, hu, h.symm⟩

/-- Everything the core's turn can do (10_state.md R37). -/
theorem coreTurn_next (h : coreTurn s = .next t) :
    t = s ∨ (s.pend = false ∧ ∃ w, s.cur = some w ∧
      ((∃ i, decode s.params.ampBits w = .ok i ∧ exec i s = .next t) ∨
        (∃ e, decode s.params.ampBits w = .error e ∧ t = s.illegalWord))) := by
  unfold coreTurn at h
  cases hp : s.pend with
  | true => simp [hp] at h; exact .inl h.symm
  | false =>
    rw [hp] at h
    simp only [Bool.false_eq_true, if_false] at h
    split at h
    · injection h with h; exact .inl h.symm
    · rename_i w hw
      refine .inr ⟨rfl, w, hw, ?_⟩
      split at h
      · rename_i i hi; exact .inl ⟨i, hi, h⟩
      · rename_i e he; injection h with h; exact .inr ⟨e, he, h.symm⟩

/-- Everything the coder's turn can do (10_state.md R38). -/
theorem coderTurn_next (h : coderTurn s = .next t) :
    t = s ∨ (s.pend = true ∧ ∃ r rs p, s.coderResponses = r :: rs ∧ s.pendingSplit = some p ∧
      t = splitComplete p r { s with coderResponses := rs, trace := s.trace ++ [.answer r] }) := by
  unfold coderTurn at h
  cases hp : s.pend with
  | false => simp [hp] at h; exact .inl h.symm
  | true =>
    rw [hp] at h
    simp only [if_true] at h
    split at h
    · injection h with h; exact .inl h.symm
    · rename_i r rs hr
      split at h
      · exact absurd h (by simp)
      · rename_i p hq
        injection h with h
        exact .inr ⟨rfl, r, rs, p, hr, hq, h.symm⟩

/-- Where no turn is scheduled there is none to use up. -/
@[simp] theorem popTurn_of_empty (h : s.schedule = []) : s.popTurn = s := by
  cases s
  simp only at h
  simp [State.popTurn, h]

/-- Where no turn is scheduled the enabled agent moves (log 8). -/
theorem turn_of_empty (h : s.schedule = []) : s.turn = s.enabledAgent := by
  simp [State.turn, h]

/-- Everything a step can do: the turn is used up, and then the reset step, nothing, or the one thing that the agent
whose turn it is does. -/
theorem step_cases (h : step s = .next t) :
    (s.turn = .reset ∧ t = s.popTurn.resetBlock) ∨
    t = s.popTurn ∨
    (s.turn = .host ∧ s.cur = none ∧ ∃ w ws, s.hostWords = w :: ws ∧
      t = ({ s.popTurn with hostWords := ws }).accept w) ∨
    (s.turn = .take ∧ ∃ w ws, s.untaken = w :: ws ∧
      t = { s.popTurn with untaken := ws, trace := s.trace ++ [.taken w] }) ∨
    (s.turn = .core ∧ s.pend = false ∧ ∃ w, s.cur = some w ∧
      ((∃ i, decode s.params.ampBits w = .ok i ∧ exec i s.popTurn = .next t) ∨
        (∃ e, decode s.params.ampBits w = .error e ∧ t = s.popTurn.illegalWord))) ∨
    (s.turn = .coder ∧ s.pend = true ∧ ∃ r rs p, s.coderResponses = r :: rs ∧ s.pendingSplit = some p ∧
      t = splitComplete p r
        { s.popTurn with coderResponses := rs, trace := s.trace ++ [.answer r] }) := by
  unfold step at h
  cases ht : s.turn with
  | reset => rw [ht] at h; injection h with h; exact .inl ⟨rfl, h.symm⟩
  | host =>
    rw [ht] at h
    rcases hostTurn_next h with h | h
    · exact .inr (.inl h)
    · exact .inr (.inr (.inl ⟨rfl, h⟩))
  | take =>
    rw [ht] at h
    rcases takeTurn_next h with h | h
    · exact .inr (.inl h)
    · exact .inr (.inr (.inr (.inl ⟨rfl, h⟩)))
  | core =>
    rw [ht] at h
    rcases coreTurn_next h with h | h
    · exact .inr (.inl h)
    · exact .inr (.inr (.inr (.inr (.inl ⟨rfl, h⟩))))
  | coder =>
    rw [ht] at h
    rcases coderTurn_next h with h | h
    · exact .inr (.inl h)
    · exact .inr (.inr (.inr (.inr (.inr ⟨rfl, h⟩))))

end Sys2Proof.Machine
end

