-- ==== Sys2Proof/Laws/PerInstr.lean ====
section
/-! SUPPORT. Facts about every command as syntax, one lemma per constructor: the word of a command has every bit that the
command's row of the opcode map fixes (30_encoding.md R75). -/

namespace Sys2Proof.Laws.EncodedRow

/-- The row of the command selects the command's own word, and the opcode field is the row's. -/
def Statement (i : Instr) : Prop :=
  i.row.selects (encode i) = true ∧ fieldOpc (encode i) = fieldOpc i.row.bits

/-- A word whose unused fields are zero meets a row that fixes them: the row's test, bit by bit of the packed word. -/
theorem selects_of_packed {r : OpcodeRow} {o : BitVec 4} {l : BitVec 3} {i : BitVec 4} {m : Word}
    (h : packWord o l i m &&& r.mask = r.bits) : r.selects (packWord o l i m) = true := by
  simp [OpcodeRow.selects, h]

theorem nop : Statement .nop := ⟨by decide, by decide⟩

theorem wr (k : BitVec 3) (i : BitVec 4) (v : Word) : Statement (.wr k i v) := by
  refine ⟨selects_of_packed ?_, (fieldOpc_packWord _ _ _ _).trans (by simp only [Instr.row]; decide)⟩
  ext b hb
  rw [BitVec.getElem_and, packWord_getElem]
  simp only [Instr.row, rowWr]
  interval_cases b <;> simp

theorem rd (k : BitVec 3) (i : BitVec 4) : Statement (.rd k i) := by
  refine ⟨selects_of_packed ?_, (fieldOpc_packWord _ _ _ _).trans (by simp only [Instr.row]; decide)⟩
  ext b hb
  rw [BitVec.getElem_and, packWord_getElem]
  simp only [Instr.row, rowRd]
  interval_cases b <;> simp

theorem rds : Statement .rds := ⟨by decide, by decide⟩

theorem cmb (k : BitVec 3) : Statement (.cmb k) := by
  unfold Statement; revert k; decide

theorem cmbt : Statement .cmbt := ⟨by decide, by decide⟩

theorem espl (l : BitVec 3) (j : BitVec 4) : Statement (.espl l j) := by
  refine ⟨selects_of_packed ?_, (fieldOpc_packWord _ _ _ _).trans (by simp only [Instr.row]; decide)⟩
  ext b hb
  rw [BitVec.getElem_and, packWord_getElem]
  simp only [Instr.row, rowEspl]
  interval_cases b <;> simp

theorem dspl (l : BitVec 3) (j : BitVec 4) : Statement (.dspl l j) := by
  refine ⟨selects_of_packed ?_, (fieldOpc_packWord _ _ _ _).trans (by simp only [Instr.row]; decide)⟩
  ext b hb
  rw [BitVec.getElem_and, packWord_getElem]
  simp only [Instr.row, rowDspl]
  interval_cases b <;> simp

theorem senc : Statement .senc := ⟨by decide, by decide⟩

theorem sdec (t : Word) : Statement (.sdec t) := by
  refine ⟨selects_of_packed ?_, (fieldOpc_packWord _ _ _ _).trans (by simp only [Instr.row]; decide)⟩
  ext b hb
  rw [BitVec.getElem_and, packWord_getElem]
  simp only [Instr.row, rowSdec]
  interval_cases b <;> simp

theorem fbeg (dir : Dir) : Statement (.fbeg dir) := by
  cases dir <;> exact ⟨by decide, by decide⟩

theorem fend : Statement .fend := ⟨by decide, by decide⟩

end Sys2Proof.Laws.EncodedRow
end

