-- ==== Sys2Proof/Laws/Run.lean ====
section
/-! SUPPORT. The laws of runs: no steps, one step more, two runs in a row, and the host's own run. -/

namespace Sys2Proof.Machine

@[simp] theorem runSteps_zero (s : State) : runSteps 0 s = .next s := rfl

theorem runSteps_succ_of_next {s t : State} (k : Nat) (h : step s = .next t) : runSteps (k + 1) s = runSteps k t := by
  simp only [runSteps, h]

/-- A run of one step more begins with a step that goes on. -/
theorem runSteps_succ_next {s u : State} {k : Nat} (h : runSteps (k + 1) s = .next u) :
    ∃ t, step s = .next t ∧ runSteps k t = .next u := by
  simp only [runSteps] at h
  split at h
  · rename_i t ht; exact ⟨t, ht, h⟩
  · cases h
  · cases h

/-- A run of `j + k` steps is a run of `j` steps and then one of `k`. -/
theorem runSteps_add {s t : State} (j k : Nat) (h : runSteps j s = .next t) : runSteps (j + k) s = runSteps k t := by
  induction j generalizing s with
  | zero =>
    rw [runSteps_zero] at h
    injection h with h
    rw [Nat.zero_add, h]
  | succ j ih =>
    obtain ⟨u, hu, hr⟩ := runSteps_succ_next h
    rw [Nat.succ_add, runSteps_succ_of_next (j + k) hu]
    exact ih hr

/-- One step of the host's run of any machine. -/
theorem core_run_succ (M : Host.Core) (k : Nat) (s : M.State) :
    M.run (k + 1) s =
      match M.step s with
      | .next t => M.run k t
      | .fault r => .fault r
      | .refused r => .refused r := by
  cases h : M.step s <;> simp only [Host.Core.run, h]

/-- The host's run of the machine is this run. -/
theorem core_run_eq_runSteps (k : Nat) (s : State) : Host.Core.run core k s = runSteps k s := by
  induction k generalizing s with
  | zero => rfl
  | succ k ih =>
    refine (core_run_succ core k s).trans ?_
    cases h : step s with
    | next t =>
      have hc : core.step s = .next t := h
      rw [runSteps_succ_of_next k h, ← ih t, hc]
    | fault r =>
      have hc : core.step s = .fault r := h
      simp only [runSteps, h, hc]; rfl
    | refused r =>
      have hc : core.step s = .refused r := h
      simp only [runSteps, h, hc]; rfl

end Sys2Proof.Machine
end

