-- ==== Sys2Proof/Tests/Slice0.lean ====
section
/-! SUPPORT. The model's own tests: ill-formed commands, words written out from 30_encoding.md, single steps with the
results that 95_test_vectors.md gives, and for every obligation with hypotheses a state that meets them. -/

namespace Sys2Proof.Tests

open Sys2Proof Sys2Proof.Machine

-- One proof at a time: a thread for each of these kernel evaluations would not fit the checker's memory limit.
set_option Elab.async false

/-! ## The bench (95_test_vectors.md section 1) -/

/-- `Row(L, a)` of `TESTCFG`: `a, a - 1, .., 0`. -/
def benchRow (a : Nat) : List Byte := (List.range (a + 1)).map fun k => BitVec.ofNat 8 (a - k)

/-- A table of `TESTCFG`: `OFF[a] = (a - 1)(a + 2) / 2`, the rows for 1 to 16 packed in order. -/
def benchTable : Table where
  off := (List.range 17).map fun a => (a - 1) * (a + 2) / 2
  cdfSize := 152
  cdf := Memory.image 0 ((List.range 16).flatMap fun i => benchRow (i + 1))

/-- `TESTCFG`. -/
def benchParams : Params := ⟨8, 16, 8, Vector.replicate 4 benchTable⟩

/-- The reset state under `TESTCFG`. -/
def bench : State := { State.reset with params := benchParams }

/-- The bench with a frame of direction `dir` open. -/
def framed (dir : Dir) : State := { bench with frame := true, fdir := dir }

/-- The bench halted with a cause. -/
def halted (c : Cause) : State := { bench with halt := true, cause := c }

/-- Registers put at values. -/
def put (s : State) (regs : List (Nat × Nat × Word)) : State :=
  regs.foldl (fun u r => u.writePulse r.1 r.2.1 r.2.2) s

/-- A frame of direction `dir` with the root and the first node of level 3 at values. -/
def rootFrame (dir : Dir) (root c1 : Word) : State := put (framed dir) [(4, 0, root), (3, 0, c1)]

/-- The command is accepted and the coder has its answers ready. -/
def accepted (s : State) (i : Instr) (answers : List Word) : State :=
  { s.placeCommand (encode i) with coderResponses := answers.map fun a => ⟨a⟩ }

/-- The state after a step that goes on. -/
def nextOf (o : Out) : Option State :=
  match o with
  | .next t => some t
  | .fault _ => none
  | .refused _ => none

/-- What a test looks at after a step. -/
def seen {α : Type} (o : Out) (look : State → α) : Option α := (nextOf o).map look

/-- The responses to the host since reset. -/
def answered (s : State) : List CommandWord := responsesOf s.trace

/-- `dir, lvl, amp, off, sym` of the requests since reset. -/
def asked (s : State) : List (List Nat) :=
  (requestsOf s.trace).map fun r => [r.dir.bit.toNat, r.lvl, r.amp.toNat, r.off, r.sym.toNat]

theorem test_bench_configuration_is_lawful : benchParams.lawful = true := by decide +kernel

theorem test_bench_offsets :
    (benchParams.tblOff 0 1, benchParams.tblOff 1 8, benchParams.tblOff 3 16) = (0, 35, 135) := by decide +kernel

theorem test_bench_row_of_three : benchParams.row 3 3 = [3, 2, 1, 0] := by decide +kernel

/-- A row that is not strictly decreasing is a malformed configuration (20_memory.md R52, R58). -/
theorem test_flat_row_is_unlawful :
    { benchParams with tables := Vector.replicate 4 { benchTable with cdf := (benchTable.cdf.place 0 0) } }.lawful =
      false := by decide +kernel

/-- An offset ROM has exactly `A_MAX + 1` entries (00_scope.md R11). -/
theorem test_longer_offset_rom_is_unlawful :
    { benchParams with tables := Vector.replicate 4 { benchTable with off := benchTable.off ++ [151] } }.lawful =
      false := by decide +kernel

/-! ## Ill-formed commands (30_encoding.md R71): each check refuses one -/

theorem test_wellFormed_refuses_wr_level : (Instr.wr 5 0 0).wellFormed 8 = false := by decide
theorem test_wellFormed_refuses_wr_index : (Instr.wr 1 8 0).wellFormed 8 = false := by decide
theorem test_wellFormed_refuses_wr_value : (Instr.wr 0 1 256).wellFormed 8 = false := by decide
theorem test_wellFormed_refuses_rd_level : (Instr.rd 5 0).wellFormed 8 = false := by decide
theorem test_wellFormed_refuses_rd_index : (Instr.rd 4 1).wellFormed 8 = false := by decide
theorem test_wellFormed_refuses_cmb_leaves : (Instr.cmb 0).wellFormed 8 = false := by decide
theorem test_wellFormed_refuses_cmb_level : (Instr.cmb 5).wellFormed 8 = false := by decide
theorem test_wellFormed_refuses_espl_level : (Instr.espl 4 0).wellFormed 8 = false := by decide
theorem test_wellFormed_refuses_espl_index : (Instr.espl 3 1).wellFormed 8 = false := by decide
theorem test_wellFormed_refuses_dspl_level : (Instr.dspl 4 0).wellFormed 8 = false := by decide
theorem test_wellFormed_refuses_dspl_index : (Instr.dspl 2 2).wellFormed 8 = false := by decide
theorem test_wellFormed_refuses_sdec_total : (Instr.sdec 4096).wellFormed 8 = false := by decide

/-! ## Words written out from 30_encoding.md R70, R75 (vectors V40 to V84) -/

theorem test_decode_nop : decode 8 0b0000_0_000_0000_0000_0000000000000000 = .ok .nop := by decide
theorem test_decode_wr : decode 8 0b0001_0_000_0101_0000_0000000000000001 = .ok (.wr 0 5 1) := by decide
theorem test_decode_rd : decode 8 0b0010_0_001_0111_0000_0000000000000000 = .ok (.rd 1 7) := by decide
theorem test_decode_rds : decode 8 0b0011_0_000_0000_0000_0000000000000000 = .ok .rds := by decide
theorem test_decode_cmb : decode 8 0b0100_0_100_0000_0000_0000000000000000 = .ok (.cmb 4) := by decide
theorem test_decode_cmbt : decode 8 0b0101_0_000_0000_0000_0000000000000000 = .ok .cmbt := by decide
theorem test_decode_espl : decode 8 0b0110_0_001_0011_0000_0000000000000000 = .ok (.espl 1 3) := by decide
theorem test_decode_dspl : decode 8 0b0111_0_010_0001_0000_0000000000000000 = .ok (.dspl 2 1) := by decide
theorem test_decode_senc : decode 8 0b1000_0_000_0000_0000_0000000000000000 = .ok .senc := by decide
theorem test_decode_sdec : decode 8 0b1001_0_000_0000_0000_0000111111111111 = .ok (.sdec 4095) := by decide
theorem test_decode_fbeg : decode 8 0b1010_0_000_0000_0000_0000000000000001 = .ok (.fbeg .dec) := by decide
theorem test_decode_fend : decode 8 0b1011_0_000_0000_0000_0000000000000000 = .ok .fend := by decide

/-- V84. -/
theorem test_decode_refuses_reserved_opcodes :
    ([0xC0000000, 0xD0000000, 0xE0000000, 0xF0000000, 0xFFFFFFFF] : List CommandWord).all
      (fun w => decide (decode 8 w = .error .reservedOpcode)) = true := by decide

/-- V41, V55, V60, V62, V70, V74, V78, V81, V83. -/
theorem test_decode_refuses_nonzero_fields :
    ([0x00000001, 0x30000001, 0x43100000, 0x50010000, 0x68000000, 0x80000008, 0x91000000, 0xA0000002,
      0xB0100000] : List CommandWord).all
      (fun w => decide (decode 8 w = .error .nonzeroField)) = true := by decide

/-- V44, V46, V48, V49, V52, V53, V56, V59, V64, V65, V67, V69, V72, V77. -/
theorem test_decode_refuses_out_of_range :
    ([0x10100100, 0x14001000, 0x11800000, 0x15000000, 0x22400000, 0x24100000, 0x40000000, 0x45000000, 0x63100000,
      0x64000000, 0x60800000, 0x61400000, 0x72200000, 0x90001000] : List CommandWord).all
      (fun w => decide (decode 8 w = .error .outOfRange)) = true := by decide

/-- 95_test_vectors.md section 3, "Parameter dependence". -/
theorem test_decode_depends_on_width :
    decode 4 0x10000010 = .error .outOfRange ∧ decode 4 0x1000000F = .ok (.wr 0 0 15) ∧
      decode 12 0x1400FFFF = .ok (.wr 4 0 65535) := by decide

/-- V45, V76, V84 through the host's reading. -/
theorem test_decodeTableWord :
    decodeTableWord 32 0x14000FFF = some (.wr 4 0 4095) ∧ decodeTableWord 32 0x90000FFF = some (.sdec 4095) ∧
      decodeTableWord 32 0xC0000000 = none := by decide

/-! ## One step of each command (95_test_vectors.md) -/

/-- V92. -/
theorem test_nop_while_halted :
    seen (step ((halted .range).withFetchWord 32 0)) (fun t => (answered t, t.cause, t.cur)) =
      some ([0], .range, none) := by decide +kernel

/-- V91. -/
theorem test_wr_stores :
    seen (step (bench.withFetchWord 32 0x123003FF)) (fun t => (answered t, t.pulses.p2)) =
      some ([0], #v[0, 0, 0, 1023]) := by decide +kernel

/-- V115. -/
theorem test_wr_while_halted :
    seen (step ((put (halted .range) [(0, 0, 9)]).withFetchWord 32 0x10000000)) (fun t => (answered t, t.pulse 0 0)) =
      some ([0x30000000], 9) := by decide +kernel

/-- V91, the read. -/
theorem test_rd_answers :
    seen (step ((put bench [(2, 3, 1023)]).withFetchWord 32 0x22300000)) answered = some [0x000003FF] := by
  decide +kernel

/-- V94, `2157`: halted `SYM` at step 1 of `SDEC`. -/
theorem test_rds_answers :
    seen (step (({ halted .sym with frame := true, fdir := .dec, op := .dec, seq := 1 } : State).withFetchWord 32
      0x30000000)) answered = some [0x00002157] := by decide +kernel

/-- P1, the document's `combine([3,5,2,1], len=2)`. -/
theorem test_cmb_adds_pairs :
    seen (step ((put bench [(2, 0, 3), (2, 1, 5), (2, 2, 2), (2, 3, 1)]).withFetchWord 32 0x43000000))
      (fun t => (answered t, t.pulses.p3, t.pulses.p4)) = some ([0], #v[8, 3], #v[0]) := by decide +kernel

/-- V13, `CMB 4` at the register maximum. -/
theorem test_cmb_does_not_overflow :
    seen (step ((put bench [(3, 0, 2047), (3, 1, 2047)]).withFetchWord 32 0x44000000)) (fun t => t.pulse 4 0) =
      some 4094 := by decide +kernel

/-- The document's vector (V2). -/
def documentVector : State :=
  put bench [(0, 0, 1), (0, 2, 2), (0, 5, 1), (0, 8, 3), (0, 15, 1)]

/-- V2. -/
theorem test_cmbt_builds_the_documents_tree :
    seen (step (documentVector.withFetchWord 32 0x50000000))
      (fun t => (t.pulses.p1, t.pulses.p2, t.pulses.p3, t.pulses.p4)) =
      some (#v[1, 2, 1, 0, 3, 0, 0, 1], #v[3, 1, 3, 1], #v[4, 4], #v[8]) := by decide +kernel

/-- V13, every leaf at its maximum. -/
theorem test_cmbt_does_not_overflow :
    seen (step (({ bench with pulses := { bench.pulses with p0 := Vector.replicate 16 255 } } : State).withFetchWord 32
      0x50000000)) (fun t => (t.pulses.p1, t.pulse 4 0)) = some (Vector.replicate 8 510, 4080) := by decide +kernel

/-- V36. -/
theorem test_espl_sends_request :
    seen (step ((put (framed .enc) [(1, 0, 5), (0, 0, 2), (0, 1, 200)]).withFetchWord 32 0x60000000))
      (fun t => (asked t, t.pend, answered t)) = some ([[0, 0, 5, 14, 2]], true, []) := by decide +kernel

/-- V38: the order check comes before the zero check. -/
theorem test_espl_order_before_zero :
    seen (step ((put (framed .enc) [(0, 0, 1)]).withFetchWord 32 0x60000000))
      (fun t => (asked t, answered t, t.status)) = some ([], [0x40000000], 0x0045) := by decide +kernel

/-- The pending split of V31: `DSPL 2, 1` with parent 4, `P[2][2] = 9`, the answer ready. -/
def pendingDspl (answer : Word) : State :=
  { accepted (put (framed .dec) [(3, 1, 4), (2, 2, 9)]) (.dspl 2 1) [answer] with pend := true }

/-- V32, V33. -/
theorem test_dspl_writes_children :
    seen (step (pendingDspl 0)) (fun t => (answered t, t.pulses.p2)) = some ([0], #v[0, 0, 0, 4]) ∧
      seen (step (pendingDspl 4)) (fun t => (t.pend, t.pulses.p2)) = some (false, #v[0, 0, 4, 0]) := by
  decide +kernel

/-- V34. -/
theorem test_dspl_symbol_above_parent :
    seen (step (pendingDspl 5)) (fun t => (answered t, t.pulses.p2, t.status, t.pend)) =
      some ([0x50000000], #v[0, 0, 9, 0], 0x0057, false) := by decide +kernel

/-- V20, the first micro-step. -/
theorem test_senc_builds_the_tree :
    seen (step ((accepted { documentVector with frame := true } .senc [])))
      (fun t => (t.pulses.p2, t.pulse 4 0, t.op, t.seq, t.cur)) =
      some (#v[3, 1, 3, 1], 8, .enc, 0, some 0x80000000) := by decide +kernel

/-- V112, the faulting micro-step. -/
theorem test_senc_total_above_maximum :
    seen (step { accepted (put (framed .enc) [(4, 0, 17), (3, 0, 17)]) .senc [] with op := .enc })
      (fun t => (answered t, asked t, t.status)) = some ([0x30000000], [], 0x1035) := by decide +kernel

/-- V21, row 0: `D(3, 8, 35) -> 4`. -/
theorem test_sdec_first_answer :
    seen (step { accepted (put (framed .dec) [(4, 0, 8)]) (.sdec 8) [4] with op := .dec, pend := true })
      (fun t => (t.pulses.p3, t.seq, t.pend, answered t)) = some (#v[4, 4], 1, false, []) := by decide +kernel

/-- V21, row 14, the last one: `D(0, 1, 0) -> 0`. -/
theorem test_sdec_last_answer :
    seen (step { accepted (put (framed .dec) [(1, 7, 1)]) (.sdec 8) [0] with op := .dec, seq := 14, pend := true })
      (fun t => (t.pulse 0 14, t.pulse 0 15, t.seq, t.op, answered t)) = some (0, 1, 0, .idle, [0]) := by
  decide +kernel

/-- V101. -/
theorem test_fbeg_opens :
    seen (step (bench.withFetchWord 32 0xA0000001)) (fun t => (answered t, t.status)) = some ([0], 0x0003) := by
  decide +kernel

/-- V102. -/
theorem test_fbeg_while_open :
    seen (step ((framed .enc).withFetchWord 32 0xA0000001)) (fun t => (answered t, t.status)) =
      some ([0x20000000], 0x0025) := by decide +kernel

/-- V101. -/
theorem test_fend_closes :
    seen (step ((framed .dec).withFetchWord 32 0xB0000000)) (fun t => (answered t, t.status)) = some ([0], 0) := by
  decide +kernel

/-- V103. -/
theorem test_fend_without_frame :
    seen (step (bench.withFetchWord 32 0xB0000000)) (fun t => (answered t, t.status)) =
      some ([0x20000000], 0x0024) := by decide +kernel

/-- V110. -/
theorem test_illegal_word :
    seen (step (bench.withFetchWord 32 0xC0000000)) (fun t => (answered t, t.status)) =
      some ([0x10000000], 0x0014) := by decide +kernel

/-- 70_reset_and_hazards.md R204: the host takes the older of two responses. -/
theorem test_host_takes_oldest_response :
    seen (step { bench with untaken := [0x00000003, 0x20000000] }) (fun t => (t.untaken, takenOf t.trace)) =
      some ([0x20000000], [0x00000003]) := by decide

/-- 70_reset_and_hazards.md R203: a run whose words have not been issued has not ended, and one with a fault has not ended
well. -/
theorem test_endedWell :
    (bench.startRun [0]).endedWell = false ∧ bench.endedWell = true ∧ (halted .range).endedWell = false := by decide

/-! ## Checks that give the invariant -/

/-- `State.macroInOrder`, as a check. -/
def macroCheck (s : State) : Bool :=
  match s.op with
  | .idle => true
  | .enc => decide (s.command = some .senc) && s.frameIs .enc
  | .dec => s.command.any (fun i => fieldOpc (encode i) == 9) && s.frameIs .dec

/-- `State.PendingOf`, as a check. -/
def pendingCheck (s : State) : Bool :=
  s.pendingSplit.any fun p =>
    s.frameIs p.dir && (p.inMacro == decide (s.op ≠ .idle)) && decide (s.parent p.node ≠ 0)
      && !s.overRange p.node && (decide (p.dir = .dec) || !s.outOfOrder p.node)

/-- Every register that exists is within its width. -/
def widthCheck (s : State) : Bool :=
  (List.range 5).all fun k => (List.range 16).all fun i =>
    decide ((s.pulse k i).toNat < 2 ^ (s.params.ampBits + k))

/-- `State.Inv`, as a check. -/
def invCheck (s : State) : Bool :=
  s.params.bounded && widthCheck s && (s.halt == decide (s.cause ≠ .noFault)) && (!s.halt || !s.pend)
    && (s.frame || decide (s.fdir = .enc)) && (decide (s.op ≠ .idle) || decide (s.seq = 0))
    && (s.halt || macroCheck s) && (!s.pend || pendingCheck s)

/-- `State.ReadyFor`, as a check. -/
def readyCheck (s : State) (i : Instr) (dir : Dir) : Bool :=
  invCheck s && i.wellFormed s.params.ampBits && !s.halt && !s.pend && decide (s.op = .idle) && s.frameIs dir
    && decide (s.cur = some (encode i)) && decide (s.schedule = [])

theorem fits_of_widthCheck {s : State} (h : widthCheck s = true) (k i : Nat) :
    (s.pulse k i).toNat < 2 ^ (s.params.ampBits + k) := by
  cases hr : isRegister k i with
  | false => rw [State.pulse, PulseFile.read_of_not_register _ hr]; exact Nat.two_pow_pos _
  | true =>
    have hk : k < 5 ∧ i < 16 := by rcases isRegister_cases hr with h | h | h | h | h <;> omega
    simp only [widthCheck, List.all_eq_true, List.mem_range, decide_eq_true_eq] at h
    exact h k hk.1 i hk.2

theorem widthsFit_of_check {s : State} (hn : s.params.ampBits ≤ 12) (h : widthCheck s = true) : s.WidthsFit :=
  ⟨hn, fits_of_widthCheck h⟩

/-- The only command whose opcode is 9 is `SDEC`. -/
theorem sdec_of_opcode {i : Instr} (h : fieldOpc (encode i) = 9) : ∃ t, i = .sdec t := by
  cases i with
  | sdec t => exact ⟨t, rfl⟩
  | _ => simp [encode] at h

theorem macroInOrder_of_check {s : State} (h : macroCheck s = true) : s.macroInOrder := by
  unfold macroCheck at h
  unfold State.macroInOrder
  cases hop : s.op with
  | idle => trivial
  | enc => simpa [hop] using h
  | dec =>
    simp only [hop, Bool.and_eq_true, Option.any_eq_true_iff_get, beq_iff_eq] at h
    obtain ⟨⟨hs, ho⟩, hf⟩ := h
    obtain ⟨t, ht⟩ := sdec_of_opcode ho
    exact ⟨⟨t, by rw [← Option.some_get hs, ht]⟩, hf⟩

theorem pendingOf_of_check {s : State} (h : pendingCheck s = true) : ∃ p, s.PendingOf p := by
  unfold pendingCheck at h
  cases hp : s.pendingSplit with
  | none => simp [hp] at h
  | some p =>
    simp only [hp, Option.any_some, Bool.and_eq_true, Bool.or_eq_true, Bool.not_eq_true', beq_iff_eq,
      decide_eq_true_eq] at h
    obtain ⟨⟨⟨⟨hf, hm⟩, hc⟩, hr⟩, ho⟩ := h
    refine ⟨p, hp, hf, hm, hc, hr, fun hd => ?_⟩
    rcases ho with ho | ho
    · rw [hd] at ho; cases ho
    · exact ho

theorem inv_of_check {s : State} (h : invCheck s = true) : s.Inv := by
  simp only [invCheck, Bool.and_eq_true, Bool.or_eq_true, Bool.not_eq_true', beq_iff_eq, decide_eq_true_eq] at h
  obtain ⟨⟨⟨⟨⟨⟨⟨hb, hw⟩, hh⟩, hn⟩, hf⟩, hs⟩, hm⟩, hp⟩ := h
  refine ⟨hb, fits_of_widthCheck hw, by rw [hh]; simp, ?_, ?_, ?_, ?_, ?_⟩
  · intro e; rcases hn with hn | hn
    · rw [e] at hn; cases hn
    · exact hn
  · intro e; rcases hf with hf | hf
    · rw [e] at hf; cases hf
    · exact hf
  · intro e; rcases hs with hs | hs
    · exact absurd e hs
    · exact hs
  · intro e; rcases hm with hm | hm
    · rw [e] at hm; cases hm
    · exact macroInOrder_of_check hm
  · intro e; rcases hp with hp | hp
    · rw [e] at hp; cases hp
    · exact pendingOf_of_check hp

theorem readyFor_of_check {s : State} {i : Instr} {dir : Dir} (h : readyCheck s i dir = true) : s.ReadyFor i dir := by
  simp only [readyCheck, Bool.and_eq_true, Bool.not_eq_true', decide_eq_true_eq] at h
  obtain ⟨⟨⟨⟨⟨⟨⟨hi, hl⟩, hh⟩, hp⟩, ho⟩, hf⟩, hc⟩, hs⟩ := h
  exact ⟨inv_of_check hi, hl, hh, hp, ho, hf, hc, hs⟩

/-- A step that goes on, and what is seen after it. -/
theorem next_of_seen {o : Out} {P : State → Prop} [DecidablePred P]
    (h : seen o (fun t => decide (P t)) = some true) : ∃ t, o = .next t ∧ P t := by
  cases o with
  | next t => exact ⟨t, rfl, by simpa [seen, nextOf] using h⟩
  | fault r => simp [seen, nextOf] at h
  | refused r => simp [seen, nextOf] at h

/-! ## For every obligation with hypotheses, states and operands that meet them, clause by clause -/

theorem witness_DecodeOfEncodeIsTheCommand :
    (Instr.wr 4 0 0xFFFF).wellFormed 12 = true ∧ (Instr.wr 0 15 1).wellFormed 1 = true ∧
    (Instr.rd 3 1).wellFormed 8 = true ∧ (Instr.cmb 1).wellFormed 8 = true ∧ (Instr.cmb 4).wellFormed 8 = true ∧
    (Instr.espl 0 7).wellFormed 8 = true ∧ (Instr.dspl 3 0).wellFormed 8 = true ∧
    (Instr.sdec 4095).wellFormed 8 = true ∧ (Instr.fbeg .dec).wellFormed 8 = true := by decide

theorem witness_DecodedWordIsItsCommandsWord :
    decode 8 0x14000FFF = .ok (.wr 4 0 4095) ∧ decode 8 0x80000000 = .ok .senc := by decide

theorem witness_StepRunsTheDecodedCommand :
    (accepted bench .rds []).pend = false ∧ (accepted bench .rds []).cur = some 0x30000000 ∧
    decode (accepted bench .rds []).params.ampBits 0x30000000 = .ok .rds ∧ (accepted bench .rds []).schedule = [] ∧
    { accepted bench .rds [] with schedule := [.core, .host] }.turn = .core := by decide

theorem witness_HostIssuesOnlyWhenReady :
    { bench with hostWords := [0xC0000000] }.turn = .host ∧ { bench with hostWords := [0xC0000000] }.cur = none ∧
    { bench with hostWords := [0xC0000000] }.hostWords = 0xC0000000 :: [] ∧
    { accepted bench .rds [] with schedule := [.host] }.turn = .host ∧
    { accepted bench .rds [] with schedule := [.host] }.cur ≠ none := by decide

theorem witness_IllegalWordTakesIll :
    (bench.placeCommand 0x14001000).turn = .core ∧ (bench.placeCommand 0x14001000).pend = false ∧
    (bench.placeCommand 0x14001000).halt = false ∧ (bench.placeCommand 0x14001000).cur = some 0x14001000 ∧
    decode (bench.placeCommand 0x14001000).params.ampBits 0x14001000 = .error .outOfRange := by decide

theorem witness_HostTakesResponsesInOrder :
    { bench with untaken := [3, 4] }.turn = .take ∧ { bench with untaken := [3, 4] }.untaken = 3 :: [4] ∧
    ∃ t, step { bench with untaken := [3, 4] } = .next t ∧ t.untaken = [4] :=
  ⟨by decide, rfl, next_of_seen (by decide)⟩

/-- The turns of core and host with an answer ready; then no answer, without and with turns scheduled. -/
theorem witness_SilentCoderLeavesTheBlockWaiting :
    ((pendingDspl 0).pend = true ∧ { pendingDspl 0 with schedule := [.core] }.turn = .core ∧
      { pendingDspl 0 with schedule := [.host] }.turn = .host ∧ (pendingDspl 0).cur ≠ none) ∧
    { pendingDspl 0 with coderResponses := [] }.coderResponses = [] ∧
    { pendingDspl 0 with coderResponses := [] }.schedule = [] ∧
    .reset ∉ { pendingDspl 0 with coderResponses := [], schedule := [.take, .host, .coder] }.schedule ∧
    .take ∉ { pendingDspl 0 with coderResponses := [], schedule := [.core] }.schedule := by decide

/-- A run of one `NOP` ends well after two steps. -/
theorem witness_RunAnswersEveryWord :
    .reset ∉ bench.schedule ∧ ∃ t, runOf [0] 2 bench = .next t ∧ t.endedWell = true :=
  ⟨by decide, next_of_seen (by decide +kernel)⟩

/-- A step that ends a command, and one that does not. -/
theorem witness_OneResponseEndsEachCommand :
    (∃ t, step (accepted bench .rds []) = .next t ∧ t.cur = none) ∧ (accepted bench .rds []).turn ≠ .reset ∧
    (accepted bench .rds []).cur ≠ none ∧
    (∃ t, step (accepted (framed .dec) (.sdec 1) []) = .next t ∧ t.cur ≠ none) ∧
    (accepted (framed .dec) (.sdec 1) []).turn ≠ .reset :=
  ⟨next_of_seen (by decide +kernel), by decide, by decide, next_of_seen (by decide +kernel), by decide⟩

/-- A micro-step that answers, one that sends a request, and one that moves on. -/
theorem witness_EveryMicroStepEndsInOneWay :
    ((accepted bench .rds []).turn = .core ∧ (accepted bench .rds []).pend = false ∧
      (accepted bench .rds []).cur ≠ none ∧ ∃ t, step (accepted bench .rds []) = .next t ∧ t.cur = none) ∧
    ((accepted (rootFrame .dec 16 0) (.dspl 3 0) []).turn = .core ∧
      ∃ t, step (accepted (rootFrame .dec 16 0) (.dspl 3 0) []) = .next t ∧ t.pend = true) ∧
    ((accepted (framed .dec) (.sdec 1) []).turn = .core ∧
      ∃ t, step (accepted (framed .dec) (.sdec 1) []) = .next t ∧ t.pend = false ∧ t.cur ≠ none) :=
  ⟨⟨by decide, by decide, by decide, next_of_seen (by decide +kernel)⟩,
    ⟨by decide, next_of_seen (by decide +kernel)⟩, by decide, next_of_seen (by decide +kernel)⟩

theorem witness_StepKeepsTheConfiguration : ∃ t, step (accepted documentVector .cmbt []) = .next t ∧ t.pulse 4 0 = 8 :=
  next_of_seen (by decide +kernel)

theorem witness_ResetStepClearsTheBlock :
    { pendingDspl 5 with schedule := [.reset, .host] }.turn = .reset := by decide

/-- The register and the value at the ends of their ranges, and each of the three ways out of range. -/
theorem witness_WriteStoresExactlyOneRegister :
    (BitVec.toNat 4#3 ≤ 4 ∧ BitVec.toNat 0#4 < 16 >>> BitVec.toNat 4#3 ∧
      (4095#16).toNat < 2 ^ (bench.params.ampBits + BitVec.toNat 4#3)) ∧
    (BitVec.toNat 0#3 ≤ 4 ∧ BitVec.toNat 15#4 < 16 >>> BitVec.toNat 0#3 ∧
      (255#16).toNat < 2 ^ (bench.params.ampBits + BitVec.toNat 0#3)) ∧
    bench.halt = false ∧ (halted .sym).halt = true ∧
    ¬ BitVec.toNat 5#3 ≤ 4 ∧ ¬ BitVec.toNat 1#4 < 16 >>> BitVec.toNat 4#3 ∧
    ¬ (256#16).toNat < 2 ^ (bench.params.ampBits + BitVec.toNat 0#3) := by decide

theorem witness_ReadAnswersTheRegister :
    (BitVec.toNat 4#3 ≤ 4 ∧ BitVec.toNat 0#4 < 16 >>> BitVec.toNat 4#3) ∧
    (BitVec.toNat 0#3 ≤ 4 ∧ BitVec.toNat 15#4 < 16 >>> BitVec.toNat 0#3) ∧
    ¬ (BitVec.toNat 5#3 ≤ 4 ∧ BitVec.toNat 0#4 < 16 >>> BitVec.toNat 5#3) ∧
    ¬ (BitVec.toNat 3#3 ≤ 4 ∧ BitVec.toNat 2#4 < 16 >>> BitVec.toNat 3#3) := by decide

theorem witness_StatusShowsIdleUnlessHalted :
    (accepted (framed .dec) .rds []).Inv ∧ (accepted (framed .dec) .rds []).command = some .rds ∧
    (accepted (framed .dec) .rds []).halt = false :=
  ⟨inv_of_check (by decide +kernel), by decide, by decide⟩

/-- The document's vector with an encode frame open. -/
def documentFrame : State := { documentVector with frame := true }

/-- Every leaf at its maximum. -/
def fullVector : State := { bench with pulses := { bench.pulses with p0 := Vector.replicate 16 255 } }

theorem fullVector_widthsFit : fullVector.WidthsFit := widthsFit_of_check (by decide) (by decide +kernel)

theorem witness_CombineLevelAddsPairs :
    (1 ≤ BitVec.toNat 1#3 ∧ BitVec.toNat 4#3 ≤ 4) ∧ fullVector.halt = false ∧ fullVector.WidthsFit ∧
    (halted .mode).halt = true ∧ ¬ (1 ≤ BitVec.toNat 0#3) ∧ ¬ (BitVec.toNat 5#3 ≤ 4) :=
  ⟨by decide, by decide, fullVector_widthsFit, by decide, by decide, by decide⟩

theorem witness_CombineTreeAddsFromTheLeaves :
    fullVector.halt = false ∧ fullVector.WidthsFit ∧ (halted .ill).halt = true :=
  ⟨by decide, fullVector_widthsFit, by decide⟩

theorem witness_CombineTreeIsTheFourLevelsInTurn : fullVector.halt = false := by decide

theorem witness_CombineTreeMeetsTheSumInvariant : fullVector.halt = false ∧ fullVector.WidthsFit :=
  ⟨by decide, fullVector_widthsFit⟩

/-- The root at `A_MAX` with child1 equal to it, at 0, just above `A_MAX`, and below its child1. -/
theorem witness_EncodeSplitFirstMicroStep :
    (BitVec.toNat 3#3 ≤ 3 ∧ BitVec.toNat 0#4 < 8 >>> BitVec.toNat 3#3) ∧
    (BitVec.toNat 0#3 ≤ 3 ∧ BitVec.toNat 7#4 < 8 >>> BitVec.toNat 0#3) ∧
    ((rootFrame .enc 16 16).halt = false ∧ (rootFrame .enc 16 16).frame = true ∧
      (rootFrame .enc 16 16).fdir = .enc ∧ ((rootFrame .enc 16 16).pulse 4 0).toNat ≤ 16 ∧
      (rootFrame .enc 16 16).params.aMax = 16 ∧
      ((rootFrame .enc 16 16).pulse 3 0).toNat ≤ ((rootFrame .enc 16 16).pulse 4 0).toNat ∧
      (rootFrame .enc 16 16).pulse 4 0 ≠ 0) ∧
    ((rootFrame .enc 0 0).pulse 4 0 = 0 ∧ (rootFrame .enc 0 0).pulse 3 0 = 0) ∧
    (rootFrame .enc 17 18).params.aMax < ((rootFrame .enc 17 18).pulse 4 0).toNat ∧
    (((rootFrame .enc 0 1).pulse 4 0).toNat ≤ 16 ∧
      ((rootFrame .enc 0 1).pulse 4 0).toNat < ((rootFrame .enc 0 1).pulse 3 0).toNat) ∧
    (bench.halt = false ∧ ¬ (bench.frame = true ∧ bench.fdir = .enc)) ∧
    ¬ (BitVec.toNat 4#3 ≤ 3 ∧ BitVec.toNat 0#4 < 8 >>> BitVec.toNat 4#3) ∧
    ¬ (BitVec.toNat 3#3 ≤ 3 ∧ BitVec.toNat 1#4 < 8 >>> BitVec.toNat 3#3) := by decide +kernel

/-- The root at `A_MAX`, at 0 and just above `A_MAX`. -/
theorem witness_DecodeSplitFirstMicroStep :
    (BitVec.toNat 3#3 ≤ 3 ∧ BitVec.toNat 0#4 < 8 >>> BitVec.toNat 3#3) ∧
    ((rootFrame .dec 16 5).halt = false ∧ (rootFrame .dec 16 5).frame = true ∧
      (rootFrame .dec 16 5).fdir = .dec ∧
      ((rootFrame .dec 16 5).pulse 4 0).toNat ≤ (rootFrame .dec 16 5).params.aMax ∧
      (rootFrame .dec 16 5).pulse 4 0 ≠ 0) ∧
    (rootFrame .dec 0 5).pulse 4 0 = 0 ∧
    (rootFrame .dec 17 5).params.aMax < ((rootFrame .dec 17 5).pulse 4 0).toNat ∧
    ¬ ((framed .enc).frame = true ∧ (framed .enc).fdir = .dec) ∧
    ¬ (BitVec.toNat 2#3 ≤ 3 ∧ BitVec.toNat 2#4 < 8 >>> BitVec.toNat 2#3) := by decide +kernel

/-- The pending encode split of `ESPL 3, 0`. -/
def pendingEspl : State := { accepted (rootFrame .enc 16 16) (.espl 3 0) [7] with pend := true }

/-- `SENC` on the document's vector, its request at step `q` pending. -/
def pendingSenc (q : Fin 15) : State :=
  { accepted documentFrame.combineTree .senc [7] with pend := true, op := .enc, seq := q }

/-- `SDEC` with root 8, its request at step 0 pending. -/
def pendingSdec (answer : Word) : State :=
  { accepted (rootFrame .dec 8 0) (.sdec 8) [answer] with pend := true, op := .dec }

theorem witness_EncodeAnswerEndsTheSplit :
    (pendingEspl.turn = .coder ∧ pendingEspl.pend = true ∧
      pendingEspl.pendingSplit = some ⟨.enc, ⟨3, 0⟩, false⟩ ∧ pendingEspl.coderResponses = ⟨7⟩ :: []) ∧
    ((pendingSenc 14).turn = .coder ∧ (pendingSenc 14).pend = true ∧
      (pendingSenc 14).pendingSplit = some ⟨.enc, ⟨0, 7⟩, true⟩ ∧ (pendingSenc 14).coderResponses = ⟨7⟩ :: []) := by
  decide +kernel

/-- The least and the greatest symbol, in a single split and in a macro command. -/
theorem witness_DecodeAnswerWritesBothChildren :
    ((pendingDspl 4).Inv ∧ (pendingDspl 4).turn = .coder ∧ (pendingDspl 4).pend = true ∧
      (pendingDspl 4).pendingSplit = some ⟨.dec, ⟨2, 1⟩, false⟩ ∧ (pendingDspl 4).coderResponses = ⟨4⟩ :: [] ∧
      (4#16).toNat % 2 ^ (pendingDspl 4).params.ampBits ≤ ((pendingDspl 4).parent ⟨2, 1⟩).toNat) ∧
    ((pendingSdec 0).Inv ∧ (pendingSdec 0).turn = .coder ∧ (pendingSdec 0).pend = true ∧
      (pendingSdec 0).pendingSplit = some ⟨.dec, ⟨3, 0⟩, true⟩ ∧ (pendingSdec 0).coderResponses = ⟨0⟩ :: [] ∧
      (0#16).toNat % 2 ^ (pendingSdec 0).params.ampBits ≤ ((pendingSdec 0).parent ⟨3, 0⟩).toNat) :=
  ⟨⟨inv_of_check (by decide +kernel), by decide +kernel⟩, inv_of_check (by decide +kernel), by decide +kernel⟩

theorem witness_SymbolAboveParentTakesSym :
    (pendingDspl 5).turn = .coder ∧ (pendingDspl 5).pend = true ∧
    (pendingDspl 5).pendingSplit = some ⟨.dec, ⟨2, 1⟩, false⟩ ∧ (pendingDspl 5).coderResponses = ⟨5⟩ :: [] ∧
    ((pendingDspl 5).parent ⟨2, 1⟩).toNat < (5#16).toNat % 2 ^ (pendingDspl 5).params.ampBits := by decide +kernel

/-- A zero parent in a single split, with child1 0 and not 0, and in the macro commands. -/
theorem witness_ZeroParentSendsNothing :
    (isNode (BitVec.toNat 3#3) (BitVec.toNat 0#4) = true ∧ (rootFrame .enc 0 1).halt = false ∧
      (rootFrame .enc 0 1).pend = false ∧ (rootFrame .enc 0 1).parent ⟨3, 0⟩ = 0 ∧
      (rootFrame .enc 0 0).parent ⟨3, 0⟩ = 0 ∧ (rootFrame .enc 0 1).frameIs .enc = true) ∧
    ((rootFrame .dec 0 5).halt = false ∧ (rootFrame .dec 0 5).pend = false ∧
      (rootFrame .dec 0 5).parent ⟨3, 0⟩ = 0 ∧ (rootFrame .dec 0 5).frameIs .dec = true) ∧
    ({ pendingSenc 7 with pend := false }.halt = false ∧
      { pendingSenc 7 with pend := false }.parent (trav { pendingSenc 7 with pend := false }.seq) = 0 ∧
      { pendingSenc 7 with pend := false }.op = .enc) ∧
    ({ pendingSdec 0 with pend := false, seq := 14 }.parent (trav 14) = 0 ∧
      { pendingSdec 0 with pend := false, seq := 14 }.op = .dec ∧
      (Instr.sdec 8).wellFormed (pendingSdec 0).params.ampBits = true) := by decide +kernel

theorem witness_ParentComesBeforeChildren : (trav 1).lvl < 3 ∧ (trav 14).lvl < 3 := by decide

/-- The first micro-step with and without its frame; then a coded node, a skipped one, and the root above `A_MAX`. -/
theorem witness_EncodeMacroMicroSteps :
    (documentFrame.halt = false ∧ documentFrame.op = .idle ∧ documentFrame.frame = true ∧ documentFrame.fdir = .enc) ∧
    ((framed .dec).op = .idle ∧ ¬ ((framed .dec).frame = true ∧ (framed .dec).fdir = .enc)) ∧
    ((pendingSenc 0).op = .enc ∧ ((pendingSenc 0).parent (trav 0)).toNat ≤ (pendingSenc 0).params.aMax ∧
      ((pendingSenc 0).child1 (trav 0)).toNat ≤ ((pendingSenc 0).parent (trav 0)).toNat ∧
      (pendingSenc 0).parent (trav 0) ≠ 0) ∧
    ((pendingSenc 7).parent (trav 7) = 0 ∧ (pendingSenc 7).child1 (trav 7) = 0) ∧
    ({ rootFrame .enc 17 0 with op := .enc }.params.aMax <
      ({ rootFrame .enc 17 0 with op := .enc }.parent (trav 0)).toNat) := by decide +kernel

theorem witness_DecodeMacroMicroSteps :
    ((4095#16).toNat < 2 ^ ((framed .dec).params.ampBits + 4) ∧ (framed .dec).halt = false ∧
      (framed .dec).op = .idle ∧ (framed .dec).frame = true ∧ (framed .dec).fdir = .dec) ∧
    (bench.op = .idle ∧ ¬ (bench.frame = true ∧ bench.fdir = .dec)) ∧
    ((pendingSdec 0).op = .dec ∧ ((pendingSdec 0).parent (trav 0)).toNat ≤ (pendingSdec 0).params.aMax ∧
      (pendingSdec 0).parent (trav 0) ≠ 0) ∧
    { pendingSdec 0 with seq := 14 }.parent (trav 14) = 0 ∧
    { rootFrame .dec 17 0 with op := .dec }.params.aMax <
      ({ rootFrame .dec 17 0 with op := .dec }.parent (trav 0)).toNat ∧
    ¬ (4096#16).toNat < 2 ^ ((framed .dec).params.ampBits + 4) := by decide +kernel

/-- `SENC` accepted with leaf 15 at `v`, and sixteen answers ready. -/
def readySenc (v : Word) : State :=
  accepted (put (framed .enc) [(0, 15, v)]) .senc (List.replicate 16 0)

/-- `SDEC t` accepted. -/
def readySdec (t : Word) (answers : List Word) : State := accepted (framed .dec) (.sdec t) answers

/-- The total at `A_MAX`. -/
theorem witness_EncodeMacroRunsToItsEnd :
    (readySenc 16).ReadyFor .senc .enc ∧ (readySenc 16).leafSum ≤ (readySenc 16).params.aMax ∧
    (readySenc 16).combineTree.encodeRequests.length ≤ (readySenc 16).coderResponses.length :=
  ⟨readyFor_of_check (by decide +kernel), by decide +kernel, by decide +kernel⟩

theorem witness_TreeCallsForFourToFifteenRequests :
    (readySenc 1).WidthsFit ∧ (readySenc 1).leafSum ≠ 0 :=
  ⟨widthsFit_of_check (by decide) (by decide +kernel), by decide +kernel⟩

/-- Two states that agree in level 0 and differ above it. -/
theorem witness_EqualPulsesSendEqualRequests :
    (readySenc 16).ReadyFor .senc .enc ∧ (put (readySenc 16) [(2, 1, 5)]).ReadyFor .senc .enc ∧
    (put (readySenc 16) [(2, 1, 5)]).params = (readySenc 16).params ∧
    (∀ i, (put (readySenc 16) [(2, 1, 5)]).pulse 0 i = (readySenc 16).pulse 0 i) ∧
    (readySenc 16).leafSum ≤ (readySenc 16).params.aMax ∧ 15 ≤ (readySenc 16).coderResponses.length ∧
    15 ≤ (put (readySenc 16) [(2, 1, 5)]).coderResponses.length :=
  ⟨readyFor_of_check (by decide +kernel), readyFor_of_check (by decide +kernel), rfl, fun _ => rfl,
    by decide +kernel, by decide, by decide⟩

theorem witness_DecodeMacroRunsToItsEnd :
    (readySdec 16 (List.replicate 15 3)).ReadyFor (.sdec 16) .dec ∧
    (16#16).toNat ≤ (readySdec 16 (List.replicate 15 3)).params.aMax ∧
    15 ≤ (readySdec 16 (List.replicate 15 3)).coderResponses.length :=
  ⟨readyFor_of_check (by decide +kernel), by decide, by decide⟩

/-- `SENC` and `SDEC` just above `A_MAX` halt in the second step, and `SDEC` with the answer 2 for 1 in the third. -/
theorem witness_MacroFaultsOnlyAsStated :
    ((readySenc 17).ReadyFor .senc .enc ∧ (readySenc 17).hostWords = [] ∧
      ∃ u, runSteps 2 (readySenc 17) = .next u ∧ u.halt = true) ∧
    ((readySdec 17 []).ReadyFor (.sdec 17) .dec ∧ (readySdec 17 []).hostWords = [] ∧
      ∃ u, runSteps 2 (readySdec 17 []) = .next u ∧ u.halt = true) ∧
    ((readySdec 1 [2]).ReadyFor (.sdec 1) .dec ∧ (readySdec 1 [2]).hostWords = [] ∧
      ∃ u, runSteps 3 (readySdec 1 [2]) = .next u ∧ u.halt = true) :=
  ⟨⟨readyFor_of_check (by decide +kernel), by decide, next_of_seen (by decide +kernel)⟩,
    ⟨readyFor_of_check (by decide +kernel), by decide, next_of_seen (by decide +kernel)⟩,
    readyFor_of_check (by decide +kernel), by decide, next_of_seen (by decide +kernel)⟩

/-- One pulse: four requests, each with symbol 0 (V23), recorded by the run and answered on decode. -/
theorem witness_DecodeAfterEncodeGivesThePulsesBack :
    ((readySenc 1).ReadyFor .senc .enc ∧ (readySenc 1).leafSum ≤ (readySenc 1).params.aMax ∧
      15 ≤ (readySenc 1).coderResponses.length) ∧
    (readySdec 1 [0, 0, 0, 0]).params = (readySenc 1).params ∧ (1#16).toNat = (readySenc 1).leafSum ∧
    (readySdec 1 [0, 0, 0, 0]).ReadyFor (.sdec 1) .dec ∧
    ∃ t, runSteps 20 (readySenc 1) = .next t ∧ t.commandDone = true ∧
      (readySdec 1 [0, 0, 0, 0]).coderResponses =
        (requestsOf (eventsSince (readySenc 1) t)).map (fun r => ⟨r.sym⟩) ++ [] :=
  ⟨⟨readyFor_of_check (by decide +kernel), by decide +kernel, by decide⟩, rfl, by decide +kernel,
    readyFor_of_check (by decide +kernel), next_of_seen (by decide +kernel)⟩

theorem witness_FrameBeginOpensAFrame :
    bench.halt = false ∧ bench.frame = false ∧ (framed .dec).halt = false ∧ (framed .dec).frame = true := by decide

theorem witness_FrameEndClosesTheFrame :
    (framed .dec).halt = false ∧ (framed .dec).frame = true ∧ bench.halt = false ∧ bench.frame = false := by decide

/-- A request of each direction is sent. -/
theorem witness_EveryRequestIsLawful :
    (accepted (rootFrame .enc 16 16) (.espl 3 0) []).Inv ∧
    (∃ t, step (accepted (rootFrame .enc 16 16) (.espl 3 0) []) = .next t ∧
      (rootFrame .enc 16 16).requestFor .enc ⟨3, 0⟩ 16 ∈
        requestsOf (eventsSince (accepted (rootFrame .enc 16 16) (.espl 3 0) []) t)) ∧
    (accepted (rootFrame .dec 1 0) (.dspl 3 0) []).Inv ∧
    (∃ t, step (accepted (rootFrame .dec 1 0) (.dspl 3 0) []) = .next t ∧
      (rootFrame .dec 1 0).requestFor .dec ⟨3, 0⟩ 0 ∈
        requestsOf (eventsSince (accepted (rootFrame .dec 1 0) (.dspl 3 0) []) t)) :=
  ⟨inv_of_check (by decide +kernel), next_of_seen (by decide +kernel), inv_of_check (by decide +kernel),
    next_of_seen (by decide +kernel)⟩

theorem witness_CoderPinsChangeOnlyByFrameCommands :
    (∃ t, step (accepted (framed .dec) .fend []) = .next t ∧ t.ecOwn ≠ (accepted (framed .dec) .fend []).ecOwn) ∧
    (∃ t, step (accepted bench (.fbeg .dec) []) = .next t ∧ t.ecDir ≠ (accepted bench (.fbeg .dec) []).ecDir) ∧
    (∃ t, step { framed .dec with schedule := [.reset] } = .next t ∧
      t.ecOwn ≠ { framed .dec with schedule := [.reset] }.ecOwn) :=
  ⟨next_of_seen (by decide +kernel), next_of_seen (by decide +kernel), next_of_seen (by decide +kernel)⟩

theorem witness_LawfulRowsAreStrictlyDecreasing :
    benchParams.lawful = true ∧ 3 < 4 ∧ 1 ≤ 16 ∧ 16 ≤ benchParams.aMax ∧ 1 ≤ benchParams.aMax := by decide +kernel

theorem witness_MalformedConfigurationIsRefused :
    { benchParams with aMax := 17 }.lawful = false ∧ benchParams.lawful = true := by decide +kernel

/-- The first and the last byte of a row. -/
theorem witness_RowPortGivesTheRow :
    (pendingDspl 0).pend = true ∧ (pendingDspl 0).pendingSplit = some ⟨.dec, ⟨2, 1⟩, false⟩ ∧
    0 ≤ ((pendingDspl 0).parent ⟨2, 1⟩).toNat ∧ 4 ≤ ((pendingDspl 0).parent ⟨2, 1⟩).toNat := by decide +kernel

theorem witness_WrongFrameTakesMode :
    (bench.halt = false ∧ (Instr.espl 0 0).wellFormed bench.params.ampBits = true ∧
      ¬ (bench.frame = true ∧ bench.fdir = .enc)) ∧
    ((framed .dec).halt = false ∧ (framed .dec).op = .idle ∧
      ¬ ((framed .dec).frame = true ∧ (framed .dec).fdir = .enc)) ∧
    ((framed .enc).halt = false ∧ (Instr.dspl 0 0).wellFormed (framed .enc).params.ampBits = true ∧
      (Instr.sdec 1).wellFormed (framed .enc).params.ampBits = true ∧
      ¬ ((framed .enc).frame = true ∧ (framed .enc).fdir = .dec)) ∧
    (framed .enc).frame = true ∧ bench.frame = false := by decide

theorem witness_HaltedBlockAnswersTheRecordedCause :
    ((accepted (halted .range) .nop []).halt = true ∧ (accepted (halted .range) .nop []).turn = .core ∧
      (accepted (halted .range) .nop []).pend = false ∧ (accepted (halted .range) .nop []).cur = some 0 ∧
      decode (halted .range).params.ampBits 0 = .ok .nop) ∧
    decode (halted .range).params.ampBits 0x20F00000 = .ok (.rd 0 15) ∧
    decode (halted .range).params.ampBits 0x30000000 = .ok .rds ∧
    (decode (halted .range).params.ampBits 0xC0000000 ≠ .ok .nop ∧
      (∀ k i, decode (halted .range).params.ampBits 0xC0000000 ≠ .ok (.rd k i)) ∧
      decode (halted .range).params.ampBits 0xC0000000 ≠ .ok .rds) := by
  have h : decode (halted .range).params.ampBits 0xC0000000 = .error .reservedOpcode := by decide
  refine ⟨by decide, by decide, by decide, ?_⟩
  rw [h]
  exact ⟨nofun, fun _ _ => nofun, nofun⟩

/-- Each cause: the word, the frame, the range, the order and the symbol. -/
theorem witness_FaultEntryRecordsTheCauseAndNothingElse :
    (bench.placeCommand 0xC0000000).halt = false ∧
    (∃ t, step (bench.placeCommand 0xC0000000) = .next t ∧ t.halt = true) ∧
    (∃ t, step (accepted bench .fend []) = .next t ∧ t.halt = true) ∧
    (∃ t, step (accepted (rootFrame .dec 17 0) (.dspl 3 0) []) = .next t ∧ t.halt = true) ∧
    (∃ t, step (accepted (rootFrame .enc 0 1) (.espl 3 0) []) = .next t ∧ t.halt = true) ∧
    (∃ t, step (pendingSdec 9) = .next t ∧ t.halt = true) :=
  ⟨by decide, next_of_seen (by decide +kernel), next_of_seen (by decide +kernel), next_of_seen (by decide +kernel),
    next_of_seen (by decide +kernel), next_of_seen (by decide +kernel)⟩

theorem witness_OnlyResetLeavesTheHaltedState :
    (accepted (halted .order) .fend []).halt = true ∧ (accepted (halted .order) .fend []).pend = false ∧
    (∃ t, step (accepted (halted .order) .fend []) = .next t ∧ t.cur = none) ∧
    (accepted (halted .order) .fend []).turn ≠ .reset :=
  ⟨by decide, by decide, next_of_seen (by decide +kernel), by decide⟩

/-- A change by the core's turn, by the coder's turn and by a reset. -/
theorem witness_OnlyTheirWritersChangePulses :
    (∃ t, step (accepted bench (.wr 0 0 1) []) = .next t ∧ t.pulses ≠ (accepted bench (.wr 0 0 1) []).pulses) ∧
    (∃ t, step (pendingSdec 3) = .next t ∧ t.pulses ≠ (pendingSdec 3).pulses) ∧
    (∃ t, step { documentVector with schedule := [.reset] } = .next t ∧
      t.pulses ≠ { documentVector with schedule := [.reset] }.pulses) :=
  ⟨next_of_seen (by decide +kernel), next_of_seen (by decide +kernel), next_of_seen (by decide +kernel)⟩

theorem witness_OnlyMacrosChangeTheSequencer :
    (∃ t, step (readySenc 1) = .next t ∧ t.op ≠ (readySenc 1).op) ∧
    (∃ t, step (pendingSdec 3) = .next t ∧ t.seq ≠ (pendingSdec 3).seq) ∧
    (∃ t, step { pendingSdec 3 with schedule := [.reset] } = .next t ∧
      t.op ≠ { pendingSdec 3 with schedule := [.reset] }.op) :=
  ⟨next_of_seen (by decide +kernel), next_of_seen (by decide +kernel), next_of_seen (by decide +kernel)⟩

theorem witness_UnreachableStatesStopByName :
    ({ bench with op := .dec }.halt = false ∧ { bench with op := .dec }.op = .dec) ∧
    ({ bench with op := .enc }.halt = false ∧ { bench with op := .enc }.op = .enc ∧
      (Instr.sdec 0).wellFormed bench.params.ampBits = true) ∧
    ({ accepted bench .rds [1] with pend := true }.turn = .coder ∧
      { accepted bench .rds [1] with pend := true }.pend = true ∧
      { accepted bench .rds [1] with pend := true }.pendingSplit = none ∧
      { accepted bench .rds [1] with pend := true }.coderResponses = ⟨1⟩ :: []) := by decide +kernel

theorem witness_IllFormedCommandTakesIll :
    (Instr.rd 5 0).wellFormed bench.params.ampBits = false ∧ bench.halt = false ∧ (halted .sym).halt = true ∧
    (Instr.sdec 4096).wellFormed (halted .sym).params.ampBits = false := by decide

/-- An idle state, and one with a request pending inside a macro command. -/
theorem witness_StepKeepsTheInvariant :
    (accepted bench .cmbt []).Inv ∧ (∃ t, step (accepted bench .cmbt []) = .next t ∧ t.cur = none) ∧
    (pendingSdec 3).Inv ∧ ∃ t, step (pendingSdec 3) = .next t ∧ t.seq = 1 :=
  ⟨inv_of_check (by decide +kernel), next_of_seen (by decide +kernel), inv_of_check (by decide +kernel),
    next_of_seen (by decide +kernel)⟩

/-- `State.MacroInv`, as a check over the 15 nodes. -/
def macroInvCheck (s : State) : Bool :=
  let sums := fun nd => decide ((s.child1 nd).toNat + (s.child2 nd).toNat = (s.parent nd).toNat)
  let root := decide ((s.pulse 4 0).toNat ≤ s.params.aMax)
  invCheck s && (decide (s.op ≠ .enc) || (List.range 4).all fun l => (List.range 8).all fun j => !isNode l j || sums ⟨l, j⟩)
    && (decide (s.op ≠ .dec) || (List.finRange 15).all fun q => !decide (q < s.seq) || sums (trav q))
    && (decide (s.op = .idle) || (decide (s.seq = 0) && !s.pend) || root) && (decide (s.op = .idle) || !s.halt)

theorem macroInv_of_check {s : State} (h : macroInvCheck s = true) : s.MacroInv := by
  simp only [macroInvCheck, Bool.and_eq_true, Bool.or_eq_true, Bool.not_eq_true', decide_eq_true_eq,
    List.all_eq_true, List.mem_range, List.mem_finRange, decide_eq_false_iff_not] at h
  obtain ⟨⟨⟨⟨hi, he⟩, hd⟩, hr⟩, hh⟩ := h
  refine ⟨inv_of_check hi, fun e l j hn => ?_, fun e q hq => ?_, fun e hs => ?_, fun e hf => ?_⟩
  · have hb : l < 4 ∧ j < 8 := by rcases isNode_cases hn with h | h | h | h <;> omega
    rcases (he.resolve_left (not_not_intro e)) l hb.1 j hb.2 with h | h
    · rw [hn] at h; cases h
    · exact h
  · exact (hd.resolve_left (not_not_intro e) q trivial).resolve_left (not_not_intro hq)
  · rcases hr with (h | ⟨h1, h2⟩) | h
    · exact absurd h e
    · rcases hs with hs | hs
      · exact absurd h1 hs
      · rw [hs] at h2; cases h2
    · exact h
  · rcases hh with h | h
    · exact absurd h e
    · rw [hf] at h; cases h

/-- `SENC` and `SDEC` with a request pending, and `SDEC` past its first split. -/
theorem witness_StepKeepsTheMacroInvariant :
    (pendingSenc 4).MacroInv ∧ (∃ t, step (pendingSenc 4) = .next t ∧ t.seq = 5) ∧
    (pendingSdec 3).MacroInv ∧ (∃ t, step (pendingSdec 3) = .next t ∧ t.seq = 1) ∧
    { put (pendingSdec 3) [(3, 0, 8)] with seq := 1 }.MacroInv :=
  ⟨macroInv_of_check (by decide +kernel), next_of_seen (by decide +kernel), macroInv_of_check (by decide +kernel),
    next_of_seen (by decide +kernel), macroInv_of_check (by decide +kernel)⟩

theorem witness_NoStepStopsUnderTheInvariant : (pendingSenc 14).Inv ∧ (halted .ill).Inv :=
  ⟨inv_of_check (by decide +kernel), inv_of_check (by decide +kernel)⟩

end Sys2Proof.Tests
end

section
/-! PROOF. The reset step (10_state.md R35, R39), with the facts about it and about what a step observes that the
statement on reset is assembled from. -/

namespace Sys2Proof.Machine

variable {s t : State}

/-- A row of zeros reads 0 inside its range and, by the default, outside it. -/
theorem getD_replicate_zero (n i : Nat) : (Vector.replicate n (0 : Word))[i]?.getD 0 = 0 := by
  rw [Vector.getElem?_replicate]
  split <;> rfl

/-- Every pulse register of the cleared file is 0, and so is what is read where no register is. -/
@[simp] theorem PulseFile.read_zero (k i : Nat) : PulseFile.zero.read k i = 0 :=
  match k with
  | 0 | 1 | 2 | 3 | 4 => getD_replicate_zero _ i
  | _ + 5 => rfl

@[simp] theorem State.resetBlock_pulse (s : State) (k i : Nat) : s.resetBlock.pulse k i = 0 :=
  PulseFile.read_zero k i

/-- `STATUS` is 0 once the fields that it shows are (10_state.md R29). -/
@[simp] theorem State.resetBlock_status (s : State) : s.resetBlock.status = 0 := by
  simp [State.status, Op.code, Cause.code, Dir.bit]

/-- What is appended to the trace is what has been observed since. -/
theorem eventsSince_of_trace_append {es : List Event} (h : t.trace = s.trace ++ es) : eventsSince s t = es := by
  simp [eventsSince, h]

/-- A reset turn is enabled in every state (10_state.md R39). -/
theorem step_reset (h : s.turn = .reset) : step s = .next s.popTurn.resetBlock := by
  simp [step, h, runTurn, resetTurn]

/-- A reset step observes the reset, and neither a response nor a request. -/
theorem eventsSince_popTurn_resetBlock (s : State) : eventsSince s s.popTurn.resetBlock = [.reset] :=
  eventsSince_of_trace_append (by simp)

/-- Settles O11: the step is `resetBlock`, whose fields are the reset values and whose one event is the reset. -/
theorem resetStepClearsTheBlock : Obligations.ResetStepClearsTheBlock := by
  intro s hs
  refine ⟨s.popTurn.resetBlock, step_reset hs, ?_⟩
  simp [eventsSince_popTurn_resetBlock, responsesOf, requestsOf]

end Sys2Proof.Machine
end

section
/-! PROOF. `Decode` by its four outcomes (30_encoding.md R73, R76), and the encoding examples (R80). -/

namespace Sys2Proof

variable {n : Nat} {w : CommandWord} {i : Instr}

/-- An opcode of no command is reserved. -/
theorem decode_of_reservedOpcode (hcmd : commandOf w = none) : decode n w = .error .reservedOpcode := by
  simp [decode, hcmd]

theorem decode_of_nonzeroField (hcmd : commandOf w = some i) (hrow : i.row.selects w = false) :
    decode n w = .error .nonzeroField := by
  simp [decode, hcmd, hrow]

theorem decode_of_outOfRange (hcmd : commandOf w = some i) (hrow : i.row.selects w = true)
    (hrange : i.wellFormed n = false) : decode n w = .error .outOfRange := by
  simp [decode, hcmd, hrow, hrange]

/-- A legal word: the opcode selects the command, the word has the bits of its row, and the operands are in range. -/
theorem decode_eq_ok_iff :
    decode n w = .ok i ↔ commandOf w = some i ∧ i.row.selects w = true ∧ i.wellFormed n = true := by
  constructor
  · intro h
    unfold decode at h
    split at h
    next => cases h
    next j hcmd =>
      split at h
      next hrow =>
        split at h
        next hrange => cases h; exact ⟨hcmd, hrow, hrange⟩
        next => cases h
      next => cases h
  · rintro ⟨hcmd, hrow, hrange⟩
    simp [decode, hcmd, hrow, hrange]

/-- Settles O1: each illegal example by the command that its opcode names and the condition it misses, each legal one by
the conditions on its fields. -/
theorem writtenWordsDecode : Obligations.WrittenWordsDecode := by
  have hreserved : decode 8 0xC0000000 = .error .reservedOpcode := decode_of_reservedOpcode (by decide)
  have hcmb : decode 8 0x40000000 = .error .outOfRange := decode_of_outOfRange (i := .cmb 0) rfl rfl rfl
  have hrd : decode 8 0x22400000 = .error .outOfRange := decode_of_outOfRange (i := .rd 2 4) rfl rfl rfl
  have hwr : decode 8 0x10000100 = .error .outOfRange := decode_of_outOfRange (i := .wr 0 0 256) rfl rfl rfl
  have hz27 : decode 8 0x68000000 = .error .nonzeroField := decode_of_nonzeroField (i := .espl 0 0) rfl rfl
  have hz16 : decode 8 0x50010000 = .error .nonzeroField := decode_of_nonzeroField (i := .cmbt) rfl rfl
  simp only [Obligations.WrittenWordsDecode, hreserved, hcmb, hrd, hwr, hz27, hz16, decode_eq_ok_iff]
  decide

end Sys2Proof
end

section
/-! PROOF. How a command ends without data, and the illegal words of a command: the states that the statements write out
(`endsWith`, `haltsWith`, `IllegalWord`) are those of the model's own operations. -/

namespace Sys2Proof

/-- The command that a word's opcode names is the one the word was made from (30_encoding.md R71, R75). -/
@[simp] theorem commandOf_encode (i : Instr) : commandOf (encode i) = some i := by
  cases i with
  | fbeg dir => cases dir <;> rfl
  | nop | rds | cmbt | senc | fend => rfl
  | wr | rd | cmb | espl | dspl | sdec => simp [commandOf, encode]

/-- The word of a command has every bit that its row fixes (30_encoding.md R75). -/
@[simp] theorem row_selects_encode (i : Instr) : i.row.selects (encode i) = true :=
  open Laws.EncodedRow in
  match i with
  | .nop => nop.1
  | .wr k i v => (wr k i v).1
  | .rd k i => (rd k i).1
  | .rds => rds.1
  | .cmb k => (cmb k).1
  | .cmbt => cmbt.1
  | .espl l j => (espl l j).1
  | .dspl l j => (dspl l j).1
  | .senc => senc.1
  | .sdec t => (sdec t).1
  | .fbeg dir => (fbeg dir).1
  | .fend => fend.1

end Sys2Proof

namespace Sys2Proof.Machine

variable {s : State} {n : Nat} {i : Instr}

/-- A response without data is its code and 28 zeros (30_encoding.md R74). -/
theorem responseWord_zero (rc : BitVec 4) : responseWord rc 0 = rc ++ 0#28 := by
  revert rc; decide

theorem State.done_eq_endsWith (s : State) : s.done = s.endsWith 0 := rfl

theorem State.refuseHalted_eq_endsWith (s : State) :
    s.refuseHalted = s.endsWith (s.cause.code.setWidth 4 ++ 0#28) := by
  simp only [State.refuseHalted, State.respond, State.endsWith, responseWord_zero]

theorem State.takeFault_eq_haltsWith (s : State) (c : Cause) :
    s.takeFault c = s.haltsWith c (c.code.setWidth 4 ++ 0#28) := by
  simp only [State.takeFault, State.respond, State.haltsWith, responseWord_zero]

/-- A word that decodes to no command is illegal: the core that finds it takes `ILL` (60_exceptions.md R173). -/
theorem illegalWord_of_decode_error {w : CommandWord} {e : DecodeError} (h : decode n w = .error e) :
    IllegalWord n w where
  noCommand := ⟨e, h⟩
  raisesIll s hn hhalt hpend hcur := by
    subst hn
    simp [coreTurn, hpend, hcur, h, State.illegalWord, hhalt, State.takeFault_eq_haltsWith, Cause.code]

/-- A command with an operand out of range has an illegal word (30_encoding.md R76). -/
theorem illegalWord_encode (h : i.wellFormed n = false) : IllegalWord n (encode i) :=
  illegalWord_of_decode_error (decode_of_outOfRange (commandOf_encode i) (row_selects_encode i) h)

end Sys2Proof.Machine
end

section
/-! PROOF. The sum invariant (40_combiner.md R96): where both children of every node add up to their parent, every register
is the sum of its leaves and none exceeds the root. -/

namespace Sys2Proof.Machine

variable {s : State} {k i : Nat}

/-- A register above level 0 is the parent of a node (41_split_codec.md R100). -/
theorem isNode_of_isRegister_succ (h : isRegister (k + 1) i = true) : isNode k i = true := by
  rw [isNode_iff, nodesAt]
  rcases isRegister_cases h with ⟨hk, hi⟩ | ⟨hk, hi⟩ | ⟨hk, hi⟩ | ⟨hk, hi⟩ | ⟨hk, hi⟩
  · omega
  all_goals
    obtain rfl := Nat.succ_injective hk
    exact ⟨by omega, hi⟩

/-- A register below the root is a child of a node (41_split_codec.md R100). -/
theorem isNode_div_two (hk : k ≤ 3) (h : isRegister k i = true) : isNode k (i / 2) = true := by
  rw [isNode_iff, nodesAt]
  refine ⟨hk, ?_⟩
  rcases isRegister_cases h with ⟨rfl, hi⟩ | ⟨rfl, hi⟩ | ⟨rfl, hi⟩ | ⟨rfl, hi⟩ | ⟨rfl, hi⟩ <;> simp <;> omega

/-- The total of the `2^k` leaves under register `i` of level `k` (40_combiner.md R96). -/
def State.leavesUnder (s : State) (k i : Nat) : Nat :=
  ((List.range (2 ^ k)).map fun d => (s.pulse 0 (i * 2 ^ k + d)).toNat).sum

theorem State.leavesUnder_zero (s : State) (i : Nat) : s.leavesUnder 0 i = (s.pulse 0 i).toNat := by
  simp [State.leavesUnder]

/-- The leaves under a parent are those under its two children. -/
theorem State.leavesUnder_succ (s : State) (k i : Nat) :
    s.leavesUnder (k + 1) i = s.leavesUnder k (2 * i) + s.leavesUnder k (2 * i + 1) := by
  have hleft : i * (2 ^ k + 2 ^ k) = 2 * i * 2 ^ k := by ring
  have hright (d : Nat) : 2 * i * 2 ^ k + (2 ^ k + d) = (2 * i + 1) * 2 ^ k + d := by ring
  simp only [State.leavesUnder, Nat.two_pow_succ, List.range_add, List.map_append, List.map_map, List.sum_append,
    Function.comp_def, hleft, hright]

theorem State.leavesUnder_root (s : State) : s.leavesUnder 4 0 = s.leafSum := by
  simp [State.leavesUnder, State.leafSum]

section
variable (hsum : s.sumsEverywhere)
include hsum

theorem State.sumsEverywhere.child1_le {nd : Node} (h : isNode nd.lvl nd.idx = true) :
    (s.child1 nd).toNat ≤ (s.parent nd).toNat :=
  Nat.le.intro (hsum _ _ h)

theorem State.sumsEverywhere.child2_le {nd : Node} (h : isNode nd.lvl nd.idx = true) :
    (s.child2 nd).toNat ≤ (s.parent nd).toNat :=
  Nat.le.intro ((Nat.add_comm _ _).trans (hsum _ _ h))

/-- Every register is the sum of its leaves, by induction on the level: a parent is the sum of its children, and its leaves
are theirs. -/
theorem State.sumsEverywhere.pulse_eq_leavesUnder (h : isRegister k i = true) :
    (s.pulse k i).toNat = s.leavesUnder k i := by
  induction k generalizing i with
  | zero => exact (s.leavesUnder_zero i).symm
  | succ k ih =>
    have hnode := isNode_of_isRegister_succ h
    obtain ⟨-, hchild1, hchild2⟩ := isNode_registers hnode
    rw [s.leavesUnder_succ, ← ih hchild1, ← ih hchild2]
    exact (hsum k i hnode).symm

/-- A register below the root is at most the parent of the node it is a child of. -/
theorem State.sumsEverywhere.pulse_le_parent (hk : k ≤ 3) (h : isRegister k i = true) :
    (s.pulse k i).toNat ≤ (s.pulse (k + 1) (i / 2)).toNat := by
  have hnode := isNode_div_two hk h
  rcases Nat.mod_two_eq_zero_or_one i with heven | hodd
  · have hi : 2 * (i / 2) = i := by omega
    simpa [State.child1, State.parent, hi] using hsum.child1_le (nd := ⟨k, i / 2⟩) hnode
  · have hi : 2 * (i / 2) + 1 = i := by omega
    simpa [State.child2, State.parent, hi] using hsum.child2_le (nd := ⟨k, i / 2⟩) hnode

/-- No register exceeds the root, by induction on the number `d` of levels between them. -/
theorem State.sumsEverywhere.pulse_le_root {d : Nat} (hd : k + d = 4) (h : isRegister k i = true) :
    (s.pulse k i).toNat ≤ (s.pulse 4 0).toNat := by
  induction d generalizing k i with
  | zero =>
    obtain rfl : k = 4 := hd
    obtain rfl : i = 0 := Nat.lt_one_iff.mp ((isRegister_iff 4 i).mp h).2
    exact le_rfl
  | succ d ih =>
    have hk : k ≤ 3 := by omega
    obtain ⟨hparent, -, -⟩ := isNode_registers (isNode_div_two hk h)
    exact (hsum.pulse_le_parent hk h).trans (ih (by omega) hparent)

end

end Sys2Proof.Machine
end

section
/-! PROOF. The pulse-tree combiner (40_combiner.md R92 to R96). The one fact of arithmetic is that a sum of two registers of
level `k - 1` fits the width of level `k`, so no adder loses a carry. -/

namespace Sys2Proof.Machine

variable {s : State} {k i : Nat}

/-! ## The registers after the combiner -/

/-- `CMB k` stores the exact sum of each pair (40_combiner.md R91, R92). -/
theorem State.WidthsFit.read_combineLevel (hfit : s.WidthsFit) (hk : 1 ≤ k) (h : isRegister k i = true) :
    ((s.pulses.combineLevel s.params.ampBits k).read k i).toNat =
      (s.pulse (k - 1) (2 * i)).toNat + (s.pulse (k - 1) (2 * i + 1)).toNat := by
  obtain ⟨hk4, -⟩ := (isRegister_iff k i).mp h
  have hnarrow := hfit.narrow
  rw [PulseFile.read_combineLevel _ _ hk h, show s.params.ampBits + k = s.params.ampBits + (k - 1) + 1 by omega]
  exact fit_add_toNat (by omega) (hfit.fits _ _) (hfit.fits _ _)

/-- Every register is within its width after the whole tree: a leaf has not changed, a sum was cut to its width, and
elsewhere there is no register (10_state.md R20). -/
theorem State.WidthsFit.combineTree (hfit : s.WidthsFit) : s.combineTree.WidthsFit where
  narrow := hfit.narrow
  fits k i := by
    simp only [State.pulse, State.combineTree_pulses, State.combineTree_params]
    cases k with
    | zero => exact hfit.fits 0 i
    | succ k =>
      cases h : isRegister (k + 1) i with
      | false => rw [PulseFile.read_of_not_register _ h]; exact Nat.two_pow_pos _
      | true => rw [PulseFile.read_combineTree _ _ (by omega) h]; exact fit_lt _ _

/-- The whole tree adds exactly: each register above the leaves is the sum of the new values of its pair
(40_combiner.md R93). -/
theorem State.WidthsFit.combineTree_pulse (hfit : s.WidthsFit) (hk : 1 ≤ k) (h : isRegister k i = true) :
    (s.combineTree.pulse k i).toNat =
      (s.combineTree.pulse (k - 1) (2 * i)).toNat + (s.combineTree.pulse (k - 1) (2 * i + 1)).toNat := by
  obtain ⟨hk4, -⟩ := (isRegister_iff k i).mp h
  have hnarrow := hfit.narrow
  have hnew := hfit.combineTree.fits (k - 1)
  rw [State.pulse, State.combineTree_pulses, PulseFile.read_combineTree _ _ hk h,
    show s.params.ampBits + k = s.params.ampBits + (k - 1) + 1 by omega]
  exact fit_add_toNat (by omega) (hnew _) (hnew _)

/-- The whole tree establishes the sum invariant (40_combiner.md R96). -/
theorem State.WidthsFit.combineTree_sumsEverywhere (hfit : s.WidthsFit) : s.combineTree.sumsEverywhere := by
  intro l j hnode
  obtain ⟨hparent, -, -⟩ := isNode_registers hnode
  exact (hfit.combineTree_pulse (Nat.le_add_left 1 l) hparent).symm

/-! ## The commands -/

theorem exec_cmb {k : BitVec 3} (hrun : s.halt = false) (hk : 1 ≤ k.toNat ∧ k.toNat ≤ 4) :
    exec (.cmb k) s = .next (s.combineLevel k.toNat).done := by
  simp [exec, execCmb, hrun, (Instr.wellFormed_cmb_iff _ k).mpr hk]

theorem exec_cmbt (hrun : s.halt = false) : exec .cmbt s = .next s.combineTree.done := by
  simp [exec, execCmbt, hrun]

/-- The combine phase of `SENC` (42_shell_sequencer.md R122). -/
theorem exec_senc_combinePhase (hrun : s.halt = false) (hidle : s.op = .idle) (hframe : s.frameIs .enc = true) :
    exec .senc s = .next { s.combineTree with op := .enc, seq := 0 } := by
  simp [exec, execSenc, hrun, hidle, hframe]

theorem exec_cmb_halted {k : BitVec 3} (hhalt : s.halt = true) : exec (.cmb k) s = .next s.refuseHalted :=
  whenRunning_of_halted hhalt

theorem exec_cmbt_halted (hhalt : s.halt = true) : exec .cmbt s = .next s.refuseHalted :=
  whenRunning_of_halted hhalt

/-- The word of `CMB k` (30_encoding.md R71). -/
theorem encode_cmb (k : BitVec 3) : encode (.cmb k) = 0x4#4 ++ 0#1 ++ k ++ 0#24 := by
  revert k; decide

/-! ## The statements -/

/-- Settles O19: the row of adders is exact on registers within their widths and reads back its own level only; out of
range the word is illegal as that of every command is. -/
theorem combineLevelAddsPairs : Obligations.CombineLevelAddsPairs := by
  intro s k
  refine ⟨encode_cmb k, fun hk => ⟨fun hrun hfit => ?_, fun hhalt => ?_⟩, fun hk => ?_⟩
  · refine ⟨s.pulses.combineLevel s.params.ampBits k.toNat, exec_cmb hrun hk, fun i hi => ?_, fun k' i hk' => ?_⟩
    · exact hfit.read_combineLevel hk.1 ((isRegister_iff _ i).mpr ⟨hk.2, hi⟩)
    · exact PulseFile.read_combineLevel_other _ _ i hk'
  · rw [exec_cmb_halted hhalt, State.refuseHalted_eq_endsWith]
  · rw [← Instr.wellFormed_cmb_iff s.params.ampBits, Bool.not_eq_true] at hk
    exact illegalWord_encode hk

/-- Settles O20: the leaves are kept, and above them every register is the exact sum of the new values of its pair. -/
theorem combineTreeAddsFromTheLeaves : Obligations.CombineTreeAddsFromTheLeaves := by
  refine ⟨by decide, fun s => ⟨fun hrun hfit => ?_, fun hhalt => ?_⟩⟩
  · refine ⟨s.pulses.combineTree s.params.ampBits, exec_cmbt hrun, PulseFile.read_combineTree_leaf _ _, ?_⟩
    intro k i hk hk4 hi
    exact hfit.combineTree_pulse hk ((isRegister_iff k i).mpr ⟨hk4, hi⟩)
  · rw [exec_cmbt_halted hhalt, State.refuseHalted_eq_endsWith]

/-- Settles O21: each command answers, so the block is not halted before the next one, and the whole tree is the four rows
in turn. -/
theorem combineTreeIsTheFourLevelsInTurn : Obligations.CombineTreeIsTheFourLevelsInTurn := by
  intro s hrun
  exact ⟨_, _, _, _, _, exec_cmb hrun (by decide), exec_cmb hrun (by decide), exec_cmb hrun (by decide),
    exec_cmb hrun (by decide), exec_cmbt hrun, PulseFile.combineTree_eq s.params.ampBits s.pulses⟩

/-- Settles O22: both commands leave the registers of the whole tree, where the sum invariant holds; what R96 says besides
follows from the invariant. -/
theorem combineTreeMeetsTheSumInvariant : Obligations.CombineTreeMeetsTheSumInvariant := by
  intro s hrun hfit
  have hsum : s.combineTree.done.sumsEverywhere := hfit.combineTree_sumsEverywhere
  refine ⟨s.combineTree.done, exec_cmbt hrun, fun hidle hframe => ⟨_, exec_senc_combinePhase hrun hidle hframe, rfl⟩,
    hsum, fun l j hnode => hsum.child1_le hnode, fun k i hreg => hsum.pulse_eq_leavesUnder hreg, ?_, fun k i hreg => ?_⟩
  · rw [hsum.pulse_eq_leavesUnder (by decide), State.leavesUnder_root]
  · obtain ⟨hk4, -⟩ := (isRegister_iff k i).mp hreg
    exact hsum.pulse_le_root (Nat.add_sub_cancel' hk4) hreg

end Sys2Proof.Machine
end

section
/-! PROOF. A split whose parent is 0 (41_split_codec.md R107): `SplitBegin` has only three ends left, none of them a request,
and on decode it writes 0 to both children. -/

namespace Sys2Proof.Machine

variable {s t : State} {nd : Node} {l : BitVec 3} {j : BitVec 4}

/-! ## A zero parent -/

/-- A zero parent is in range of every table (60_exceptions.md R175). -/
theorem State.overRange_of_zeroParent (hzero : s.parent nd = 0) : s.overRange nd = false := by
  simp [State.overRange, hzero]

/-- On encode the split ends, or child1 exceeds the zero parent (41_split_codec.md R101). -/
theorem splitBegin_enc_of_zeroParent (m : Bool) (hzero : s.parent nd = 0) :
    splitBegin .enc nd m s = s.splitDone m ∨ splitBegin .enc nd m s = s.takeFault .order := by
  have hrange := State.overRange_of_zeroParent hzero
  rcases splitBegin_cases .enc nd m s with ⟨hover, -⟩ | ⟨-, -, -, hfault⟩ | ⟨-, -, -, -, hdone⟩ | ⟨-, hdir, -⟩ |
    ⟨-, -, hne, -⟩
  · simp [hrange] at hover
  · exact .inr hfault
  · exact .inl hdone
  · cases hdir
  · exact absurd hzero hne

/-- On decode both children are written and the split ends (41_split_codec.md R101). -/
theorem splitBegin_dec_of_zeroParent (m : Bool) (hzero : s.parent nd = 0) :
    splitBegin .dec nd m s = (s.writeChildren nd 0 0).splitDone m := by
  have hrange := State.overRange_of_zeroParent hzero
  rcases splitBegin_cases .dec nd m s with ⟨hover, -⟩ | ⟨-, hdir, -⟩ | ⟨-, hdir, -⟩ | ⟨-, -, -, hdone⟩ |
    ⟨-, -, hne, -⟩
  · simp [hrange] at hover
  · cases hdir
  · cases hdir
  · exact hdone
  · exact absurd hzero hne

/-! ## What is read after a zero is written -/

/-- A written 0 is read back, and where there is no register the read is 0 anyway. -/
theorem PulseFile.read_write_zero (n : Nat) (f : PulseFile) (k i : Nat) : (f.write n k i 0).read k i = 0 := by
  cases h : isRegister k i with
  | true => rw [PulseFile.read_write_same n f 0 h, fit_of_lt (Nat.two_pow_pos _)]
  | false => exact PulseFile.read_of_not_register _ h

theorem State.child1_writeChildren_zero (s : State) (nd : Node) (c2 : Word) :
    (s.writeChildren nd 0 c2).child1 nd = 0 := by
  rw [State.child1, State.pulse, State.writeChildren_pulses, PulseFile.read_write_other _ _ _ (by omega)]
  exact PulseFile.read_write_zero _ _ _ _

theorem State.child2_writeChildren_zero (s : State) (nd : Node) (c1 : Word) :
    (s.writeChildren nd c1 0).child2 nd = 0 :=
  PulseFile.read_write_zero _ _ _ _

@[simp] theorem State.splitDone_pulse (s : State) (m : Bool) (k i : Nat) : (s.splitDone m).pulse k i = s.pulse k i := by
  simp [State.pulse]

@[simp] theorem State.splitDone_child1 (s : State) (m : Bool) (nd : Node) :
    (s.splitDone m).child1 nd = s.child1 nd := by
  simp [State.child1]

@[simp] theorem State.splitDone_child2 (s : State) (m : Bool) (nd : Node) :
    (s.splitDone m).child2 nd = s.child2 nd := by
  simp [State.child2]

/-! ## Ends of a split that send nothing -/

/-- A response is no request. -/
theorem requestsOf_of_trace_respond {w : CommandWord} (h : t.trace = s.trace ++ [.respond w]) :
    requestsOf (eventsSince s t) = [] := by
  simp [eventsSince_of_trace_append h, requestsOf]

theorem requestsOf_of_trace_eq (h : t.trace = s.trace) : requestsOf (eventsSince s t) = [] := by
  simp [eventsSince, h, requestsOf]

/-- `SplitDone` goes on without an event or answers the host (41_split_codec.md R110, 42_shell_sequencer.md R124). -/
theorem State.splitDone_trace (s : State) (m : Bool) :
    (s.splitDone m).trace = s.trace ∨ (s.splitDone m).trace = s.trace ++ [.respond (responseWord 0 0)] := by
  cases m with
  | false => exact .inr rfl
  | true =>
    rcases advance_cases s with ⟨_, hnext⟩ | ⟨-, hlast⟩
    · exact .inl (by simp [State.splitDone, hnext])
    · exact .inr (by simp [State.splitDone, hlast])

/-- `SplitDone` of a state that has observed what `s` has sends no request. -/
theorem requestsOf_splitDone (m : Bool) (h : t.trace = s.trace) : requestsOf (eventsSince s (t.splitDone m)) = [] := by
  rcases t.splitDone_trace m with hnext | hdone
  · exact requestsOf_of_trace_eq (hnext.trans h)
  · exact requestsOf_of_trace_respond (h ▸ hdone)

/-- A zero parent sends nothing on encode, whether the split ends or its order is wrong (41_split_codec.md R107). -/
theorem splitBegin_enc_zeroParent_silent (m : Bool) (hpend : s.pend = false) (hzero : s.parent nd = 0) :
    requestsOf (eventsSince s (splitBegin .enc nd m s)) = [] ∧ (splitBegin .enc nd m s).pend = false := by
  rcases splitBegin_enc_of_zeroParent m hzero with hend | hend <;> rw [hend]
  · exact ⟨requestsOf_splitDone m rfl, by simp [hpend]⟩
  · exact ⟨requestsOf_of_trace_respond (State.takeFault_trace s .order), State.takeFault_pend s .order⟩

/-- A zero parent sends nothing on decode and leaves both children 0 (41_split_codec.md R107). -/
theorem splitBegin_dec_zeroParent_silent (m : Bool) (hpend : s.pend = false) (hzero : s.parent nd = 0) :
    requestsOf (eventsSince s (splitBegin .dec nd m s)) = [] ∧ (splitBegin .dec nd m s).pend = false ∧
      (splitBegin .dec nd m s).child1 nd = 0 ∧ (splitBegin .dec nd m s).child2 nd = 0 := by
  rw [splitBegin_dec_of_zeroParent m hzero]
  exact ⟨requestsOf_splitDone m rfl, by simp [hpend], by simpa using s.child1_writeChildren_zero nd 0,
    by simpa using s.child2_writeChildren_zero nd 0⟩

/-! ## The commands that begin a split -/

section
variable (hrun : s.halt = false)
include hrun

/-- `ESPL` in an encode frame (41_split_codec.md R105). -/
theorem exec_espl_splitBegin (hnode : isNode l.toNat j.toNat = true) (hframe : s.frameIs .enc = true) :
    exec (.espl l j) s = .next (splitBegin .enc ⟨l.toNat, j.toNat⟩ false s) := by
  have hlegal : (Instr.espl l j).wellFormed s.params.ampBits = true := hnode
  simp [exec, execEspl, hrun, hlegal, hframe, Node.ofFields]

/-- `DSPL` in a decode frame (41_split_codec.md R106). -/
theorem exec_dspl_splitBegin (hnode : isNode l.toNat j.toNat = true) (hframe : s.frameIs .dec = true) :
    exec (.dspl l j) s = .next (splitBegin .dec ⟨l.toNat, j.toNat⟩ false s) := by
  have hlegal : (Instr.dspl l j).wellFormed s.params.ampBits = true := hnode
  simp [exec, execDspl, hrun, hlegal, hframe, Node.ofFields]

/-- A split of `SENC` (42_shell_sequencer.md R122). -/
theorem exec_senc_splitBegin (hop : s.op = .enc) : exec .senc s = .next (splitBegin .enc (trav s.seq) true s) := by
  simp [exec, execSenc, hrun, hop]

/-- A split of `SDEC` (42_shell_sequencer.md R123). -/
theorem exec_sdec_splitBegin {v : Word} (hop : s.op = .dec)
    (hlegal : (Instr.sdec v).wellFormed s.params.ampBits = true) :
    exec (.sdec v) s = .next (splitBegin .dec (trav s.seq) true s) := by
  simp [exec, execSdec, hrun, hlegal, hop]

end

/-- Settles O28: each of the four commands runs `SplitBegin` at its node, which sends nothing for a zero parent. -/
theorem zeroParentSendsNothing : Obligations.ZeroParentSendsNothing := by
  intro s l j v hrun hpend
  refine ⟨fun hnode hzero => ⟨fun hframe => ?_, fun hframe => ?_⟩,
    fun hzero => ⟨fun hop => ?_, fun hop hlegal => ?_⟩⟩
  · exact ⟨_, exec_espl_splitBegin hrun hnode hframe, splitBegin_enc_zeroParent_silent false hpend hzero⟩
  · exact ⟨_, exec_dspl_splitBegin hrun hnode hframe, splitBegin_dec_zeroParent_silent false hpend hzero⟩
  · exact ⟨_, exec_senc_splitBegin hrun hop, splitBegin_enc_zeroParent_silent true hpend hzero⟩
  · exact ⟨_, exec_sdec_splitBegin hrun hop hlegal, splitBegin_dec_zeroParent_silent true hpend hzero⟩

end Sys2Proof.Machine
end

section
/-! PROOF. The walk of the sequencer commands (42_shell_sequencer.md R120, R121, R125): which nodes it visits, and that
the parent of each is the root or a child of a node visited before. -/

namespace Sys2Proof.Machine

variable {s g : State} {nd : Node} {q : Fin 15} {k i l j : Nat}

/-! ## The traversal ROM -/

/-- Settles O29: the 15 entries are compared with the walk, whose recursion is its definition. -/
theorem traversalIsDepthFirst : Obligations.TraversalIsDepthFirst :=
  ⟨by decide, fun _ _ => rfl, fun _ => rfl⟩

theorem walk_length : walk.length = 15 := rfl

theorem exists_trav_of_mem_walk (h : nd ∈ walk) : ∃ q, trav q = nd := by
  rw [walk, ← traversalIsDepthFirst.1] at h
  obtain ⟨q, -, hq⟩ := List.mem_map.mp h
  exact ⟨q, hq⟩

/-- What is left of the walk at step `q` begins with `TRAV[q]`. -/
theorem walk_drop (q : Fin 15) : walk.drop q = trav q :: walk.drop (q + 1) := by
  revert q; decide

theorem isNode_trav (q : Fin 15) : isNode (trav q).lvl (trav q).idx = true := by
  revert q; decide

/-- The walk visits every node (42_shell_sequencer.md R121). -/
theorem exists_trav_eq (h : isNode l j = true) : ∃ q, trav q = ⟨l, j⟩ := by
  rcases isNode_cases h with ⟨rfl, hj⟩ | ⟨rfl, hj⟩ | ⟨rfl, hj⟩ | ⟨rfl, hj⟩ <;> revert j <;> decide

/-- No node is visited twice. -/
theorem trav_injective : Function.Injective trav := by
  unfold Function.Injective; decide

/-- The register `(k, i)` is a child of the node (41_split_codec.md R100). -/
def Node.HasChild (nd : Node) (k i : Nat) : Prop :=
  k = nd.lvl ∧ (i = 2 * nd.idx ∨ i = 2 * nd.idx + 1)

/-- A register is a child of one node only. -/
theorem Node.eq_of_hasChild {nd' : Node} (h : nd.HasChild k i) (h' : nd'.HasChild k i) : nd' = nd := by
  obtain ⟨l, j⟩ := nd
  obtain ⟨l', j'⟩ := nd'
  obtain ⟨hl, hi⟩ := h
  obtain ⟨hl', hi'⟩ := h'
  rw [Node.mk.injEq]
  simp only at hi hi'
  exact ⟨hl'.symm.trans hl, by omega⟩

theorem not_hasChild_root (q : Fin 15) : ¬ (trav q).HasChild 4 0 := by
  have := isNode_cases (isNode_trav q)
  rintro ⟨hk, -⟩
  omega

/-- Every parent but the root is a child of a node visited before (42_shell_sequencer.md R125). -/
theorem exists_earlier_hasChild (hq : q ≠ 0) :
    ∃ q' < q, (trav q').HasChild ((trav q).lvl + 1) (trav q).idx := by
  unfold Node.HasChild
  revert q; decide

/-- No parent is a child of a node visited later, or of its own node. -/
theorem not_hasChild_of_le {q' : Fin 15} (h : q' ≤ q) : ¬ (trav q).HasChild ((trav q').lvl + 1) (trav q').idx := by
  unfold Node.HasChild
  revert q q'; decide

/-! ## The registers of the tree -/

/-- Every register but the root is a child of a node that the walk visits. -/
theorem exists_trav_hasChild (h : isRegister k i = true) : k = 4 ∧ i = 0 ∨ ∃ q, (trav q).HasChild k i := by
  obtain ⟨hk4, hi⟩ := (isRegister_iff k i).mp h
  rcases hk4.lt_or_eq with hk | rfl
  · obtain ⟨q, hq⟩ := exists_trav_eq (isNode_div_two (by omega) h)
    refine .inr ⟨q, ?_⟩
    rw [hq]
    exact ⟨rfl, by simp only; omega⟩
  · exact .inl ⟨rfl, Nat.lt_one_iff.mp hi⟩

/-- A register file is what its registers read. -/
theorem PulseFile.ext_of_read {f f' : PulseFile} (h : ∀ k i, isRegister k i = true → f.read k i = f'.read k i) :
    f = f' := by
  obtain ⟨p0, p1, p2, p3, p4⟩ := f
  obtain ⟨p0', p1', p2', p3', p4'⟩ := f'
  rw [PulseFile.mk.injEq]
  refine ⟨Vector.ext fun i hi => ?_, Vector.ext fun i hi => ?_, Vector.ext fun i hi => ?_, Vector.ext fun i hi => ?_,
    Vector.ext fun i hi => ?_⟩
  · simpa [PulseFile.read, hi] using h 0 i ((isRegister_iff _ _).mpr ⟨by omega, hi⟩)
  · simpa [PulseFile.read, hi] using h 1 i ((isRegister_iff _ _).mpr ⟨by omega, hi⟩)
  · simpa [PulseFile.read, hi] using h 2 i ((isRegister_iff _ _).mpr ⟨by omega, hi⟩)
  · simpa [PulseFile.read, hi] using h 3 i ((isRegister_iff _ _).mpr ⟨by omega, hi⟩)
  · simpa [PulseFile.read, hi] using h 4 i ((isRegister_iff _ _).mpr ⟨by omega, hi⟩)

/-! ## The children of a node after they are written (41_split_codec.md R104) -/

/-- Writing the children of a node leaves every other register alone. -/
theorem State.writeChildren_pulse_other (s : State) (a b : Word) (h : ¬ nd.HasChild k i) :
    (s.writeChildren nd a b).pulse k i = s.pulse k i := by
  have h' : ¬ (k = nd.lvl ∧ i = 2 * nd.idx) ∧ ¬ (k = nd.lvl ∧ i = 2 * nd.idx + 1) := by
    unfold Node.HasChild at h; tauto
  rw [State.pulse, State.writeChildren_pulses, PulseFile.read_write_other _ _ _ h'.2,
    PulseFile.read_write_other _ _ _ h'.1, State.pulse]

theorem State.writeChildren_child1_other (s : State) (a b : Word) {nd' : Node} (h : nd' ≠ nd) :
    (s.writeChildren nd a b).child1 nd' = s.child1 nd' :=
  s.writeChildren_pulse_other a b fun hchild => h (Node.eq_of_hasChild hchild ⟨rfl, .inl rfl⟩)

theorem State.writeChildren_child2_other (s : State) (a b : Word) {nd' : Node} (h : nd' ≠ nd) :
    (s.writeChildren nd a b).child2 nd' = s.child2 nd' :=
  s.writeChildren_pulse_other a b fun hchild => h (Node.eq_of_hasChild hchild ⟨rfl, .inr rfl⟩)

/-- The parents of the nodes visited up to `TRAV[q]` are not written by its split. -/
theorem State.writeChildren_parent_trav (s : State) (a b : Word) {q' : Fin 15} (h : q' ≤ q) :
    (s.writeChildren (trav q) a b).parent (trav q') = s.parent (trav q') :=
  s.writeChildren_pulse_other a b (not_hasChild_of_le h)

/-- A value of at most `N` bits is written whole into both children. -/
theorem State.writeChildren_children (s : State) {a b : Word} (hnode : isNode nd.lvl nd.idx = true)
    (ha : a.toNat < 2 ^ s.params.ampBits) (hb : b.toNat < 2 ^ s.params.ampBits) :
    (s.writeChildren nd a b).child1 nd = a ∧ (s.writeChildren nd a b).child2 nd = b := by
  obtain ⟨-, hreg1, hreg2⟩ := isNode_registers hnode
  have hwide : 2 ^ s.params.ampBits ≤ 2 ^ (s.params.ampBits + nd.lvl) := Nat.pow_le_pow_right (by omega) (by omega)
  constructor
  · rw [State.child1, State.pulse, State.writeChildren_pulses, PulseFile.read_write_other _ _ _ (by omega),
      PulseFile.read_write_same _ _ _ hreg1, fit_of_lt (by omega)]
  · rw [State.child2, State.pulse, State.writeChildren_pulses, PulseFile.read_write_same _ _ _ hreg2,
      fit_of_lt (by omega)]

/-! ## The root bounds the parents of the nodes visited -/

/-- At a node where the sum invariant holds no child exceeds the parent. -/
theorem State.sumsAt.child_le (h : s.sumsAt nd) (hchild : nd.HasChild k i) :
    (s.pulse k i).toNat ≤ (s.parent nd).toNat := by
  unfold State.sumsAt State.child1 State.child2 at h
  obtain ⟨rfl, rfl | rfl⟩ := hchild <;> omega

/-- Where the sum invariant holds at the nodes visited so far, no parent up to the next one exceeds the root
(42_shell_sequencer.md R127): from the node to its parent's node, which comes before it. -/
theorem State.parent_trav_le_root {n : Fin 15} (h : ∀ q < n, s.sumsAt (trav q)) (hq : q ≤ n) :
    (s.parent (trav q)).toNat ≤ (s.pulse 4 0).toNat := by
  induction q using WellFoundedLT.induction with
  | ind q ih =>
    by_cases hroot : q = 0
    · subst hroot; exact le_rfl
    · obtain ⟨q', hlt, hchild⟩ := exists_earlier_hasChild hroot
      have hlt' := lt_of_lt_of_le hlt hq
      exact ((h q' hlt').child_le hchild).trans (ih q' hlt hlt'.le)

end Sys2Proof.Machine
end

section
/-! PROOF. The splits of a sequencer command, one agent's step at a time (42_shell_sequencer.md R122 to R124): what
`SENC` and `SDEC` have in common while they run and every turn is left to the enabled agent. -/

namespace Sys2Proof.Machine

variable {s t u : State} {i : Instr} {dir : Dir} {nd : Node}

/-! ## Runs of at most so many steps -/

/-- `t` is reached from `s` in at most `k` steps. -/
def State.Reaches (k : Nat) (s t : State) : Prop := ∃ n ≤ k, runSteps n s = .next t

theorem State.Reaches.of_step (h : step s = .next t) : s.Reaches 1 t :=
  ⟨1, le_rfl, by rw [runSteps_succ_of_next 0 h, runSteps_zero]⟩

theorem State.Reaches.trans {j k : Nat} (h : s.Reaches j t) (h' : t.Reaches k u) : s.Reaches (j + k) u := by
  obtain ⟨m, hm, hrun⟩ := h
  obtain ⟨n, hn, hrun'⟩ := h'
  exact ⟨m + n, by omega, by rw [runSteps_add m n hrun, hrun']⟩

theorem State.Reaches.mono {j k : Nat} (h : s.Reaches j t) (hjk : j ≤ k) : s.Reaches k t := by
  obtain ⟨m, hm, hrun⟩ := h
  exact ⟨m, hm.trans hjk, hrun⟩

/-! ## The core's step -/

/-- The word of a legal command decodes to it (30_encoding.md R73). -/
theorem decode_encode_of_wellFormed {n : Nat} (h : i.wellFormed n = true) : decode n (encode i) = .ok i :=
  decode_eq_ok_iff.mpr ⟨commandOf_encode i, row_selects_encode i, h⟩

theorem State.command_of_accepted (hcur : s.cur = some (encode i)) (hlegal : i.wellFormed s.params.ampBits = true) :
    s.command = some i := by
  simp [State.command, hcur, decode_encode_of_wellFormed hlegal]

/-- With no turn scheduled and no request pending the core runs the accepted command. -/
theorem step_eq_exec (hsched : s.schedule = []) (hpend : s.pend = false) (hcur : s.cur = some (encode i))
    (hlegal : i.wellFormed s.params.ampBits = true) : step s = exec i s := by
  simp [step, turn_of_empty hsched, State.enabledAgent, hpend, hcur, runTurn, hsched, coreTurn,
    decode_encode_of_wellFormed hlegal]

theorem State.ReadyFor.step_eq_exec (h : s.ReadyFor i dir) : step s = exec i s :=
  Machine.step_eq_exec h.noSchedule h.notPending h.accepted h.legal

theorem State.Inv.widthsFit (h : s.Inv) : s.WidthsFit where
  narrow := by
    have hbound := h.bounded
    simp only [Params.bounded, Bool.and_eq_true, decide_eq_true_eq] at hbound
    omega
  fits := h.fits

/-! ## A sequencer command under way -/

/-- `OP` while the sequencer command of a direction runs (10_state.md R25). -/
def Op.ofDir : Dir → Op
  | .enc => .enc
  | .dec => .dec

/-- The sequencer commands, each with its direction. -/
inductive IsMacro : Instr → Dir → Prop
  | senc : IsMacro .senc .enc
  | sdec (v : Word) : IsMacro (.sdec v) .dec

theorem IsMacro.splitOf (h : IsMacro i dir) (q : Fin 15) : splitOf q i = some ⟨dir, trav q, true⟩ := by
  cases h <;> rfl

/-- The sequencer command `i` is past its first micro-step, not halted, and every turn is left to the enabled agent. -/
structure State.Splitting (s : State) (i : Instr) (dir : Dir) : Prop where
  isMacro : IsMacro i dir
  notHalted : s.halt = false
  legal : i.wellFormed s.params.ampBits = true
  op : s.op = Op.ofDir dir
  accepted : s.cur = some (encode i)
  noSchedule : s.schedule = []

/-- The core begins the split at `TRAV[SEQ]` (42_shell_sequencer.md R122, R123). -/
theorem State.Splitting.step_begin (h : s.Splitting i dir) (hpend : s.pend = false) :
    step s = .next (splitBegin dir (trav s.seq) true s) := by
  obtain ⟨hmacro, hrun, hlegal, hop, hcur, hsched⟩ := h
  rw [step_eq_exec hsched hpend hcur hlegal]
  cases hmacro with
  | senc => exact exec_senc_splitBegin hrun hop
  | sdec v => exact exec_sdec_splitBegin hrun hop hlegal

/-- The coder has given the answer `r`, and `rs` are those still to come. -/
def State.takeAnswer (s : State) (r : EcResponse) (rs : List EcResponse) : State :=
  { s with coderResponses := rs, trace := s.trace ++ [.answer r] }

/-- The coder's next answer completes the split at `TRAV[SEQ]` (10_state.md R38). -/
theorem State.Splitting.step_complete (h : s.Splitting i dir) (hpend : s.pend = true) {r : EcResponse}
    {rs : List EcResponse} (hanswer : s.coderResponses = r :: rs) :
    step s = .next (splitComplete ⟨dir, trav s.seq, true⟩ r (s.takeAnswer r rs)) := by
  have hsplit : s.pendingSplit = some ⟨dir, trav s.seq, true⟩ := by
    rw [State.pendingSplit, State.command_of_accepted h.accepted h.legal]
    exact h.isMacro.splitOf s.seq
  simp [step, turn_of_empty h.noSchedule, State.enabledAgent, hpend, runTurn, h.noSchedule, coderTurn, hanswer, hsplit,
    State.takeAnswer]

/-- A silent coder leaves the block as it is (log 9). -/
theorem State.Splitting.step_waits (h : s.Splitting i dir) (hpend : s.pend = true) (hsilent : s.coderResponses = []) :
    step s = .next s := by
  simp [step, turn_of_empty h.noSchedule, State.enabledAgent, hpend, runTurn, h.noSchedule, coderTurn, hsilent]

/-! ## The first micro-step (42_shell_sequencer.md R122, R123) -/

/-- After the combine phase of `SENC`. -/
def State.sencBegun (s : State) : State := { s.combineTree with op := .enc, seq := 0 }

/-- After the root total of `SDEC v` is written. -/
def State.sdecBegun (s : State) (v : Word) : State := { s.writePulse 4 0 v with op := .dec, seq := 0 }

theorem State.ReadyFor.step_senc (h : s.ReadyFor .senc .enc) : step s = .next s.sencBegun := by
  rw [h.step_eq_exec]
  exact exec_senc_combinePhase h.notHalted h.idle h.frame

theorem State.ReadyFor.step_sdec {v : Word} (h : s.ReadyFor (.sdec v) .dec) : step s = .next (s.sdecBegun v) := by
  rw [h.step_eq_exec]
  simp [exec, execSdec, h.notHalted, h.legal, h.idle, h.frame, State.sdecBegun]

theorem State.ReadyFor.sencBegun_splitting (h : s.ReadyFor .senc .enc) : s.sencBegun.Splitting .senc .enc :=
  ⟨.senc, h.notHalted, rfl, rfl, h.accepted, h.noSchedule⟩

theorem State.ReadyFor.sdecBegun_splitting {v : Word} (h : s.ReadyFor (.sdec v) .dec) :
    (s.sdecBegun v).Splitting (.sdec v) .dec :=
  ⟨.sdec v, h.notHalted, h.legal, rfl, h.accepted, h.noSchedule⟩

theorem State.ReadyFor.sencBegun_sumsEverywhere (h : s.ReadyFor .senc .enc) : s.sencBegun.sumsEverywhere :=
  h.inv.widthsFit.combineTree_sumsEverywhere

/-- The root of the tree that `SENC` builds is the total of the leaves (40_combiner.md R96). -/
theorem State.ReadyFor.sencBegun_root (h : s.ReadyFor .senc .enc) : (s.sencBegun.pulse 4 0).toNat = s.leafSum := by
  rw [h.sencBegun_sumsEverywhere.pulse_eq_leavesUnder (by decide), State.leavesUnder_root]
  rfl

theorem State.ReadyFor.sdecBegun_root {v : Word} (h : s.ReadyFor (.sdec v) .dec) : (s.sdecBegun v).pulse 4 0 = v := by
  have hv : v.toNat < 2 ^ (s.params.ampBits + 4) := (Instr.wellFormed_sdec_iff _ v).mp h.legal
  exact (PulseFile.read_write_same _ _ v (by decide)).trans (fit_of_lt hv)

/-! ## `SplitDone` at each step of the walk (42_shell_sequencer.md R124) -/

theorem State.advance_castSucc {q : Fin 14} (h : s.seq = q.castSucc) : s.advance = { s with seq := q.succ } := by
  rcases advance_cases s with ⟨hlt, hnext⟩ | ⟨hlast, -⟩
  · rw [hnext]
    congr 1
    ext
    simp [h]
  · have := q.isLt
    rw [h, Fin.val_castSucc] at hlast
    omega

theorem State.advance_last (h : s.seq = Fin.last 14) : s.advance = { s with seq := 0, op := .idle }.done := by
  rcases advance_cases s with ⟨hlt, -⟩ | ⟨-, hlast⟩
  · rw [h] at hlt
    exact absurd hlt (lt_irrefl 14)
  · exact hlast

end Sys2Proof.Machine
end

section
/-! PROOF. A sequencer command with the answers it waits for, from any step of the walk to its end
(42_shell_sequencer.md R122 to R124, R126): against the answers that a tree records, either direction leaves that tree
and sends its requests. -/

namespace Sys2Proof.Machine

variable {s x g : State} {i : Instr} {dir : Dir} {nd : Node} {q : Fin 15}

/-! ## One split -/

/-- What a split in direction `dir` leaves in the children of its node: on encode it writes no register. -/
def State.recordSplit (s : State) (dir : Dir) (nd : Node) (c1 c2 : Word) : State :=
  { s with
    pulses :=
      match dir with
      | .enc => s.pulses
      | .dec => (s.writeChildren nd c1 c2).pulses }

/-- A split in range, and in order on encode, with a zero parent ends at once (41_split_codec.md R107). -/
theorem splitBegin_of_zeroParent (m : Bool) (hzero : s.parent nd = 0) (horder : dir = .enc → s.outOfOrder nd = false) :
    splitBegin dir nd m s = (s.recordSplit dir nd 0 0).splitDone m := by
  cases dir with
  | enc => simp [splitBegin, State.overRange_of_zeroParent hzero, horder rfl, hzero, State.recordSplit]
  | dec => exact splitBegin_dec_of_zeroParent m hzero

/-- A split in range, and in order on encode, with a nonzero parent sends its request (41_split_codec.md R108). -/
theorem splitBegin_of_coded (m : Bool) (hrange : s.overRange nd = false) (hcoded : s.parent nd ≠ 0)
    (horder : dir = .enc → s.outOfOrder nd = false) :
    splitBegin dir nd m s = s.sendRequest (s.requestFor dir nd (s.requestSymbol dir nd)) := by
  cases dir with
  | enc => simpa [splitBegin, hrange, horder rfl, State.requestSymbol] using fun h => absurd h hcoded
  | dec => simpa [splitBegin, hrange, State.requestSymbol] using fun h => absurd h hcoded

/-- An answer that is a symbol of at most the parent on decode completes the split (41_split_codec.md R104). -/
theorem splitComplete_of_symbol (m : Bool) (r : EcResponse) {c1 : Word}
    (hsym : dir = .dec → fit s.params.ampBits r.sym = c1) (hle : c1.toNat ≤ (s.parent nd).toNat) :
    splitComplete ⟨dir, nd, m⟩ r s =
      ({ s with pend := false }.recordSplit dir nd c1 (s.parent nd - c1)).splitDone m := by
  cases dir with
  | enc => rfl
  | dec =>
    obtain rfl := hsym rfl
    have hfits : s.symbolTooLarge nd (fit s.params.ampBits r.sym) = false := decide_eq_false hle.not_gt
    simp only [splitComplete, hfits]
    rfl

/-- The request `r` has been sent and answered with `a`; `rs` are the answers still to come. -/
def State.afterAnswer (s : State) (r : EcRequest) (a : EcResponse) (rs : List EcResponse) : State :=
  { s with pend := false, coderResponses := rs, trace := s.trace ++ [.request r, .answer a] }

theorem State.sendRequest_takeAnswer (s : State) (r : EcRequest) (a : EcResponse) (rs : List EcResponse) :
    { (s.sendRequest r).takeAnswer a rs with pend := false } = s.afterAnswer r a rs := by
  simp [State.takeAnswer, State.afterAnswer, State.sendRequest]

/-- With its answer at hand a split with a nonzero parent takes two steps: the request, and the answer that ends it. -/
theorem State.Splitting.reaches_of_coded (h : x.Splitting i dir) (hpend : x.pend = false) {a : EcResponse}
    {rs : List EcResponse} {c1 : Word} (hrange : x.overRange (trav x.seq) = false)
    (hcoded : x.parent (trav x.seq) ≠ 0) (horder : dir = .enc → x.outOfOrder (trav x.seq) = false)
    (hcoder : x.coderResponses = a :: rs) (hsym : dir = .dec → fit x.params.ampBits a.sym = c1)
    (hle : c1.toNat ≤ (x.parent (trav x.seq)).toNat) :
    let r := x.requestFor dir (trav x.seq) (x.requestSymbol dir (trav x.seq))
    x.Reaches 2 ((x.afterAnswer r a rs).recordSplit dir (trav x.seq) c1 (x.parent (trav x.seq) - c1)).advance := by
  intro r
  have hsend := h.step_begin hpend
  rw [splitBegin_of_coded true hrange hcoded horder] at hsend
  have hsent : (x.sendRequest r).Splitting i dir :=
    ⟨h.isMacro, h.notHalted, h.legal, h.op, h.accepted, h.noSchedule⟩
  have hanswer := hsent.step_complete rfl hcoder
  have hend := splitComplete_of_symbol (nd := trav x.seq) true a (s := (x.sendRequest r).takeAnswer a rs) hsym hle
  refine (Reaches.of_step hsend).trans (.of_step (hanswer.trans ?_))
  rw [State.sendRequest_seq, hend, State.sendRequest_takeAnswer]
  rfl

/-! ## The tree that a run follows -/

/-- A tree that both directions accept: the sum invariant holds everywhere and the root is within the tables. -/
structure State.Codable (g : State) : Prop where
  bounded : g.params.bounded = true
  sums : g.sumsEverywhere
  rootInRange : g.rootInRange

/-- Every parent of a codable tree has a row (42_shell_sequencer.md R127). -/
theorem State.Codable.parent_le (h : g.Codable) (q : Fin 15) : (g.parent (trav q)).toNat ≤ g.params.aMax :=
  (State.parent_trav_le_root (fun q _ => h.sums _ _ (isNode_trav q)) le_rfl).trans h.rootInRange

theorem Params.aMax_lt_of_bounded {p : Params} (h : p.bounded = true) : p.aMax < 2 ^ p.ampBits := by
  simp only [Params.bounded, Bool.and_eq_true, decide_eq_true_eq] at h
  exact h.2

/-- Before step `n` of the walk `x` holds the tree `g` as far as direction `dir` knows it: on encode the whole tree, on
decode the root and the children of the nodes visited. -/
structure State.HoldsTree (x g : State) (dir : Dir) (n : Nat) : Prop where
  params : x.params = g.params
  root : x.pulse 4 0 = g.pulse 4 0
  children : ∀ q : Fin 15, (dir = .dec → q < n) → ∀ k i, (trav q).HasChild k i → x.pulse k i = g.pulse k i

/-- Only the parameters and the registers matter. -/
theorem State.HoldsTree.congr {n : Nat} {y : State} (h : x.HoldsTree g dir n) (hparams : y.params = x.params)
    (hpulses : y.pulses = x.pulses) : y.HoldsTree g dir n where
  params := hparams.trans h.params
  root := by rw [State.pulse, hpulses]; exact h.root
  children q hq k i hchild := by rw [State.pulse, hpulses]; exact h.children q hq k i hchild

/-- The parent of the node at hand is known: it is the root or a child of a node visited before. -/
theorem State.HoldsTree.parent_eq (h : x.HoldsTree g dir q) : x.parent (trav q) = g.parent (trav q) := by
  by_cases hq : q = 0
  · subst hq; exact h.root
  · obtain ⟨q', hlt, hchild⟩ := exists_earlier_hasChild hq
    exact h.children q' (fun _ => hlt) _ _ hchild

/-- After the last step every register is that of the tree. -/
theorem State.HoldsTree.pulses_eq (h : x.HoldsTree g dir 15) : x.pulses = g.pulses := by
  refine PulseFile.ext_of_read fun k i hreg => ?_
  rcases exists_trav_hasChild hreg with ⟨rfl, rfl⟩ | ⟨q, hchild⟩
  · exact h.root
  · exact h.children q (fun _ => q.isLt) k i hchild

/-- The split at step `q` goes on with the tree. -/
theorem State.HoldsTree.recordSplit (h : x.HoldsTree g dir q) (hg : g.Codable) :
    (x.recordSplit dir (trav q) (g.child1 (trav q)) (g.child2 (trav q))).HoldsTree g dir (q + 1) := by
  cases dir with
  | enc => exact ⟨h.params, h.root, fun q' _ => h.children q' nofun⟩
  | dec =>
    have hnode := isNode_trav q
    have hle := hg.parent_le q
    have hamax := Params.aMax_lt_of_bounded hg.bounded
    have hle1 := hg.sums.child1_le hnode
    have hle2 := hg.sums.child2_le hnode
    obtain ⟨hc1, hc2⟩ := x.writeChildren_children (a := g.child1 (trav q)) (b := g.child2 (trav q)) hnode
      (by rw [h.params]; omega) (by rw [h.params]; omega)
    refine ⟨h.params, ?_, fun q' hq' k i hchild => ?_⟩
    · exact (x.writeChildren_pulse_other _ _ (not_hasChild_root q)).trans h.root
    · by_cases hat : (trav q).HasChild k i
      · obtain ⟨rfl, rfl | rfl⟩ := hat
        · exact hc1
        · exact hc2
      · have hne : q' ≠ q := by rintro rfl; exact hat hchild
        have hlt : q'.val < q.val := by
          have := hq' rfl
          have := Fin.val_ne_of_ne hne
          omega
        exact (x.writeChildren_pulse_other _ _ hat).trans (h.children q' (fun _ => hlt) k i hchild)

/-! ## The requests of a tree, and the answers that record them -/

/-- The request of a node, where its parent is not 0 (41_split_codec.md R107, R108). -/
def State.requestAt (s : State) (dir : Dir) (nd : Node) : Option EcRequest :=
  if s.parent nd = 0 then none else some (s.requestFor dir nd (s.requestSymbol dir nd))

/-- The requests of the nodes from step `n` of the walk on. -/
def State.requestsFrom (s : State) (dir : Dir) (n : Nat) : List EcRequest :=
  (walk.drop n).filterMap (s.requestAt dir)

theorem State.requestsFrom_enc_zero (s : State) : s.requestsFrom .enc 0 = s.encodeRequests := rfl

theorem State.requestsFrom_eq_append (s : State) (dir : Dir) (q : Fin 15) :
    s.requestsFrom dir q = (s.requestAt dir (trav q)).toList ++ s.requestsFrom dir (q + 1) := by
  unfold State.requestsFrom
  rw [walk_drop]
  cases h : s.requestAt dir (trav q) <;> simp [h]

/-- The answers `as` serve the encode requests `reqs` in direction `dir` at width `n`: one for each, and on decode its
low `n` bits are the recorded symbol (log 10). -/
def Answers (dir : Dir) (n : Nat) (as : List EcResponse) (reqs : List EcRequest) : Prop :=
  List.Forall₂ (fun a r => dir = .dec → fit n a.sym = r.sym) as reqs

/-- On encode any answers will do. -/
theorem answers_enc {n : Nat} {as : List EcResponse} {reqs : List EcRequest} (h : as.length = reqs.length) :
    Answers .enc n as reqs :=
  List.forall₂_iff_get.mpr ⟨h, fun _ _ _ => nofun⟩

/-! ## From one split to the next -/

/-- The request at hand is the tree's: it names the row of the parent, and on encode child1. -/
theorem State.HoldsTree.request_eq (h : x.HoldsTree g dir q) :
    x.requestFor dir (trav q) (x.requestSymbol dir (trav q)) =
      g.requestFor dir (trav q) (g.requestSymbol dir (trav q)) := by
  have hsym : x.requestSymbol dir (trav q) = g.requestSymbol dir (trav q) := by
    cases dir with
    | enc => exact h.children q nofun _ _ ⟨rfl, .inl rfl⟩
    | dec => rfl
  simp only [State.requestFor, h.parent_eq, h.params, hsym]

/-- On encode the splits of a codable tree are in order (42_shell_sequencer.md R127). -/
theorem State.HoldsTree.outOfOrder_eq (h : x.HoldsTree g dir q) (hg : g.Codable) (henc : dir = .enc) :
    x.outOfOrder (trav q) = false := by
  have hchild1 : x.child1 (trav q) = g.child1 (trav q) := h.children q (by simp [henc]) _ _ ⟨rfl, .inl rfl⟩
  have hle := hg.sums.child1_le (isNode_trav q)
  exact decide_eq_false (by rw [hchild1, h.parent_eq]; exact hle.not_gt)

/-- No split of a codable tree is out of range (42_shell_sequencer.md R127). -/
theorem State.HoldsTree.overRange_eq (h : x.HoldsTree g dir q) (hg : g.Codable) : x.overRange (trav q) = false :=
  decide_eq_false (by rw [h.parent_eq, h.params]; exact (hg.parent_le q).not_gt)

/-- The children of a zero parent are 0 in a codable tree. -/
theorem State.Codable.children_eq_zero (hg : g.Codable) (hzero : g.parent (trav q) = 0) :
    g.child1 (trav q) = 0 ∧ g.child2 (trav q) = 0 := by
  have hsum : (g.child1 (trav q)).toNat + (g.child2 (trav q)).toNat = (g.parent (trav q)).toNat :=
    hg.sums _ _ (isNode_trav q)
  constructor <;> bv_omega

/-- child2 is what child1 leaves of the parent (41_split_codec.md R104). -/
theorem State.Codable.child2_eq (hg : g.Codable) (q : Fin 15) :
    g.parent (trav q) - g.child1 (trav q) = g.child2 (trav q) := by
  have hsum : (g.child1 (trav q)).toNat + (g.child2 (trav q)).toNat = (g.parent (trav q)).toNat :=
    hg.sums _ _ (isNode_trav q)
  bv_omega

/-- A split has come to its end with the registers `f`, the answers `rs` still to come, and the events `es`. -/
def State.afterSplit (s : State) (f : PulseFile) (rs : List EcResponse) (es : List Event) : State :=
  { s with pulses := f, pend := false, coderResponses := rs, trace := s.trace ++ es }

/-- A split of a sequencer command that follows a codable tree takes at most two steps with its answer at hand, sends
the tree's request and no response, and goes on. -/
theorem State.Splitting.reaches_advance {as rest : List EcResponse} {reqs : List EcRequest}
    (h : x.Splitting i dir) (hpend : x.pend = false) (hg : g.Codable) (htree : x.HoldsTree g dir x.seq)
    (hans : Answers dir x.params.ampBits as ((g.requestAt .enc (trav x.seq)).toList ++ reqs))
    (hcoder : x.coderResponses = as ++ rest) :
    ∃ f as' es,
      x.Reaches 2 (x.afterSplit f (as' ++ rest) es).advance ∧
        (x.afterSplit f (as' ++ rest) es).HoldsTree g dir (x.seq + 1) ∧ Answers dir x.params.ampBits as' reqs ∧
        requestsOf es = (g.requestAt dir (trav x.seq)).toList ∧ responsesOf es = [] := by
  have horder := htree.outOfOrder_eq hg
  have hparent := htree.parent_eq
  have hnext := htree.recordSplit hg
  have hbegin := h.step_begin hpend
  refine ⟨(x.recordSplit dir (trav x.seq) (g.child1 (trav x.seq)) (g.child2 (trav x.seq))).pulses, ?_⟩
  by_cases hzero : g.parent (trav x.seq) = 0
  · simp only [State.requestAt, hzero, if_true, Option.toList_none, List.nil_append] at hans ⊢
    obtain ⟨hc1, hc2⟩ := hg.children_eq_zero hzero
    rw [splitBegin_of_zeroParent true (hparent.trans hzero) horder] at hbegin
    refine ⟨as, [], (State.Reaches.of_step (hbegin.trans ?_)).mono one_le_two, hnext.congr rfl rfl, hans, rfl, rfl⟩
    simp only [State.afterSplit, hc1, hc2, List.append_nil, ← hcoder, ← hpend]
    rfl
  · simp only [State.requestAt, hzero, if_false, Option.toList_some, List.singleton_append] at hans ⊢
    obtain ⟨a, as', hsym, hans', rfl⟩ := List.forall₂_cons_right_iff.mp hans
    have hrun := h.reaches_of_coded hpend (htree.overRange_eq hg) (hparent ▸ hzero) horder hcoder hsym
      (hparent ▸ hg.sums.child1_le (isNode_trav x.seq))
    rw [htree.request_eq] at hrun
    refine ⟨as', [.request (g.requestFor dir (trav x.seq) (g.requestSymbol dir (trav x.seq))), .answer a], ?_,
      hnext.congr rfl rfl, hans', rfl, rfl⟩
    rw [← hg.child2_eq, ← hparent]
    exact hrun

/-! ## To the end of the command -/

/-- The sequencer command has ended with the registers `f`, the answers `rs` still to come, and the events `es`; nothing
else is changed. -/
def State.macroEnd (s : State) (f : PulseFile) (rs : List EcResponse) (es : List Event) : State :=
  { s with
    pulses := f, seq := 0, op := .idle, cur := none, pend := false, coderResponses := rs,
    untaken := s.untaken ++ [0], trace := s.trace ++ es }

/-- After the last split the command responds (42_shell_sequencer.md R124). -/
theorem State.afterSplit_advance_last (h : s.seq = Fin.last 14) (f : PulseFile) (rs : List EcResponse)
    (es : List Event) : (s.afterSplit f rs es).advance = s.macroEnd f rs (es ++ [.respond 0]) := by
  rw [State.advance_last (s := s.afterSplit f rs es) h, State.macroEnd, ← List.append_assoc]
  rfl

/-- What is observed until a split ends comes before what is observed after it. -/
theorem State.afterSplit_macroEnd (s : State) (n : Fin 15) (f f' : PulseFile) (rs rs' : List EcResponse)
    (es es' : List Event) :
    State.macroEnd { s.afterSplit f rs es with seq := n } f' rs' es' = s.macroEnd f' rs' (es ++ es') := by
  simp only [State.macroEnd, State.afterSplit, List.append_assoc]

theorem requestsOf_append (es es' : List Event) : requestsOf (es ++ es') = requestsOf es ++ requestsOf es' :=
  List.filterMap_append

theorem responsesOf_append (es es' : List Event) : responsesOf (es ++ es') = responsesOf es ++ responsesOf es' :=
  List.filterMap_append

/-- From step `q` of the walk a sequencer command that follows a codable tree ends in at most two steps for each split
left: with the tree in the registers, its requests sent in the order of the walk, and one response. -/
theorem State.Splitting.reaches_end {as rest : List EcResponse} (h : x.Splitting i dir) (hpend : x.pend = false)
    (hseq : x.seq = q) (hg : g.Codable) (htree : x.HoldsTree g dir q)
    (hans : Answers dir x.params.ampBits as (g.requestsFrom .enc q)) (hcoder : x.coderResponses = as ++ rest) :
    ∃ es, x.Reaches (2 * (15 - q)) (x.macroEnd g.pulses rest es) ∧ requestsOf es = g.requestsFrom dir q ∧
      responsesOf es = [0] := by
  induction q using Fin.reverseInduction generalizing x as with
  | last =>
    rw [State.requestsFrom_eq_append, ← hseq] at hans
    obtain ⟨f, as', es, hrun, hnext, hans', hreqs, hresp⟩ :=
      h.reaches_advance hpend hg (hseq ▸ htree) hans hcoder
    rw [State.afterSplit_advance_last hseq] at hrun
    rw [hseq] at hnext hans' hreqs
    obtain rfl : f = g.pulses := hnext.pulses_eq
    obtain rfl : as' = [] := List.forall₂_nil_right_iff.mp hans'
    refine ⟨_, hrun, ?_, ?_⟩
    · rw [requestsOf_append, hreqs, State.requestsFrom_eq_append]
      rfl
    · rw [responsesOf_append, hresp]
      rfl
  | cast q ih =>
    rw [State.requestsFrom_eq_append, ← hseq] at hans
    obtain ⟨f, as', es, hrun, hnext, hans', hreqs, hresp⟩ :=
      h.reaches_advance hpend hg (hseq ▸ htree) hans hcoder
    rw [State.advance_castSucc (s := x.afterSplit f (as' ++ rest) es) hseq] at hrun
    rw [hseq] at hnext hans' hreqs
    obtain ⟨es', hrun', hreqs', hresp'⟩ :=
      ih (x := { x.afterSplit f (as' ++ rest) es with seq := q.succ })
        ⟨h.isMacro, h.notHalted, h.legal, h.op, h.accepted, h.noSchedule⟩ rfl rfl (hnext.congr rfl rfl) hans' rfl
    rw [State.afterSplit_macroEnd] at hrun'
    refine ⟨es ++ es', (hrun.trans hrun').mono ?_, ?_, ?_⟩
    · rw [Fin.val_succ, Fin.val_castSucc]
      omega
    · rw [requestsOf_append, hreqs, hreqs']
      exact (g.requestsFrom_eq_append dir q.castSucc).symm
    · rw [responsesOf_append, hresp, hresp', List.nil_append]

/-! ## The two commands -/

/-- The tree that `SENC` builds of a total within the tables is codable. -/
theorem State.ReadyFor.sencBegun_codable (h : s.ReadyFor .senc .enc) (hsum : s.leafSum ≤ s.params.aMax) :
    s.sencBegun.Codable where
  bounded := h.inv.bounded
  sums := h.sencBegun_sumsEverywhere
  rootInRange := h.sencBegun_root.trans_le hsum

/-- `SENC` of a total within the tables ends in at most 31 steps if the coder has an answer for each request: the tree
is built, and its requests have been sent in the order of the walk (42_shell_sequencer.md R122, R124). -/
theorem State.ReadyFor.senc_reaches_end {as rest : List EcResponse} (h : s.ReadyFor .senc .enc)
    (hsum : s.leafSum ≤ s.params.aMax) (hlength : as.length = s.combineTree.encodeRequests.length)
    (hcoder : s.coderResponses = as ++ rest) :
    ∃ es, s.Reaches 31 (s.macroEnd s.combineTree.pulses rest es) ∧
      requestsOf es = s.combineTree.encodeRequests ∧ responsesOf es = [0] := by
  obtain ⟨es, hrun, hreqs, hresp⟩ := h.sencBegun_splitting.reaches_end (g := s.sencBegun) h.notPending rfl
    (h.sencBegun_codable hsum) ⟨rfl, rfl, fun _ _ _ _ _ => rfl⟩ (answers_enc hlength) hcoder
  exact ⟨es, (Reaches.of_step h.step_senc).trans hrun, hreqs.trans s.sencBegun.requestsFrom_enc_zero, hresp⟩

/-- `SDEC` of the root of a codable tree, against a coder that answers the symbols that the tree records, ends in at
most 31 steps with the tree in the registers (42_shell_sequencer.md R129). -/
theorem State.ReadyFor.sdec_reaches_end {v : Word} {as rest : List EcResponse} (h : s.ReadyFor (.sdec v) .dec)
    (hg : g.Codable) (hparams : s.params = g.params) (hroot : v = g.pulse 4 0)
    (hans : Answers .dec s.params.ampBits as g.encodeRequests) (hcoder : s.coderResponses = as ++ rest) :
    ∃ es, s.Reaches 31 (s.macroEnd g.pulses rest es) ∧ requestsOf es = g.requestsFrom .dec 0 ∧
      responsesOf es = [0] := by
  obtain ⟨es, hrun, hes⟩ := h.sdecBegun_splitting.reaches_end (g := g) h.notPending rfl hg
    ⟨hparams, h.sdecBegun_root.trans hroot, fun q hq => absurd (hq rfl) (Nat.not_lt_zero q)⟩ hans hcoder
  exact ⟨es, (Reaches.of_step h.step_sdec).trans hrun, hes⟩

end Sys2Proof.Machine
end

section
/-! PROOF. Two runs of `SENC` on equal pulses (42_shell_sequencer.md R130), and the round trip (R129). -/

namespace Sys2Proof.Machine

variable {s s' t : State}

theorem State.encodeRequests_length_le (s : State) : s.encodeRequests.length ≤ 15 :=
  (List.length_filterMap_le _ walk).trans_eq walk_length

/-- The requests of a tree depend on its registers and the tables alone. -/
theorem State.encodeRequests_congr (hparams : s'.params = s.params) (hpulses : s'.pulses = s.pulses) :
    s'.encodeRequests = s.encodeRequests := by
  cases s; cases s'; cases hparams; cases hpulses
  rfl

/-- The tree depends on the leaves and the width alone (40_combiner.md R93). -/
theorem PulseFile.combineTree_congr {f f' : PulseFile} (n : Nat) (h : ∀ i, f'.read 0 i = f.read 0 i) :
    f'.combineTree n = f.combineTree n := by
  have hleaves : f'.p0 = f.p0 := Vector.ext fun i hi => by simpa [PulseFile.read, hi] using h i
  simp only [PulseFile.combineTree, hleaves]

theorem State.commandDone_macroEnd (h : s.halt = false) (f : PulseFile) (rs : List EcResponse) (es : List Event) :
    (s.macroEnd f rs es).commandDone = true := by
  simp [State.commandDone, State.macroEnd, h]

/-- `SENC` of a total above the tables takes `RANGE` at its first split (42_shell_sequencer.md R127). -/
theorem State.ReadyFor.senc_reaches_range (h : s.ReadyFor .senc .enc) (hsum : s.params.aMax < s.leafSum) :
    s.Reaches 2 (s.sencBegun.takeFault .range) := by
  have hover : s.sencBegun.overRange (trav s.sencBegun.seq) = true :=
    decide_eq_true (hsum.trans_eq h.sencBegun_root.symm)
  have hfault := h.sencBegun_splitting.step_begin h.notPending
  rw [splitBegin, if_pos hover] at hfault
  exact (Reaches.of_step h.step_senc).trans (.of_step hfault)

/-- The end of `SENC` with 15 answers at hand, and what it has sent: the requests of its tree, or none where the total
is above the tables. -/
theorem State.ReadyFor.senc_ends (h : s.ReadyFor .senc .enc) (hcoder : 15 ≤ s.coderResponses.length) :
    ∃ n t, runSteps n s = .next t ∧ t.cur = none ∧ t.commandDone = decide (s.leafSum ≤ s.params.aMax) ∧
      requestsOf (eventsSince s t) = if s.leafSum ≤ s.params.aMax then s.combineTree.encodeRequests else [] := by
  by_cases hsum : s.leafSum ≤ s.params.aMax
  · have hlength := List.length_take_of_le (s.combineTree.encodeRequests_length_le.trans hcoder)
    obtain ⟨es, ⟨n, -, hrun⟩, hreqs, -⟩ := h.senc_reaches_end hsum hlength (List.take_append_drop _ _).symm
    refine ⟨n, _, hrun, rfl, ?_, ?_⟩
    · rw [State.commandDone_macroEnd h.notHalted, decide_eq_true hsum]
    · rw [eventsSince_of_trace_append rfl, hreqs, if_pos hsum]
  · obtain ⟨n, -, hrun⟩ := h.senc_reaches_range (Nat.lt_of_not_le hsum)
    refine ⟨n, _, hrun, rfl, ?_, ?_⟩
    · rw [decide_eq_false hsum]
      rfl
    · rw [if_neg hsum]
      exact requestsOf_of_trace_respond (State.takeFault_trace s.sencBegun .range)

/-- Settles O35: the end of `SENC` and what it has sent depend on the leaves and the parameters alone. -/
theorem equalPulsesSendEqualRequests : Obligations.EqualPulsesSendEqualRequests := by
  intro s s' hs hs' hparams hleaves hcoder hcoder'
  obtain ⟨n, t, hrun, hcur, hdone, hreqs⟩ := hs.senc_ends hcoder
  obtain ⟨n', t', hrun', hcur', hdone', hreqs'⟩ := hs'.senc_ends hcoder'
  have hsum : s'.leafSum = s.leafSum := by simp only [State.leafSum, hleaves]
  have htree : s'.combineTree.pulses = s.combineTree.pulses := by
    rw [State.combineTree_pulses, State.combineTree_pulses, hparams]
    exact PulseFile.combineTree_congr _ hleaves
  have hcalls := State.encodeRequests_congr (s := s.combineTree) (s' := s'.combineTree) hparams htree
  refine ⟨n, t, n', t', hrun, hrun', hcur, hcur', hdone, ?_, ?_⟩
  · rw [hdone, hdone', hsum, hparams]
  · rw [hreqs, hreqs', hsum, hparams, hcalls]

/-! ## The round trip -/

/-- The symbols that a run has recorded answer its requests again (43_coder_wrapper.md R147). -/
theorem answers_recorded {n : Nat} {reqs : List EcRequest} (h : ∀ r ∈ reqs, r.sym.toNat < 2 ^ n) :
    Answers .dec n (reqs.map fun r => ⟨r.sym⟩) reqs :=
  List.forall₂_map_left_iff.mpr (List.forall₂_same.mpr fun r hr _ => fit_of_lt (h r hr))

/-- Every symbol of a codable tree fits a leaf (00_scope.md R9). -/
theorem State.Codable.sym_lt {g : State} (hg : g.Codable) {r : EcRequest} (hr : r ∈ g.encodeRequests) :
    r.sym.toNat < 2 ^ g.params.ampBits := by
  obtain ⟨nd, hnd, hat⟩ := List.mem_filterMap.mp hr
  split at hat
  · cases hat
  · obtain ⟨q, rfl⟩ := exists_trav_of_mem_walk hnd
    cases hat
    exact (hg.sums.child1_le (isNode_trav q)).trans_lt
      ((hg.parent_le q).trans_lt (Params.aMax_lt_of_bounded hg.bounded))

/-- Both directions name the same rows (42_shell_sequencer.md R129). -/
theorem State.requestsFrom_rowName (g : State) (n : Nat) :
    (g.requestsFrom .dec n).map EcRequest.rowName = (g.requestsFrom .enc n).map EcRequest.rowName := by
  have hrow (nd : Node) :
      (g.requestAt .dec nd).map EcRequest.rowName = (g.requestAt .enc nd).map EcRequest.rowName := by
    unfold State.requestAt
    split <;> rfl
  simp only [State.requestsFrom, List.map_filterMap, hrow]

/-- Settles O38: `SENC` leaves a codable tree and records its symbols; against them `SDEC` of its root leaves the same
tree and sends the requests of the same rows. -/
theorem decodeAfterEncodeGivesThePulsesBack : Obligations.DecodeAfterEncodeGivesThePulsesBack := by
  intro s hs hsum hcoder
  have hg := hs.sencBegun_codable hsum
  have hlength := List.length_take_of_le (s.combineTree.encodeRequests_length_le.trans hcoder)
  obtain ⟨es, ⟨n, hn, hrun⟩, hreqs, -⟩ := hs.senc_reaches_end hsum hlength (List.take_append_drop _ _).symm
  refine ⟨n, _, hn, hrun, State.commandDone_macroEnd hs.notHalted _ _ _, fun d total rest hparams htotal hd hans => ?_⟩
  rw [eventsSince_of_trace_append rfl, hreqs] at hans ⊢
  have hroot : total = s.sencBegun.pulse 4 0 := BitVec.eq_of_toNat_eq (htotal.trans hs.sencBegun_root.symm)
  obtain ⟨es', ⟨m, hm, hrun'⟩, hreqs', -⟩ :=
    hd.sdec_reaches_end hg hparams hroot (answers_recorded fun r hr => hparams ▸ hg.sym_lt hr) hans
  refine ⟨m, _, hm, hrun', State.commandDone_macroEnd hd.notHalted _ _ _, rfl, ?_, fun i => ?_, rfl⟩
  · rw [eventsSince_of_trace_append rfl, hreqs']
    exact s.sencBegun.requestsFrom_rowName 0
  · exact PulseFile.read_combineTree_leaf _ _ i

end Sys2Proof.Machine
end

section
/-! PROOF. The faults of the sequencer commands (42_shell_sequencer.md R127): what holds of a run with no more words to
issue, whatever the coder answers, from the first micro-step on. -/

namespace Sys2Proof.Machine

variable {s t : State} {i : Instr} {dir : Dir} {total aMax : Nat} {q : Fin 15}

/-! ## The sum invariant at a node that is split (41_split_codec.md R109) -/

/-- Children that add up to a parent of at most `N` bits meet the sum invariant after they are written. -/
theorem State.sumsAt_writeChildren {c1 c2 : Word} (hsum : c1.toNat + c2.toNat = (s.parent (trav q)).toNat)
    (hparent : (s.parent (trav q)).toNat < 2 ^ s.params.ampBits) :
    (s.writeChildren (trav q) c1 c2).sumsAt (trav q) := by
  obtain ⟨hc1, hc2⟩ := s.writeChildren_children (a := c1) (b := c2) (isNode_trav q) (by omega) (by omega)
  rw [State.sumsAt, hc1, hc2, s.writeChildren_parent_trav c1 c2 le_rfl, hsum]

/-- A split leaves the sum invariant at the nodes visited before. -/
theorem State.sumsAt_writeChildren_earlier (c1 c2 : Word) {q' : Fin 15} (hlt : q' < q) (h : s.sumsAt (trav q')) :
    (s.writeChildren (trav q) c1 c2).sumsAt (trav q') := by
  have hne : trav q' ≠ trav q := trav_injective.ne hlt.ne
  rw [State.sumsAt, s.writeChildren_child1_other c1 c2 hne, s.writeChildren_child2_other c1 c2 hne,
    s.writeChildren_parent_trav c1 c2 hlt.le, h]

/-! ## A sequencer command under way, and the block at rest after it -/

/-- `SENC` or `SDEC` of a root total is under way, whatever the coder has answered (42_shell_sequencer.md R126,
R127). -/
structure State.UnderWay (s : State) (i : Instr) (dir : Dir) (total aMax : Nat) : Prop where
  splitting : s.Splitting i dir
  noWords : s.hostWords = []
  bounded : s.params.bounded = true
  limit : s.params.aMax = aMax
  root : (s.pulse 4 0).toNat = total
  sums : ∀ q < s.seq, s.sumsAt (trav q)
  tree : dir = .enc → s.sumsEverywhere
  passed : s.seq ≠ 0 ∨ s.pend = true → total ≤ aMax

/-- The command has ended and no other comes; if it faulted, then as 42_shell_sequencer.md R127 says. -/
structure State.AtRest (s : State) (dir : Dir) (total aMax : Nat) : Prop where
  noCommand : s.cur = none
  notPending : s.pend = false
  noSchedule : s.schedule = []
  noWords : s.hostWords = []
  fault : s.halt = true →
    (s.cause = .range ∧ s.seq = 0 ∧ aMax < total) ∨ (dir = .dec ∧ s.cause = .sym ∧ total ≤ aMax)

/-- At rest only the host moves, and it has no word to issue. -/
theorem State.AtRest.step (h : s.AtRest dir total aMax) (hstep : step s = .next t) : t.AtRest dir total aMax := by
  obtain ⟨hcur, hpend, hsched, hwords, hfault⟩ := h
  have hturn : s.turn = .host ∨ s.turn = .take := by
    rw [turn_of_empty hsched, State.enabledAgent, hcur, hpend]
    cases s.untaken <;> simp
  rcases step_cases hstep with ⟨hreset, -⟩ | rfl | ⟨-, -, w, ws, hw, -⟩ | ⟨-, w, ws, -, rfl⟩ | ⟨hcore, -⟩ |
    ⟨hcoder, -⟩
  · simp [hreset] at hturn
  · rw [popTurn_of_empty hsched]
    exact ⟨hcur, hpend, hsched, hwords, hfault⟩
  · simp [hwords] at hw
  · rw [popTurn_of_empty hsched]
    exact ⟨hcur, hpend, hsched, hwords, hfault⟩
  · simp [hcore] at hturn
  · simp [hcoder] at hturn

section
variable (h : s.UnderWay i dir total aMax)
include h

/-- No parent exceeds the total. -/
theorem State.UnderWay.parent_le : (s.parent (trav s.seq)).toNat ≤ total :=
  (State.parent_trav_le_root h.sums le_rfl).trans_eq h.root

/-- A split that is out of range is the first one, and the total is above the tables. -/
theorem State.UnderWay.of_overRange (hover : s.overRange (trav s.seq) = true) :
    s.seq = 0 ∧ aMax < total := by
  have hlt : aMax < total := (h.limit ▸ of_decide_eq_true hover).trans_le h.parent_le
  exact ⟨by_contra fun hseq => hlt.not_ge (h.passed (.inl hseq)), hlt⟩

/-- Past the range check the total is within the tables: the first parent is the root. -/
theorem State.UnderWay.total_le (hrange : s.overRange (trav s.seq) = false) : total ≤ aMax := by
  by_cases hseq : s.seq = 0
  · have hle := not_lt.mp (of_decide_eq_false hrange)
    rw [hseq, h.limit] at hle
    exact h.root.ge.trans hle
  · exact h.passed (.inl hseq)

/-- On encode no split is out of order (42_shell_sequencer.md R127). -/
theorem State.UnderWay.outOfOrder_eq (henc : dir = .enc) : s.outOfOrder (trav s.seq) = false :=
  decide_eq_false ((h.tree henc).child1_le (isNode_trav s.seq)).not_gt

/-- A request is sent for a total within the tables. -/
theorem State.UnderWay.sendRequest (r : EcRequest) (htotal : total ≤ aMax) :
    (s.sendRequest r).UnderWay i dir total aMax :=
  ⟨⟨h.splitting.isMacro, h.splitting.notHalted, h.splitting.legal, h.splitting.op, h.splitting.accepted,
    h.splitting.noSchedule⟩, h.noWords, h.bounded, h.limit, h.root, h.sums, h.tree, fun _ => htotal⟩

/-- The answer is taken and no request is pending any more. -/
theorem State.UnderWay.takeAnswer (r : EcResponse) (rs : List EcResponse) :
    State.UnderWay { s.takeAnswer r rs with pend := false } i dir total aMax :=
  ⟨⟨h.splitting.isMacro, h.splitting.notHalted, h.splitting.legal, h.splitting.op, h.splitting.accepted,
    h.splitting.noSchedule⟩, h.noWords, h.bounded, h.limit, h.root, h.sums, h.tree,
    fun hpassed => h.passed (.inl (hpassed.resolve_right nofun))⟩

/-- On decode the children of the node at hand are written, and the root and the nodes before it stay. -/
theorem State.UnderWay.writeChildren (hdec : dir = .dec) (c1 c2 : Word) :
    (s.writeChildren (trav s.seq) c1 c2).UnderWay i dir total aMax where
  splitting := ⟨h.splitting.isMacro, h.splitting.notHalted, h.splitting.legal, h.splitting.op, h.splitting.accepted,
    h.splitting.noSchedule⟩
  noWords := h.noWords
  bounded := h.bounded
  limit := h.limit
  root := by rw [s.writeChildren_pulse_other c1 c2 (not_hasChild_root s.seq), h.root]
  sums q hq := State.sumsAt_writeChildren_earlier c1 c2 hq (h.sums q hq)
  tree henc := by cases henc.symm.trans hdec
  passed := h.passed

/-- A split that has left the sum invariant at its node goes on, or ends the command without a fault. -/
theorem State.UnderWay.advance (hpend : s.pend = false) (htotal : total ≤ aMax) (hsum : s.sumsAt (trav s.seq)) :
    s.advance.UnderWay i dir total aMax ∨ s.advance.AtRest dir total aMax := by
  obtain ⟨⟨hmacro, hrun, hlegal, hop, hcur, hsched⟩, hwords, hbounded, hlimit, hroot, hsums, htree, -⟩ := h
  rcases advance_cases s with ⟨hlt, hnext⟩ | ⟨-, hlast⟩
  · rw [hnext]
    refine .inl ⟨⟨hmacro, hrun, hlegal, hop, hcur, hsched⟩, hwords, hbounded, hlimit, hroot, fun q hq => ?_, htree,
      fun _ => htotal⟩
    rcases (Nat.lt_succ_iff.mp hq).lt_or_eq with hearlier | hat
    · exact hsums q hearlier
    · exact (Fin.ext hat : q = s.seq) ▸ hsum
  · rw [hlast]
    exact .inr ⟨rfl, hpend, hsched, hwords, fun hhalt => by cases hrun.symm.trans hhalt⟩

/-- A decode split whose symbol is at most the parent goes on, or ends the command without a fault. -/
theorem State.UnderWay.decodeSplit (hpend : s.pend = false) (hdec : dir = .dec) (htotal : total ≤ aMax) {c1 c2 : Word}
    (hsum : c1.toNat + c2.toNat = (s.parent (trav s.seq)).toNat) :
    (s.writeChildren (trav s.seq) c1 c2).advance.UnderWay i dir total aMax ∨
      (s.writeChildren (trav s.seq) c1 c2).advance.AtRest dir total aMax := by
  have hparent := h.parent_le.trans (htotal.trans_eq h.limit.symm)
  exact (h.writeChildren hdec c1 c2).advance hpend htotal
    (State.sumsAt_writeChildren hsum (hparent.trans_lt (Params.aMax_lt_of_bounded h.bounded)))

/-- The core's step: `RANGE` at the first split, a request, or the end of a split with a zero parent. -/
theorem State.UnderWay.splitBegin (hpend : s.pend = false) :
    (splitBegin dir (trav s.seq) true s).UnderWay i dir total aMax ∨
      (splitBegin dir (trav s.seq) true s).AtRest dir total aMax := by
  rcases splitBegin_cases dir (trav s.seq) true s with ⟨hover, hend⟩ | ⟨-, henc, horder, -⟩ |
    ⟨hrange, henc, -, -, hend⟩ | ⟨hrange, hdec, hzero, hend⟩ | ⟨hrange, -, -, hend⟩
  · obtain ⟨hseq, htotal⟩ := h.of_overRange hover
    rw [hend]
    exact .inr ⟨rfl, rfl, h.splitting.noSchedule, h.noWords, fun _ => .inl ⟨rfl, hseq, htotal⟩⟩
  · cases (h.outOfOrder_eq henc).symm.trans horder
  · rw [hend]
    exact h.advance hpend (h.total_le hrange) (h.tree henc _ _ (isNode_trav s.seq))
  · rw [hend]
    exact h.decodeSplit hpend hdec (h.total_le hrange) (by rw [hzero]; rfl)
  · rw [hend]
    exact .inl (h.sendRequest _ (h.total_le hrange))

/-- The coder's step: the end of the split, or `SYM` on decode. -/
theorem State.UnderWay.splitComplete (hpend : s.pend = true) (r : EcResponse) (rs : List EcResponse) :
    (splitComplete ⟨dir, trav s.seq, true⟩ r (s.takeAnswer r rs)).UnderWay i dir total aMax ∨
      (splitComplete ⟨dir, trav s.seq, true⟩ r (s.takeAnswer r rs)).AtRest dir total aMax := by
  have htotal := h.passed (.inr hpend)
  have hanswered := h.takeAnswer r rs
  rcases splitComplete_cases ⟨dir, trav s.seq, true⟩ r (s.takeAnswer r rs) with ⟨henc, hend⟩ | ⟨hdec, -, hend⟩ |
    ⟨hdec, hsym, hend⟩
  · rw [hend]
    exact hanswered.advance rfl htotal (h.tree henc _ _ (isNode_trav s.seq))
  · rw [hend]
    exact .inr ⟨rfl, rfl, h.splitting.noSchedule, h.noWords, fun _ => .inr ⟨hdec, rfl, htotal⟩⟩
  · have hle := not_lt.mp (of_decide_eq_false hsym)
    rw [hend]
    exact hanswered.decodeSplit rfl hdec htotal
      ((congrArg _ (BitVec.toNat_sub_of_le hle)).trans (Nat.add_sub_of_le hle))

/-- A sequencer command under way stays so, or comes to rest. -/
theorem State.UnderWay.step (hstep : step s = .next t) :
    t.UnderWay i dir total aMax ∨ t.AtRest dir total aMax := by
  cases hpend : s.pend with
  | false =>
    cases (h.splitting.step_begin hpend).symm.trans hstep
    exact h.splitBegin hpend
  | true =>
    cases hcoder : s.coderResponses with
    | nil =>
      cases (h.splitting.step_waits hpend hcoder).symm.trans hstep
      exact .inl h
    | cons r rs =>
      cases (h.splitting.step_complete hpend hcoder).symm.trans hstep
      exact h.splitComplete hpend r rs

end

/-! ## Runs -/

/-- Every run from a sequencer command under way keeps it so or comes to rest, by induction on the number of steps. -/
theorem underWay_or_atRest_of_runSteps {k : Nat} (h : s.UnderWay i dir total aMax ∨ s.AtRest dir total aMax)
    (hrun : runSteps k s = .next t) : t.UnderWay i dir total aMax ∨ t.AtRest dir total aMax := by
  induction k generalizing s with
  | zero =>
    cases hrun
    exact h
  | succ k ih =>
    obtain ⟨u, hstep, hrest⟩ := runSteps_succ_next hrun
    exact ih (h.elim (fun hunder => hunder.step hstep) fun hrested => .inr (hrested.step hstep)) hrest

/-- A halted state of a run that begins with the first micro-step of a sequencer command has one of the faults of
42_shell_sequencer.md R127. -/
theorem State.UnderWay.fault_of_runSteps {u : State} {k : Nat} (h : t.UnderWay i dir total aMax)
    (hfirst : Machine.step s = .next t) (hrunning : s.halt = false) (hrun : runSteps k s = .next u)
    (hhalt : u.halt = true) :
    (u.cause = .range ∧ u.seq = 0 ∧ aMax < total) ∨ (dir = .dec ∧ u.cause = .sym ∧ total ≤ aMax) := by
  cases k with
  | zero =>
    cases hrun
    cases hrunning.symm.trans hhalt
  | succ k =>
    rw [runSteps_succ_of_next k hfirst] at hrun
    rcases underWay_or_atRest_of_runSteps (.inl h) hrun with hunder | hrest
    · cases hunder.splitting.notHalted.symm.trans hhalt
    · exact hrest.fault hhalt

/-- After the combine phase `SENC` is under way with the total of the leaves (42_shell_sequencer.md R122). -/
theorem State.ReadyFor.sencBegun_underWay (h : s.ReadyFor .senc .enc) (hwords : s.hostWords = []) :
    s.sencBegun.UnderWay .senc .enc s.leafSum s.params.aMax :=
  ⟨h.sencBegun_splitting, hwords, h.inv.bounded, rfl, h.sencBegun_root, fun q hq => absurd hq (Fin.not_lt_zero q),
    fun _ => h.sencBegun_sumsEverywhere, fun hpassed => by simp [State.sencBegun, h.notPending] at hpassed⟩

/-- After the root is written `SDEC v` is under way with the total `v` (42_shell_sequencer.md R123). -/
theorem State.ReadyFor.sdecBegun_underWay {v : Word} (h : s.ReadyFor (.sdec v) .dec) (hwords : s.hostWords = []) :
    (s.sdecBegun v).UnderWay (.sdec v) .dec v.toNat s.params.aMax :=
  ⟨h.sdecBegun_splitting, hwords, h.inv.bounded, rfl, congrArg BitVec.toNat h.sdecBegun_root,
    fun q hq => absurd hq (Fin.not_lt_zero q), nofun,
    fun hpassed => by simp [State.sdecBegun, h.notPending] at hpassed⟩

/-- Settles O37: the first micro-step puts the command under way, and every run from there keeps what R127 rests on. -/
theorem macroFaultsOnlyAsStated : Obligations.MacroFaultsOnlyAsStated := by
  refine ⟨fun s u k hs hwords hrun hhalt => ?_, fun s u v k hs hwords hrun hhalt => ?_⟩
  · exact ((hs.sencBegun_underWay hwords).fault_of_runSteps hs.step_senc hs.notHalted hrun hhalt).resolve_right
      fun ⟨hdec, _⟩ => nomatch hdec
  · exact ((hs.sdecBegun_underWay hwords).fault_of_runSteps hs.step_sdec hs.notHalted hrun hhalt).imp_right And.right

end Sys2Proof.Machine
end

section
/-! PROOF. The frame commands (43_coder_wrapper.md R141, R142). -/

namespace Sys2Proof.Machine

variable {s : State} {dir : Dir}

/-- `MODE` is answered with its code 2 (60_exceptions.md R171, R174). -/
theorem State.takeFault_mode_eq_haltsWith (s : State) : s.takeFault .mode = s.haltsWith .mode 0x20000000 :=
  s.takeFault_eq_haltsWith .mode

section
variable (hrun : s.halt = false)
include hrun

theorem exec_fbeg_closed (hframe : s.frame = false) :
    exec (.fbeg dir) s = .next { s with frame := true, fdir := dir }.done := by
  simp [exec, execFbeg, hrun, hframe]

theorem exec_fbeg_open (hframe : s.frame = true) : exec (.fbeg dir) s = .next (s.takeFault .mode) := by
  simp [exec, execFbeg, hrun, hframe]

theorem exec_fend_open (hframe : s.frame = true) :
    exec .fend s = .next { s with frame := false, fdir := .enc }.done := by
  simp [exec, execFend, hrun, hframe]

theorem exec_fend_closed (hframe : s.frame = false) : exec .fend s = .next (s.takeFault .mode) := by
  simp [exec, execFend, hrun, hframe]

end

/-- The word of `FBEG dir` (30_encoding.md R71). -/
theorem encode_fbeg (dir : Dir) : encode (.fbeg dir) = 0xA000000#28 ++ 0#3 ++ dir.bit := by
  cases dir <;> decide

/-- Settles O39: the two cases of the frame, and the words of the two directions. -/
theorem frameBeginOpensAFrame : Obligations.FrameBeginOpensAFrame := by
  refine fun s dir => ⟨encode_fbeg dir, fun hrun => ⟨exec_fbeg_closed hrun, fun hframe => ?_⟩⟩
  rw [exec_fbeg_open hrun hframe, State.takeFault_mode_eq_haltsWith]

/-- Settles O40: the two cases of the frame. -/
theorem frameEndClosesTheFrame : Obligations.FrameEndClosesTheFrame := by
  refine ⟨by decide, fun s hrun => ⟨exec_fend_open hrun, fun hframe => ?_⟩⟩
  rw [exec_fend_closed hrun hframe, State.takeFault_mode_eq_haltsWith]

end Sys2Proof.Machine
end

section
/-! PROOF. The coder's port (43_coder_wrapper.md R143, R145). Said once for every step: it leaves the port alone, or it is
a reset or a frame command and sends nothing, or it is the core's and sends the one request of a coded split. -/

namespace Sys2Proof.Machine

variable {s t u : State} {i : Instr} {dir : Dir} {p : PendingSplit}

/-! ## Steps that leave the port alone -/

/-- From `s` to `t` no request is sent, and `ec_own` and `ec_dir` stay. -/
structure State.LeavesPort (s t : State) : Prop where
  silent : ∃ es, t.trace = s.trace ++ es ∧ requestsOf es = []
  frame : t.frame = s.frame
  fdir : t.fdir = s.fdir

theorem State.LeavesPort.requests (h : s.LeavesPort t) : requestsOf (eventsSince s t) = [] := by
  obtain ⟨es, htrace, hes⟩ := h.silent
  rw [eventsSince_of_trace_append htrace, hes]

theorem State.LeavesPort.trans (h : s.LeavesPort t) (h' : t.LeavesPort u) : s.LeavesPort u := by
  obtain ⟨es, htrace, hes⟩ := h.silent
  obtain ⟨es', htrace', hes'⟩ := h'.silent
  refine ⟨⟨es ++ es', ?_, ?_⟩, h'.frame.trans h.frame, h'.fdir.trans h.fdir⟩
  · rw [htrace', htrace, List.append_assoc]
  · rw [requestsOf_append, hes, hes', List.append_nil]

/-- What observes nothing and writes neither `FRAME` nor `FDIR` leaves the port alone. -/
theorem State.LeavesPort.of_eq (htrace : t.trace = s.trace) (hframe : t.frame = s.frame) (hfdir : t.fdir = s.fdir) :
    s.LeavesPort t :=
  ⟨⟨[], by simp [htrace], rfl⟩, hframe, hfdir⟩

theorem State.leavesPort_respond (s : State) (rc : BitVec 4) (d : Word) : s.LeavesPort (s.respond rc d) :=
  ⟨⟨_, rfl, rfl⟩, rfl, rfl⟩

theorem State.leavesPort_takeFault (s : State) (c : Cause) : s.LeavesPort (s.takeFault c) :=
  ⟨⟨_, rfl, rfl⟩, rfl, rfl⟩

theorem State.leavesPort_illegalWord (s : State) : s.LeavesPort s.illegalWord := by
  rcases illegalWord_cases s with ⟨-, h⟩ | ⟨-, h⟩ <;> rw [h]
  · exact s.leavesPort_respond _ _
  · exact s.leavesPort_takeFault _

theorem State.LeavesPort.splitDone {m : Bool} (h : s.LeavesPort t) : s.LeavesPort (t.splitDone m) := by
  refine h.trans ⟨?_, t.splitDone_frame m, t.splitDone_fdir m⟩
  rcases t.splitDone_trace m with htrace | htrace
  · exact ⟨[], by simp [htrace], rfl⟩
  · exact ⟨_, htrace, rfl⟩

/-- A command that only writes pulse registers before it answers. -/
theorem State.leavesPort_done_of_pulses (s : State) (f : PulseFile) : s.LeavesPort { s with pulses := f }.done :=
  ⟨⟨_, rfl, rfl⟩, rfl, rfl⟩

/-- The coder's answer ends the split, or faults; it sends nothing (41_split_codec.md R104). -/
theorem leavesPort_splitComplete (p : PendingSplit) (r : EcResponse) (s : State) :
    s.LeavesPort (splitComplete p r s) := by
  rcases splitComplete_cases p r s with ⟨-, h⟩ | ⟨-, -, h⟩ | ⟨-, -, h⟩ <;> rw [h]
  · exact .splitDone (.of_eq rfl rfl rfl)
  · exact s.leavesPort_takeFault _
  · exact .splitDone (.of_eq rfl rfl rfl)

/-- A command that runs only while not halted leaves the port alone, or its body runs. -/
theorem leavesPort_or_running {body : Out} (h : whenRunning s body = .next t) :
    s.LeavesPort t ∨ s.halt = false ∧ body = .next t := by
  rcases whenRunning_next h with ⟨-, rfl⟩ | hbody
  · exact .inl (s.leavesPort_respond _ _)
  · exact .inr hbody

/-- A command that runs only for operands in range leaves the port alone, or its body runs. -/
theorem leavesPort_or_legal {body : Out} (h : whenLegal i s body = .next t) :
    s.LeavesPort t ∨ i.wellFormed s.params.ampBits = true ∧ body = .next t := by
  rcases whenLegal_next h with hbody | ⟨-, rfl⟩
  · exact .inr hbody
  · exact .inl s.leavesPort_illegalWord

/-- A command with both guards leaves the port alone, or its body runs. -/
theorem leavesPort_or_runs {body : Out} (h : whenRunning s (whenLegal i s body) = .next t) :
    s.LeavesPort t ∨ s.halt = false ∧ i.wellFormed s.params.ampBits = true ∧ body = .next t := by
  rcases leavesPort_or_running h with h | ⟨hrun, h⟩
  · exact .inl h
  · exact (leavesPort_or_legal h).imp_right fun hbody => ⟨hrun, hbody⟩

/-- A command that needs a frame of its direction leaves the port alone in any other, by `MODE`
(60_exceptions.md R174). -/
theorem leavesPort_or_framed (h : (if s.frameIs dir then .next u else .next (s.takeFault .mode) : Out) = .next t) :
    s.LeavesPort t ∨ s.frameIs dir = true ∧ t = u := by
  split at h
  next hframe =>
    cases h
    exact .inr ⟨hframe, rfl⟩
  next =>
    cases h
    exact .inl (s.leavesPort_takeFault _)

/-! ## Splits that send a request -/

/-- The core is to begin the split `p`: a single split in its frame, or one of the sequencer command that `OP` says is
running (41_split_codec.md R105, R106, 42_shell_sequencer.md R122, R123). -/
structure State.Begins (s : State) (p : PendingSplit) : Prop where
  notHalted : s.halt = false
  node : isNode p.node.lvl p.node.idx = true
  framed : s.frameIs p.dir = true ∨ s.op = Op.ofDir p.dir

/-- The split passes the checks of `SplitBegin` and its parent is not 0, so it is coded (41_split_codec.md R101, R108). -/
structure State.Codes (s : State) (p : PendingSplit) : Prop where
  inRange : s.overRange p.node = false
  ordered : p.dir = .enc → s.outOfOrder p.node = false
  coded : s.parent p.node ≠ 0

/-- The request that `SplitBegin` sends for a coded split. -/
def State.splitRequest (s : State) (p : PendingSplit) : EcRequest :=
  s.requestFor p.dir p.node (s.requestSymbol p.dir p.node)

/-- `SplitBegin` leaves the port alone, or sends the request of a coded split. -/
theorem splitBegin_port_cases (p : PendingSplit) (s : State) :
    s.LeavesPort (splitBegin p.dir p.node p.inMacro s) ∨
      (s.Codes p ∧ splitBegin p.dir p.node p.inMacro s = s.sendRequest (s.splitRequest p)) := by
  rcases splitBegin_cases p.dir p.node p.inMacro s with ⟨-, h⟩ | ⟨-, -, -, h⟩ | ⟨-, -, -, -, h⟩ | ⟨-, -, -, h⟩ |
    ⟨hrange, horder, hcoded, h⟩
  · exact .inl (h ▸ s.leavesPort_takeFault _)
  · exact .inl (h ▸ s.leavesPort_takeFault _)
  · exact .inl (h ▸ .splitDone (.of_eq rfl rfl rfl))
  · exact .inl (h ▸ .splitDone (.of_eq rfl rfl rfl))
  · exact .inr ⟨⟨hrange, horder, hcoded⟩, h⟩

/-! ## Commands -/

/-- `FBEG` and `FEND`. -/
def IsFrameCommand (i : Instr) : Prop := i = .fend ∨ ∃ dir, i = .fbeg dir

/-- Every micro-step of a command leaves the port alone, or is that of `FBEG` or `FEND` and sends nothing, or begins a
split. -/
theorem exec_port_cases (h : exec i s = .next t) :
    s.LeavesPort t ∨ (IsFrameCommand i ∧ requestsOf (eventsSince s t) = []) ∨
      ∃ p, s.Begins p ∧ t = splitBegin p.dir p.node p.inMacro s := by
  cases i with
  | nop | rds =>
    cases h
    exact .inl (s.leavesPort_respond _ _)
  | rd k j =>
    rcases leavesPort_or_legal h with h | ⟨-, h⟩
    · exact .inl h
    · cases h
      exact .inl (s.leavesPort_respond _ _)
  | wr | cmb =>
    rcases leavesPort_or_runs h with h | ⟨-, -, h⟩
    · exact .inl h
    · cases h
      exact .inl (s.leavesPort_done_of_pulses _)
  | cmbt =>
    rcases leavesPort_or_running h with h | ⟨-, h⟩
    · exact .inl h
    · cases h
      exact .inl (s.leavesPort_done_of_pulses _)
  | espl l j =>
    rcases leavesPort_or_runs h with h | ⟨hrun, hnode, h⟩
    · exact .inl h
    · exact (leavesPort_or_framed h).imp_right fun ⟨hframe, hsplit⟩ =>
        .inr ⟨⟨.enc, .ofFields l j, false⟩, ⟨hrun, hnode, .inl hframe⟩, hsplit⟩
  | dspl l j =>
    rcases leavesPort_or_runs h with h | ⟨hrun, hnode, h⟩
    · exact .inl h
    · exact (leavesPort_or_framed h).imp_right fun ⟨hframe, hsplit⟩ =>
        .inr ⟨⟨.dec, .ofFields l j, false⟩, ⟨hrun, hnode, .inl hframe⟩, hsplit⟩
  | senc =>
    rcases leavesPort_or_running h with h | ⟨hrun, h⟩
    · exact .inl h
    · cases hop : s.op <;> rw [hop] at h
      case idle =>
        rcases leavesPort_or_framed h with h | ⟨-, rfl⟩
        · exact .inl h
        · exact .inl (.of_eq rfl rfl rfl)
      case enc =>
        cases h
        exact .inr (.inr ⟨⟨.enc, trav s.seq, true⟩, ⟨hrun, isNode_trav s.seq, .inr hop⟩, rfl⟩)
      case dec => cases h
  | sdec v =>
    rcases leavesPort_or_runs h with h | ⟨hrun, -, h⟩
    · exact .inl h
    · cases hop : s.op <;> rw [hop] at h
      case idle =>
        rcases leavesPort_or_framed h with h | ⟨-, rfl⟩
        · exact .inl h
        · exact .inl (.of_eq rfl rfl rfl)
      case dec =>
        cases h
        exact .inr (.inr ⟨⟨.dec, trav s.seq, true⟩, ⟨hrun, isNode_trav s.seq, .inr hop⟩, rfl⟩)
      case enc => cases h
  | fbeg dir =>
    rcases leavesPort_or_running h with h | ⟨-, h⟩
    · exact .inl h
    · split at h <;> cases h
      · exact .inl (s.leavesPort_takeFault _)
      · exact .inr (.inl ⟨.inr ⟨dir, rfl⟩, requestsOf_of_trace_respond rfl⟩)
  | fend =>
    rcases leavesPort_or_running h with h | ⟨-, h⟩
    · exact .inl h
    · split at h <;> cases h
      · exact .inr (.inl ⟨.inl rfl, requestsOf_of_trace_respond rfl⟩)
      · exact .inl (s.leavesPort_takeFault _)

/-! ## Steps -/

/-- `CUR` holds a word that decodes (10_state.md R31). -/
theorem State.command_of_decode {w : CommandWord} (hcur : s.cur = some w) (h : decode s.params.ampBits w = .ok i) :
    s.command = some i := by
  simp [State.command, hcur, h]

/-- Everything a step can do to the port: it leaves the port alone; or it is a reset, or the core's with a frame command,
and sends nothing; or the core sends the one request of a coded split. -/
theorem step_port_cases (h : step s = .next t) :
    s.LeavesPort t ∨
    ((s.turn = .reset ∨ s.turn = .core ∧ ∃ i, s.command = some i ∧ IsFrameCommand i) ∧
      requestsOf (eventsSince s t) = []) ∨
    (s.pend = false ∧ ∃ p, s.popTurn.Begins p ∧ s.popTurn.Codes p ∧
      t = s.popTurn.sendRequest (s.popTurn.splitRequest p)) := by
  have hpop : s.LeavesPort s.popTurn := .of_eq rfl rfl rfl
  rcases step_cases h with ⟨hreset, rfl⟩ | rfl | ⟨-, -, w, ws, -, rfl⟩ | ⟨-, w, ws, -, rfl⟩ |
    ⟨hcore, hpend, w, hcur, ⟨i, hdecode, hexec⟩ | ⟨e, -, rfl⟩⟩ | ⟨-, -, r, rs, p, -, -, rfl⟩
  · exact .inr (.inl ⟨.inl hreset, by rw [eventsSince_popTurn_resetBlock]; rfl⟩)
  · exact .inl hpop
  · exact .inl (.of_eq rfl rfl rfl)
  · exact .inl ⟨⟨_, rfl, rfl⟩, rfl, rfl⟩
  · rcases exec_port_cases hexec with hleaves | ⟨hi, hsilent⟩ | ⟨p, hbegins, rfl⟩
    · exact .inl (hpop.trans hleaves)
    · exact .inr (.inl ⟨.inr ⟨hcore, i, State.command_of_decode hcur hdecode, hi⟩, hsilent⟩)
    · rcases splitBegin_port_cases p s.popTurn with hleaves | ⟨hcodes, hsend⟩
      · exact .inl (hpop.trans hleaves)
      · exact .inr (.inr ⟨hpend, p, hbegins, hcodes, hsend⟩)
  · exact .inl (hpop.trans s.popTurn.leavesPort_illegalWord)
  · have hanswer : s.LeavesPort { s.popTurn with coderResponses := rs, trace := s.trace ++ [.answer r] } :=
      ⟨⟨_, rfl, rfl⟩, rfl, rfl⟩
    exact .inl (hanswer.trans (leavesPort_splitComplete p r _))

/-- Settles O42: a step that changes a pin does not leave the port alone, and the one that sends a request writes neither
`FRAME` nor `FDIR`. -/
theorem coderPinsChangeOnlyByFrameCommands : Obligations.CoderPinsChangeOnlyByFrameCommands := by
  refine ⟨fun s => ⟨rfl, rfl⟩, fun s t hstep hchange => ?_⟩
  rcases step_port_cases hstep with hleaves | ⟨hcause, -⟩ | ⟨-, p, -, -, rfl⟩
  · exact (hchange.elim (· hleaves.frame) (· hleaves.fdir)).elim
  · refine hcause.imp_right (And.imp_right ?_)
    rintro ⟨i, hcommand, rfl | ⟨dir, rfl⟩⟩
    · exact .inl hcommand
    · exact .inr ⟨dir, hcommand⟩
  · exact (hchange.elim (· rfl) (· rfl)).elim

/-! ## The fields of a request -/

theorem State.frameIs_iff : s.frameIs dir = true ↔ s.frame = true ∧ s.fdir = dir := by
  simp [State.frameIs]

/-- Under the invariant a sequencer command runs in a frame of its direction (42_shell_sequencer.md R122, R123). -/
theorem State.Inv.frameIs_of_op (h : s.Inv) (hrun : s.halt = false) (hop : s.op = Op.ofDir dir) :
    s.frameIs dir = true := by
  have hmacro := h.running hrun
  cases dir <;> simp only [State.macroInOrder, hop, Op.ofDir] at hmacro <;> exact hmacro.2

/-- The symbol of a coded split is at most the parent: child1 in order on encode, 0 on decode
(43_coder_wrapper.md R143). -/
theorem State.Codes.requestSymbol_le (h : s.Codes p) :
    (s.requestSymbol p.dir p.node).toNat ≤ (s.parent p.node).toNat := by
  cases hdir : p.dir with
  | enc => exact not_lt.mp (of_decide_eq_false (h.ordered hdir))
  | dec => exact Nat.zero_le _

/-- Settles O41: the step sends the request of a coded split that the core begins, whose checks bound the fields, and the
invariant gives the frame of a sequencer command. -/
theorem everyRequestIsLawful : Obligations.EveryRequestIsLawful := by
  intro s t r hinv hstep hr
  rcases step_port_cases hstep with hleaves | ⟨-, hsilent⟩ | ⟨hpend, p, hbegins, hcodes, rfl⟩
  · simp [hleaves.requests] at hr
  · simp [hsilent] at hr
  have hsent : requestsOf (eventsSince s (s.popTurn.sendRequest (s.popTurn.splitRequest p))) =
      [s.popTurn.splitRequest p] := by rw [eventsSince_of_trace_append rfl]; rfl
  obtain rfl : r = s.popTurn.splitRequest p := by simpa [hsent] using hr
  have hrun : s.halt = false := hbegins.notHalted
  obtain ⟨hframe, hdir⟩ := State.frameIs_iff.mp (hbegins.framed.elim id (hinv.frameIs_of_op hrun))
  have hsymbol {dir : Dir} (h : p.dir = dir) :
      (s.popTurn.splitRequest p).sym = s.popTurn.requestSymbol dir p.node := by rw [← h]; rfl
  exact ⟨hsent, hpend, rfl, hrun, hrun, hframe, hdir.symm, ⟨p.node.idx, hbegins.node, rfl, hsymbol⟩,
    Nat.pos_of_ne_zero fun hzero => hcodes.coded (BitVec.eq_of_toNat_eq hzero),
    not_lt.mp (of_decide_eq_false hcodes.inRange), Params.aMax_lt_of_bounded hinv.bounded, rfl,
    hcodes.requestSymbol_le, hsymbol, rfl, rfl⟩

end Sys2Proof.Machine
end

section
/-! PROOF. The host access commands (44_host_access.md R160 to R163): their words, what `exec` makes of each, and the one
register that `WR` writes. -/

namespace Sys2Proof.Machine

variable {s : State} {k : BitVec 3} {i : BitVec 4} {v : Word}

/-! ## The words of the commands (30_encoding.md R71) -/

theorem encode_wr (k : BitVec 3) (i : BitVec 4) (v : Word) :
    encode (.wr k i v) = 0x1#4 ++ 0#1 ++ k ++ i ++ 0#4 ++ v := rfl

/-- `Z16` and the unused `IMM` are one field of 20 zeros. -/
theorem encode_rd (k : BitVec 3) (i : BitVec 4) : encode (.rd k i) = 0x2#4 ++ 0#1 ++ k ++ i ++ 0#20 :=
  BitVec.append_assoc (x₁ := 0x2#4 ++ 0#1 ++ k ++ i) (x₂ := 0#4) (x₃ := 0#16)

/-! ## The commands that also execute while halted -/

/-- A response without an error is its data, zero-extended (30_encoding.md R74). -/
theorem State.respond_ok_eq_endsWith (s : State) (data : Word) : s.respond 0 data = s.endsWith (0#16 ++ data) := rfl

theorem exec_nop (s : State) : exec .nop s = .next s.done := rfl

theorem exec_rds (s : State) : exec .rds s = .next (s.respond 0 s.status) := rfl

theorem exec_rd (hreg : k.toNat ≤ 4 ∧ i.toNat < 16 >>> k.toNat) :
    exec (.rd k i) s = .next (s.respond 0 (s.pulse k.toNat i.toNat)) :=
  whenLegal_of_wellFormed ((Instr.wellFormed_rd_iff _ k i).mpr hreg)

/-! ## `WR` -/

theorem exec_wr (hrun : s.halt = false) (hlegal : (Instr.wr k i v).wellFormed s.params.ampBits = true) :
    exec (.wr k i v) s = .next (s.writePulse k.toNat i.toNat v).done := by
  simp [exec, execWr, hrun, hlegal]

theorem exec_wr_halted (hhalt : s.halt = true) : exec (.wr k i v) s = .next s.refuseHalted :=
  whenRunning_of_halted hhalt

/-- A value within the register's width is read back whole (10_state.md R20). -/
theorem PulseFile.read_write_of_lt {n k i : Nat} (f : PulseFile) (hreg : isRegister k i = true)
    (hv : v.toNat < 2 ^ (n + k)) : (f.write n k i v).read k i = v := by
  rw [PulseFile.read_write_same n f v hreg, fit_of_lt hv]

/-! ## The statements -/

/-- Settles O14: a value within its width is stored whole and no other register is written; halted, the guard answers for
the command, and out of range its word is illegal. -/
theorem writeStoresExactlyOneRegister : Obligations.WriteStoresExactlyOneRegister := by
  intro s k i v
  refine ⟨encode_wr k i v, fun hlegal => ⟨fun hrun => ?_, fun hhalt => ?_⟩, fun hillegal => ?_⟩
  · obtain ⟨hk, hi, hv⟩ := hlegal
    refine ⟨s.pulses.write s.params.ampBits k.toNat i.toNat v, ?_, ?_, fun k' i' hother => ?_⟩
    · exact exec_wr hrun ((Instr.wellFormed_wr_iff _ k i v).mpr ⟨hk, hi, hv⟩)
    · exact PulseFile.read_write_of_lt _ ((isRegister_iff _ _).mpr ⟨hk, hi⟩) hv
    · exact PulseFile.read_write_other _ _ v hother
  · rw [exec_wr_halted hhalt, State.refuseHalted_eq_endsWith]
  · rw [← Instr.wellFormed_wr_iff, Bool.not_eq_true] at hillegal
    exact illegalWord_encode hillegal

/-- Settles O13: the response word of `Respond(0, 0)` is 0. -/
theorem nopAnswersZeroInAnyState : Obligations.NopAnswersZeroInAnyState :=
  ⟨by decide, fun s => (exec_nop s).trans (congrArg Host.Outcome.next s.done_eq_endsWith)⟩

/-- Settles O15: in range the command answers the register; out of range its word is illegal. -/
theorem readAnswersTheRegister : Obligations.ReadAnswersTheRegister := by
  refine fun s k i => ⟨encode_rd k i, fun hreg => ?_, fun hillegal => ?_⟩
  · rw [exec_rd hreg, State.respond_ok_eq_endsWith]
  · rw [← Instr.wellFormed_rd_iff s.params.ampBits, Bool.not_eq_true] at hillegal
    exact illegalWord_encode hillegal

/-- Settles O16: the response is `STATUS`, whose definition is the concatenation of the rule. -/
theorem readStatusAnswersStatus : Obligations.ReadStatusAnswersStatus := by
  refine ⟨by decide, fun s => ⟨?_, rfl⟩⟩
  rw [exec_rds, State.respond_ok_eq_endsWith]

end Sys2Proof.Machine
end

section
/-! PROOF. Faults and the halted state (60_exceptions.md R172 to R174, R180, R181). Said once for every step: from a
state that is not halted it halts by `Fault` of a cause only, and a micro-step of a halted block is one response. -/

namespace Sys2Proof.Machine

variable {s t u : State} {i : Instr} {dir : Dir} {w : CommandWord} {l : BitVec 3} {j : BitVec 4} {v : Word} {c : Cause}

/-! ## The core's turn (10_state.md R37) -/

theorem step_core (hturn : s.turn = .core) : step s = coreTurn s.popTurn := by
  rw [step, hturn, runTurn]

section
variable (hturn : s.turn = .core) (hpend : s.pend = false) (hcur : s.cur = some w)
include hturn hpend hcur

theorem step_core_of_decode_ok (hdecode : decode s.params.ampBits w = .ok i) : step s = exec i s.popTurn := by
  simp [step_core hturn, coreTurn, hpend, hcur, hdecode]

theorem step_core_of_decode_error {e : DecodeError} (hdecode : decode s.params.ampBits w = .error e) :
    step s = .next s.popTurn.illegalWord := by
  simp [step_core hturn, coreTurn, hpend, hcur, hdecode]

end

/-- Settles O6: the word is illegal, and the core finds it in the state that has used up the turn. -/
theorem illegalWordTakesIll : Obligations.IllegalWordTakesIll := by
  intro s w e hturn hpend hrun hcur hdecode
  rw [step_core hturn]
  exact (illegalWord_of_decode_error hdecode).raisesIll s.popTurn rfl hrun hpend hcur

/-! ## The wrong frame (60_exceptions.md R174) -/

section
variable (hrun : s.halt = false)
include hrun

theorem exec_espl_wrongFrame (hlegal : (Instr.espl l j).wellFormed s.params.ampBits = true)
    (hframe : s.frameIs .enc = false) : exec (.espl l j) s = .next (s.takeFault .mode) := by
  simp [exec, execEspl, hrun, hlegal, hframe]

theorem exec_dspl_wrongFrame (hlegal : (Instr.dspl l j).wellFormed s.params.ampBits = true)
    (hframe : s.frameIs .dec = false) : exec (.dspl l j) s = .next (s.takeFault .mode) := by
  simp [exec, execDspl, hrun, hlegal, hframe]

theorem exec_senc_wrongFrame (hidle : s.op = .idle) (hframe : s.frameIs .enc = false) :
    exec .senc s = .next (s.takeFault .mode) := by
  simp [exec, execSenc, hrun, hidle, hframe]

theorem exec_sdec_wrongFrame (hlegal : (Instr.sdec v).wellFormed s.params.ampBits = true) (hidle : s.op = .idle)
    (hframe : s.frameIs .dec = false) : exec (.sdec v) s = .next (s.takeFault .mode) := by
  simp [exec, execSdec, hrun, hlegal, hidle, hframe]

end

theorem State.frameIs_eq_false (h : ¬ (s.frame = true ∧ s.fdir = dir)) : s.frameIs dir = false :=
  Bool.eq_false_iff.mpr (mt State.frameIs_iff.mp h)

/-- Settles O46: a command at a time, each with the frame that it does not accept. -/
theorem wrongFrameTakesMode : Obligations.WrongFrameTakesMode := by
  intro s i hrun hlegal h
  rw [← State.takeFault_mode_eq_haltsWith]
  rcases h with ⟨⟨l, j, rfl⟩ | ⟨rfl, hidle⟩, hframe⟩ | ⟨⟨l, j, rfl⟩ | ⟨⟨v, rfl⟩, hidle⟩, hframe⟩ | ⟨⟨dir, rfl⟩, hopen⟩ |
    ⟨rfl, hclosed⟩
  · exact exec_espl_wrongFrame hrun hlegal (State.frameIs_eq_false hframe)
  · exact exec_senc_wrongFrame hrun hidle (State.frameIs_eq_false hframe)
  · exact exec_dspl_wrongFrame hrun hlegal (State.frameIs_eq_false hframe)
  · exact exec_sdec_wrongFrame hrun hlegal hidle (State.frameIs_eq_false hframe)
  · exact exec_fbeg_open hrun hopen
  · exact exec_fend_closed hrun hclosed

/-! ## Micro-steps of a halted block (60_exceptions.md R180) -/

theorem State.illegalWord_of_halted (hhalt : s.halt = true) : s.illegalWord = s.refuseHalted :=
  if_pos hhalt

/-- Every command but `NOP`, `RD` and `RDS` is turned away by the guard on `HALT`. -/
theorem exec_of_halted (hhalt : s.halt = true) (hnop : i ≠ .nop) (hrd : ∀ k j, i ≠ .rd k j) (hrds : i ≠ .rds) :
    exec i s = .next s.refuseHalted := by
  cases i with
  | nop => exact absurd rfl hnop
  | rd k j => exact absurd rfl (hrd k j)
  | rds => exact absurd rfl hrds
  | wr | cmb | cmbt | espl | dspl | senc | sdec | fbeg | fend => exact whenRunning_of_halted hhalt

/-- Every micro-step of a halted block is one response. -/
theorem exec_halted_responds (hhalt : s.halt = true) (h : exec i s = .next t) : ∃ rc d, t = s.respond rc d := by
  cases i with
  | nop | rds =>
    cases h
    exact ⟨_, _, rfl⟩
  | rd k j =>
    rcases whenLegal_next h with ⟨-, h⟩ | ⟨-, rfl⟩
    · cases h
      exact ⟨_, _, rfl⟩
    · exact ⟨_, _, State.illegalWord_of_halted hhalt⟩
  | wr | cmb | cmbt | espl | dspl | senc | sdec | fbeg | fend =>
    cases (whenRunning_of_halted hhalt).symm.trans h
    exact ⟨_, _, rfl⟩

/-- Settles O47: the three commands that execute, and the recorded cause for every other word, legal or not. -/
theorem haltedBlockAnswersTheRecordedCause : Obligations.HaltedBlockAnswersTheRecordedCause := by
  intro s w hhalt hturn hpend hcur
  have hok {i : Instr} := step_core_of_decode_ok (i := i) hturn hpend hcur
  refine ⟨fun hnop => ?_, fun k i hrd => ?_, fun hrds => ?_, fun hnop hrd hrds => ?_⟩
  · rw [hok hnop, exec_nop, State.done_eq_endsWith]
  · obtain ⟨-, -, hlegal⟩ := decode_eq_ok_iff.mp hrd
    rw [hok hrd, exec_rd ((Instr.wellFormed_rd_iff _ k i).mp hlegal), State.respond_ok_eq_endsWith, State.popTurn_pulse]
  · rw [hok hrds, exec_rds, State.respond_ok_eq_endsWith]
    rfl
  · have hrefused : step s = .next s.popTurn.refuseHalted := by
      cases hdecode : decode s.params.ampBits w with
      | ok i =>
        rw [hdecode] at hnop hrd hrds
        rw [hok hdecode]
        have hne {j : Instr} (h : Except.ok (ε := DecodeError) i ≠ .ok j) : i ≠ j := mt (congrArg _) h
        exact exec_of_halted hhalt (hne hnop) (fun k j => hne (hrd k j)) (hne hrds)
      | error e =>
        have hill := State.illegalWord_of_halted (s := s.popTurn) hhalt
        rw [step_core_of_decode_error hturn hpend hcur hdecode, hill]
    rw [hrefused, State.refuseHalted_eq_endsWith, State.popTurn_cause]

/-- Settles O49: the core's turn is one response, the coder's has no request to answer, and the host's turns write
no register that the statement names. -/
theorem onlyResetLeavesTheHaltedState : Obligations.OnlyResetLeavesTheHaltedState := by
  intro s t hhalt hpend hstep hturn
  rcases step_cases hstep with ⟨hreset, -⟩ | rfl | ⟨-, -, w, ws, -, rfl⟩ | ⟨-, w, ws, -, rfl⟩ | ⟨-, -, w, -, hcore⟩ |
    ⟨-, hpending, -⟩
  · exact absurd hreset hturn
  · exact ⟨hhalt, rfl, rfl, rfl, rfl, rfl, rfl, requestsOf_of_trace_eq rfl⟩
  · exact ⟨hhalt, rfl, rfl, rfl, rfl, rfl, rfl, requestsOf_of_trace_eq rfl⟩
  · exact ⟨hhalt, rfl, rfl, rfl, rfl, rfl, rfl, by rw [eventsSince_of_trace_append rfl]; rfl⟩
  · obtain ⟨rc, d, rfl⟩ : ∃ rc d, t = s.popTurn.respond rc d := by
      rcases hcore with ⟨i, -, hexec⟩ | ⟨e, -, rfl⟩
      · exact exec_halted_responds hhalt hexec
      · exact ⟨_, _, State.illegalWord_of_halted hhalt⟩
    exact ⟨hhalt, rfl, rfl, rfl, rfl, rfl, rfl, requestsOf_of_trace_respond rfl⟩
  · cases hpend.symm.trans hpending

/-! ## The entry into the halted state (60_exceptions.md R172) -/

/-- Where `t` is halted, it is `s` after `Fault` of a cause. -/
def State.HaltsOnlyByFault (s t : State) : Prop := t.halt = true → ∃ c, c ≠ .noFault ∧ t = s.takeFault c

theorem State.HaltsOnlyByFault.of_running (h : t.halt = false) : s.HaltsOnlyByFault t :=
  fun hhalt => by cases h.symm.trans hhalt

theorem State.HaltsOnlyByFault.of_takeFault (h : t = s.takeFault c) (hc : c ≠ .noFault) : s.HaltsOnlyByFault t :=
  fun _ => ⟨c, hc, h⟩

/-- A command that needs a frame of its direction takes `MODE` in any other. -/
theorem State.HaltsOnlyByFault.of_framed
    (h : (if s.frameIs dir then .next u else .next (s.takeFault .mode) : Out) = .next t) (hu : s.HaltsOnlyByFault u) :
    s.HaltsOnlyByFault t := by
  split at h <;> cases h
  · exact hu
  · exact .of_takeFault rfl nofun

section
variable (hrun : s.halt = false)
include hrun

theorem haltsOnlyByFault_illegalWord : s.HaltsOnlyByFault s.illegalWord := by
  rcases illegalWord_cases s with ⟨hhalt, -⟩ | ⟨-, hill⟩
  · cases hrun.symm.trans hhalt
  · exact .of_takeFault hill nofun

/-- A command that runs only for operands in range takes `ILL` for any other. -/
theorem haltsOnlyByFault_of_legal {body : Out} (h : whenLegal i s body = .next t)
    (hbody : body = .next t → s.HaltsOnlyByFault t) : s.HaltsOnlyByFault t := by
  rcases whenLegal_next h with ⟨-, h⟩ | ⟨-, rfl⟩
  · exact hbody h
  · exact haltsOnlyByFault_illegalWord hrun

/-- `SplitBegin` halts by `RANGE` or `ORDER` only (41_split_codec.md R101). -/
theorem haltsOnlyByFault_splitBegin (dir : Dir) (nd : Node) (m : Bool) :
    s.HaltsOnlyByFault (splitBegin dir nd m s) := by
  rcases splitBegin_cases dir nd m s with ⟨-, h⟩ | ⟨-, -, -, h⟩ | ⟨-, -, -, -, h⟩ | ⟨-, -, -, h⟩ | ⟨-, -, -, h⟩
  · exact .of_takeFault h nofun
  · exact .of_takeFault h nofun
  · exact .of_running (by rw [h, State.splitDone_halt, hrun])
  · exact .of_running (by rw [h, State.splitDone_halt, State.writeChildren_halt, hrun])
  · exact .of_running (by rw [h, State.sendRequest_halt, hrun])

/-- `SplitComplete` halts by `SYM` only (41_split_codec.md R104). -/
theorem haltsOnlyByFault_splitComplete (p : PendingSplit) (r : EcResponse) :
    s.HaltsOnlyByFault (splitComplete p r s) := by
  rcases splitComplete_cases p r s with ⟨-, h⟩ | ⟨-, -, h⟩ | ⟨-, -, h⟩
  · exact .of_running (by rw [h, State.splitDone_halt, hrun])
  · exact .of_takeFault h nofun
  · exact .of_running (by rw [h, State.splitDone_halt, State.writeChildren_halt, hrun])

/-- Every micro-step of a command halts by a fault only. -/
theorem exec_haltsOnlyByFault (h : exec i s = .next t) : s.HaltsOnlyByFault t := by
  have hbody {body : Out} (h : whenRunning s body = .next t) : body = .next t :=
    (whenRunning_of_running hrun).symm.trans h
  cases i with
  | nop | rds =>
    cases h
    exact .of_running hrun
  | rd =>
    refine haltsOnlyByFault_of_legal hrun h fun h => ?_
    cases h
    exact .of_running hrun
  | wr | cmb =>
    refine haltsOnlyByFault_of_legal hrun (hbody h) fun h => ?_
    cases h
    exact .of_running hrun
  | cmbt =>
    cases hbody h
    exact .of_running hrun
  | espl l j =>
    exact haltsOnlyByFault_of_legal hrun (hbody h) (.of_framed · (haltsOnlyByFault_splitBegin hrun _ _ _))
  | dspl l j =>
    exact haltsOnlyByFault_of_legal hrun (hbody h) (.of_framed · (haltsOnlyByFault_splitBegin hrun _ _ _))
  | senc =>
    have h := hbody h
    cases hop : s.op <;> rw [hop] at h
    case idle => exact .of_framed h (.of_running hrun)
    case enc =>
      cases h
      exact haltsOnlyByFault_splitBegin hrun _ _ _
    case dec => cases h
  | sdec v =>
    refine haltsOnlyByFault_of_legal hrun (hbody h) fun h => ?_
    cases hop : s.op <;> rw [hop] at h
    case idle => exact .of_framed h (.of_running hrun)
    case dec =>
      cases h
      exact haltsOnlyByFault_splitBegin hrun _ _ _
    case enc => cases h
  | fbeg dir =>
    have h := hbody h
    split at h <;> cases h
    · exact .of_takeFault rfl nofun
    · exact .of_running hrun
  | fend =>
    have h := hbody h
    split at h <;> cases h
    · exact .of_running hrun
    · exact .of_takeFault rfl nofun

/-- A step that halts is the core's fault, or `SYM` of the answer that the coder has given. -/
theorem step_halts_cases (hstep : step s = .next t) :
    s.popTurn.HaltsOnlyByFault t ∨ ∃ r rs, (s.popTurn.takeAnswer r rs).HaltsOnlyByFault t := by
  rcases step_cases hstep with ⟨-, rfl⟩ | rfl | ⟨-, -, w, ws, -, rfl⟩ | ⟨-, w, ws, -, rfl⟩ |
    ⟨-, -, w, -, ⟨i, -, hexec⟩ | ⟨e, -, rfl⟩⟩ | ⟨-, -, r, rs, p, -, -, rfl⟩
  · exact .inl (.of_running rfl)
  · exact .inl (.of_running hrun)
  · exact .inl (.of_running hrun)
  · exact .inl (.of_running hrun)
  · exact .inl (exec_haltsOnlyByFault hrun hexec)
  · exact .inl (haltsOnlyByFault_illegalWord hrun)
  · exact .inr ⟨r, rs, haltsOnlyByFault_splitComplete (s := s.popTurn.takeAnswer r rs) hrun p r⟩

end

/-- A fault adds its response to what has been observed before it. -/
theorem eventsSince_takeFault {es : List Event} (c : Cause) (h : u.trace = s.trace ++ es) :
    eventsSince s (u.takeFault c) = es ++ [.respond (c.code.setWidth 4 ++ 0#28)] :=
  eventsSince_of_trace_append (by rw [State.takeFault_trace, h, List.append_assoc, responseWord_zero])

/-- Settles O48: the state before the fault differs from `s` in the used turn, or also in the answer taken, which is
neither a response nor a request. -/
theorem faultEntryRecordsTheCauseAndNothingElse : Obligations.FaultEntryRecordsTheCauseAndNothingElse := by
  intro s t hrun hstep hhalt
  rcases step_halts_cases hrun hstep with hfault | ⟨r, rs, hfault⟩ <;> obtain ⟨c, hc, rfl⟩ := hfault hhalt
  · have hevents := eventsSince_takeFault (s := s) (u := s.popTurn) (es := []) c (List.append_nil _).symm
    exact ⟨hc, rfl, rfl, by rw [hevents]; rfl, by rw [hevents]; rfl, rfl, rfl, rfl, rfl, rfl⟩
  · have hevents := eventsSince_takeFault (s := s) (u := s.popTurn.takeAnswer r rs) (es := [.answer r]) c rfl
    exact ⟨hc, rfl, rfl, by rw [hevents]; rfl, by rw [hevents]; rfl, rfl, rfl, rfl, rfl, rfl⟩

end Sys2Proof.Machine
end

section
/-! PROOF. Decoding and encoding are each other's inverse (30_encoding.md R73, R76). A row of the opcode map fixes the
opcode and the zero fields, and the word of a command carries its operands in the bits that the row leaves free. -/

namespace Sys2Proof

variable {n : Nat} {w x : CommandWord} {i : Instr} {r : OpcodeRow}

/-- Settles O2: the opcode names the command, the word has the bits of its row, and the operands are in range. -/
theorem decodeOfEncodeIsTheCommand : Obligations.DecodeOfEncodeIsTheCommand :=
  fun _ _ => Machine.decode_encode_of_wellFormed

theorem OpcodeRow.selects_iff : r.selects w = true ↔ w &&& r.mask = r.bits := by
  simp [OpcodeRow.selects]

/-- Two words of one row are equal where the bits that the row leaves free are. -/
theorem OpcodeRow.eq_of_selects (hw : r.selects w = true) (hx : r.selects x = true)
    (hfree : x &&& ~~~r.mask = w &&& ~~~r.mask) : x = w := by
  have hfixed : x &&& r.mask = w &&& r.mask :=
    (OpcodeRow.selects_iff.mp hx).trans (OpcodeRow.selects_iff.mp hw).symm
  have hsplit (v : CommandWord) : v = v &&& r.mask ||| v &&& ~~~r.mask := by
    rw [← BitVec.and_or_distrib_left, BitVec.or_not_self, BitVec.and_allOnes]
  rw [hsplit x, hsplit w, hfixed, hfree]

/-! ## The operands of a word that its opcode names -/

section
variable (w : CommandWord) (o : BitVec 4) (l : BitVec 3) (j : BitVec 4) (m : Word)

theorem packWord_fieldLvl : packWord o (fieldLvl w) j m &&& 0x07000000 = w &&& 0x07000000 := by
  ext b hb
  rw [BitVec.getElem_and, BitVec.getElem_and, packWord_getElem, fieldLvl]
  interval_cases b <;> simp [BitVec.getLsbD_eq_getElem]

theorem packWord_fieldIdx : packWord o l (fieldIdx w) m &&& 0x00F00000 = w &&& 0x00F00000 := by
  ext b hb
  rw [BitVec.getElem_and, BitVec.getElem_and, packWord_getElem, fieldIdx]
  interval_cases b <;> simp [BitVec.getLsbD_eq_getElem]

theorem packWord_fieldImm : packWord o l j (fieldImm w) &&& 0x0000FFFF = w &&& 0x0000FFFF := by
  ext b hb
  rw [BitVec.getElem_and, BitVec.getElem_and, packWord_getElem, fieldImm]
  interval_cases b <;> simp [BitVec.getLsbD_eq_getElem]

theorem and_or_congr {a b : CommandWord} (ha : x &&& a = w &&& a) (hb : x &&& b = w &&& b) :
    x &&& (a ||| b) = w &&& (a ||| b) := by
  rw [BitVec.and_or_distrib_left, ha, hb, ← BitVec.and_or_distrib_left]

/-- `LVL` and `IDX`, the operands of `RD`, `ESPL` and `DSPL`. -/
theorem packWord_fieldLvl_fieldIdx :
    packWord o (fieldLvl w) (fieldIdx w) m &&& 0x07F00000 = w &&& 0x07F00000 :=
  and_or_congr w (packWord_fieldLvl w o _ m) (packWord_fieldIdx w o _ m)

/-- Bit 0 of the word of `FBEG` is the direction it codes. -/
theorem encode_fbeg_ofBit :
    encode (.fbeg (Dir.ofBit (w.extractLsb' 0 1))) &&& 0x00000001 = w &&& 0x00000001 := by
  have hbit (c : BitVec 1) : (Dir.ofBit c).bit = c := by revert c; decide
  ext b hb
  rw [BitVec.getElem_and, BitVec.getElem_and, encode, packWord_getElem, hbit]
  interval_cases b <;> simp [BitVec.getLsbD_eq_getElem]

end

/-- The command that the opcode names has, in the bits that its row leaves free, the word's own bits. -/
theorem encode_commandOf_free (h : commandOf w = some i) : encode i &&& ~~~i.row.mask = w &&& ~~~i.row.mask := by
  have hwr : ~~~rowWr.mask = 0x07F00000 ||| 0x0000FFFF := by decide
  have hrd : ~~~rowRd.mask = 0x07F00000 := by decide
  have hcmb : ~~~rowCmb.mask = 0x07000000 := by decide
  have hespl : ~~~rowEspl.mask = 0x07F00000 := by decide
  have hdspl : ~~~rowDspl.mask = 0x07F00000 := by decide
  have hsdec : ~~~rowSdec.mask = 0x0000FFFF := by decide
  have hfbeg : ~~~rowFbeg.mask = 0x00000001 := by decide
  unfold commandOf at h
  split at h <;> cases h <;> rw [Instr.row]
  case h_1 | h_4 | h_6 | h_9 | h_12 => exact (BitVec.and_zero).trans BitVec.and_zero.symm
  case h_2 => exact hwr ▸ and_or_congr w (packWord_fieldLvl_fieldIdx w _ _) (packWord_fieldImm w _ _ _)
  case h_3 => exact hrd ▸ packWord_fieldLvl_fieldIdx w _ _
  case h_5 => exact hcmb ▸ packWord_fieldLvl w _ _ _
  case h_7 => exact hespl ▸ packWord_fieldLvl_fieldIdx w _ _
  case h_8 => exact hdspl ▸ packWord_fieldLvl_fieldIdx w _ _
  case h_10 => exact hsdec ▸ packWord_fieldImm w _ _ _
  case h_11 => exact hfbeg ▸ encode_fbeg_ofBit w

/-- Settles O3: the word and the word of its command have the fixed bits of one row, and the free bits are the word's. -/
theorem decodedWordIsItsCommandsWord : Obligations.DecodedWordIsItsCommandsWord := by
  intro n w i h
  obtain ⟨hcmd, hrow, hrange⟩ := decode_eq_ok_iff.mp h
  exact ⟨hrange, OpcodeRow.eq_of_selects hrow (row_selects_encode i) (encode_commandOf_free hcmd)⟩

end Sys2Proof
end

section
/-! PROOF. Said once for every command: the ways in which its micro-step can end (10_state.md R37), each with what the
later proofs need of it. -/

namespace Sys2Proof.Machine

variable {s t u : State} {i : Instr} {dir : Dir} {p : PendingSplit} {n k : Nat} {q : Fin 15} {f : PulseFile}

/-! ## Registers within their widths (10_state.md R20) -/

/-- Every register of the file is within its width. -/
def PulseFile.Fits (n : Nat) (f : PulseFile) : Prop := ∀ k i, (f.read k i).toNat < 2 ^ (n + k)

theorem PulseFile.Fits.write (h : f.Fits n) (k i : Nat) (v : Word) : (f.write n k i v).Fits n :=
  PulseFile.read_write_lt n f k i v h

theorem PulseFile.Fits.combineLevel (h : f.Fits n) (k : Nat) : (f.combineLevel n k).Fits n := by
  intro k' i
  by_cases hk : k' = k
  · subst hk
    cases hreg : isRegister k' i with
    | false => rw [PulseFile.read_of_not_register _ hreg]; exact Nat.two_pow_pos _
    | true =>
      cases k' with
      | zero => exact h 0 i
      | succ k => rw [PulseFile.read_combineLevel n f (Nat.le_add_left 1 k) hreg]; exact fit_lt _ _
  · rw [PulseFile.read_combineLevel_other n f i hk]
    exact h k' i

theorem PulseFile.Fits.combineTree (h : f.Fits n) : (f.combineTree n).Fits n :=
  (((h.combineLevel 1).combineLevel 2).combineLevel 3).combineLevel 4

theorem PulseFile.fits_zero (n : Nat) : PulseFile.zero.Fits n := fun k i => by
  rw [PulseFile.read_zero]
  exact Nat.two_pow_pos _

/-! ## The ends of a micro-step -/

/-- `WR`, `CMB` and `CMBT`: the commands that write pulse registers and answer in one micro-step. -/
def IsWriter (i : Instr) : Prop := (∃ k j v, i = .wr k j v) ∨ (∃ k, i = .cmb k) ∨ i = .cmbt

/-- Not a sequencer command. -/
def IsSingle (i : Instr) : Prop := ∀ dir, ¬ IsMacro i dir

/-- A micro-step of the command `i` from `s` ends in the state given. -/
inductive MicroStep (i : Instr) (s : State) : State → Prop
  /-- a response, and nothing written -/
  | responds (rc : BitVec 4) (data : Word) (hend : s.halt = false → IsSingle i) : MicroStep i s (s.respond rc data)
  /-- a fault of the command or of an operand -/
  | faults {c : Cause} (hrun : s.halt = false) (hc : c ≠ .noFault) : MicroStep i s (s.takeFault c)
  /-- `WR`, `CMB`, `CMBT` -/
  | writes {f : PulseFile} (hi : IsWriter i) (hf : s.pulses.Fits s.params.ampBits → f.Fits s.params.ampBits) :
    MicroStep i s { s with pulses := f }.done
  /-- `FBEG`, `FEND` -/
  | setsFrame {frame : Bool} {dir : Dir} (hi : IsFrameCommand i) (hclosed : frame = false → dir = .enc) :
    MicroStep i s { s with frame := frame, fdir := dir }.done
  /-- the combine phase of `SENC` -/
  | beginsSenc (hi : i = .senc) (hrun : s.halt = false) (hidle : s.op = .idle) (hframe : s.frameIs .enc = true) :
    MicroStep i s s.sencBegun
  /-- the root total of `SDEC` -/
  | beginsSdec {v : Word} (hi : i = .sdec v) (hrun : s.halt = false) (hidle : s.op = .idle)
    (hframe : s.frameIs .dec = true) : MicroStep i s (s.sdecBegun v)
  /-- `SplitBegin` of `ESPL`, `DSPL`, `SENC` or `SDEC` -/
  | splits {p : PendingSplit} (hsplit : splitOf s.seq i = some p) (hbegins : s.Begins p)
    (hop : p.inMacro = true → s.op = Op.ofDir p.dir) : MicroStep i s (splitBegin p.dir p.node p.inMacro s)

/-- A command that runs only while not halted. -/
theorem MicroStep.of_running {body : Out} (h : whenRunning s body = .next t)
    (hbody : s.halt = false → body = .next t → MicroStep i s t) : MicroStep i s t := by
  rcases whenRunning_next h with ⟨hhalt, rfl⟩ | ⟨hrun, h⟩
  · exact .responds _ _ fun hrun => by cases hhalt.symm.trans hrun
  · exact hbody hrun h

theorem MicroStep.illegalWord (i : Instr) (s : State) : MicroStep i s s.illegalWord := by
  rcases illegalWord_cases s with ⟨hhalt, h⟩ | ⟨hrun, h⟩ <;> rw [h]
  · exact .responds _ _ fun hrun => by cases hhalt.symm.trans hrun
  · exact .faults hrun nofun

/-- A command that runs only for operands in range. -/
theorem MicroStep.of_legal {body : Out} (h : whenLegal i s body = .next t)
    (hbody : i.wellFormed s.params.ampBits = true → body = .next t → MicroStep i s t) : MicroStep i s t := by
  rcases whenLegal_next h with ⟨hlegal, h⟩ | ⟨-, rfl⟩
  · exact hbody hlegal h
  · exact .illegalWord i s

/-- A command that needs an open frame of its direction (60_exceptions.md R174). -/
theorem MicroStep.of_framed (hrun : s.halt = false)
    (h : (if s.frameIs dir then .next u else .next (s.takeFault .mode) : Out) = .next t)
    (hu : s.frameIs dir = true → MicroStep i s u) : MicroStep i s t := by
  split at h
  next hframe =>
    cases h
    exact hu hframe
  next =>
    cases h
    exact .faults hrun nofun

/-- Everything a micro-step can do (10_state.md R37). -/
theorem exec_microStep (h : exec i s = .next t) : MicroStep i s t := by
  cases i with
  | nop | rds =>
    cases h
    exact .responds _ _ fun _ => nofun
  | rd k j =>
    refine .of_legal h fun _ h => ?_
    cases h
    exact .responds _ _ fun _ => nofun
  | wr k j v =>
    refine .of_running h fun _ h => .of_legal h fun _ h => ?_
    cases h
    exact .writes (.inl ⟨k, j, v, rfl⟩) fun hf => hf.write _ _ _
  | cmb k =>
    refine .of_running h fun _ h => .of_legal h fun _ h => ?_
    cases h
    exact .writes (.inr (.inl ⟨k, rfl⟩)) fun hf => hf.combineLevel _
  | cmbt =>
    refine .of_running h fun _ h => ?_
    cases h
    exact .writes (.inr (.inr rfl)) fun hf => hf.combineTree
  | espl l j =>
    exact .of_running h fun hrun h => .of_legal h fun hnode h => .of_framed hrun h fun hframe =>
      .splits (p := ⟨.enc, .ofFields l j, false⟩) rfl ⟨hrun, hnode, .inl hframe⟩ nofun
  | dspl l j =>
    exact .of_running h fun hrun h => .of_legal h fun hnode h => .of_framed hrun h fun hframe =>
      .splits (p := ⟨.dec, .ofFields l j, false⟩) rfl ⟨hrun, hnode, .inl hframe⟩ nofun
  | senc =>
    refine .of_running h fun hrun h => ?_
    cases hop : s.op <;> rw [hop] at h
    case idle => exact .of_framed hrun h (.beginsSenc rfl hrun hop)
    case enc =>
      cases h
      exact .splits (p := ⟨.enc, trav s.seq, true⟩) rfl ⟨hrun, isNode_trav s.seq, .inr hop⟩ fun _ => hop
    case dec => cases h
  | sdec v =>
    refine .of_running h fun hrun h => .of_legal h fun _ h => ?_
    cases hop : s.op <;> rw [hop] at h
    case idle => exact .of_framed hrun h (.beginsSdec rfl hrun hop)
    case dec =>
      cases h
      exact .splits (p := ⟨.dec, trav s.seq, true⟩) rfl ⟨hrun, isNode_trav s.seq, .inr hop⟩ fun _ => hop
    case enc => cases h
  | fbeg dir =>
    refine .of_running h fun hrun h => ?_
    split at h <;> cases h
    · exact .faults hrun nofun
    · exact .setsFrame (.inr ⟨dir, rfl⟩) nofun
  | fend =>
    refine .of_running h fun hrun h => ?_
    split at h <;> cases h
    · exact .setsFrame (.inl rfl) fun _ => rfl
    · exact .faults hrun nofun

/-! ## The split of a command -/

/-- The split of the pending request is that of the command in execution (10_state.md R32). -/
theorem State.pendingSplit_eq_some (h : s.pendingSplit = some p) :
    ∃ i, s.command = some i ∧ splitOf s.seq i = some p :=
  Option.bind_eq_some_iff.mp h

theorem State.cur_ne_none_of_command (h : s.command = some i) : s.cur ≠ none := by
  intro hcur
  simp [State.command, hcur] at h

/-- Only `DSPL` and `SDEC` split on decode. -/
theorem splitOf_dec (h : splitOf q i = some p) (hdec : p.dir = .dec) : (∃ l j, i = .dspl l j) ∨ ∃ x, i = .sdec x := by
  cases i with
  | dspl l j => exact .inl ⟨l, j, rfl⟩
  | sdec x => exact .inr ⟨x, rfl⟩
  | espl | senc => cases h; cases hdec
  | nop | wr | rd | rds | cmb | cmbt | fbeg | fend => cases h

/-- The split of a sequencer command is that of its direction at `TRAV[SEQ]`. -/
theorem splitOf_inMacro (h : splitOf q i = some p) (hmacro : p.inMacro = true) :
    IsMacro i p.dir ∧ p.node = trav q := by
  cases i with
  | senc => cases h; exact ⟨.senc, rfl⟩
  | sdec x => cases h; exact ⟨.sdec x, rfl⟩
  | espl | dspl => cases h; cases hmacro
  | nop | wr | rd | rds | cmb | cmbt | fbeg | fend => cases h

/-- The split of any other command is not. -/
theorem splitOf_single (h : splitOf q i = some p) (hmacro : p.inMacro = false) : IsSingle i := by
  rintro dir ⟨⟩ <;> cases h <;> cases hmacro

/-- A single split writes neither `SEQ` nor `OP` (10_state.md R26). -/
theorem splitBegin_single (dir : Dir) (nd : Node) (s : State) :
    (splitBegin dir nd false s).seq = s.seq ∧ (splitBegin dir nd false s).op = s.op := by
  rcases splitBegin_cases dir nd false s with ⟨-, h⟩ | ⟨-, -, -, h⟩ | ⟨-, -, -, -, h⟩ | ⟨-, -, -, h⟩ | ⟨-, -, -, h⟩ <;>
    exact h ▸ ⟨rfl, rfl⟩

theorem splitComplete_single (hsingle : p.inMacro = false) (r : EcResponse) (s : State) :
    (splitComplete p r s).seq = s.seq ∧ (splitComplete p r s).op = s.op := by
  rcases splitComplete_cases p r s with ⟨-, h⟩ | ⟨-, -, h⟩ | ⟨-, -, h⟩ <;> rw [h]
  · rw [hsingle]; exact ⟨rfl, rfl⟩
  · exact ⟨rfl, rfl⟩
  · rw [hsingle]; exact ⟨rfl, rfl⟩

theorem IsMacro.eq_senc_or_sdec (h : IsMacro i dir) : i = .senc ∨ ∃ x, i = .sdec x := by
  cases h with
  | senc => exact .inl rfl
  | sdec v => exact .inr ⟨v, rfl⟩

theorem IsWriter.single (h : IsWriter i) : IsSingle i := by
  rcases h with ⟨k, j, v, rfl⟩ | ⟨k, rfl⟩ | rfl <;> exact fun _ => nofun

theorem IsFrameCommand.single (h : IsFrameCommand i) : IsSingle i := by
  rcases h with rfl | ⟨dir, rfl⟩ <;> exact fun _ => nofun

end Sys2Proof.Machine
end

section
/-! PROOF. The invariant of the block (10_state.md R20, R24 to R28, R32, 60_exceptions.md R170): the state after reset meets
it, every step keeps it, and under it no step stops. -/

namespace Sys2Proof.Machine

variable {s t : State} {i : Instr} {dir : Dir} {p : PendingSplit} {nd : Node} {f : PulseFile} {c : Cause}

/-! ## The part of the invariant that does not speak of the command in execution -/

/-- The parameters are in bounds, every register is within its width, and `HALT`, `FDIR` and `SEQ` agree with `CAUSE`,
`FRAME` and `OP`. -/
structure State.Sound (s : State) : Prop where
  bounded : s.params.bounded = true
  fits : s.pulses.Fits s.params.ampBits
  haltHasCause : s.halt = true ↔ s.cause ≠ .noFault
  closedFrame : s.frame = false → s.fdir = .enc
  idleSeq : s.op = .idle → s.seq = 0

theorem State.Inv.sound (h : s.Inv) : s.Sound := ⟨h.bounded, h.fits, h.haltHasCause, h.closedFrame, h.idleSeq⟩

theorem State.Sound.resetBlock (h : s.Sound) : s.resetBlock.Sound :=
  ⟨h.bounded, PulseFile.fits_zero _, by simp, fun _ => rfl, fun _ => rfl⟩

theorem State.Sound.respond (h : s.Sound) (rc : BitVec 4) (data : Word) : (s.respond rc data).Sound :=
  ⟨h.bounded, h.fits, h.haltHasCause, h.closedFrame, h.idleSeq⟩

theorem State.Sound.takeFault (h : s.Sound) (hc : c ≠ .noFault) : (s.takeFault c).Sound :=
  ⟨h.bounded, h.fits, iff_of_true rfl hc, h.closedFrame, h.idleSeq⟩

theorem State.Sound.setPulses (h : s.Sound) (hf : f.Fits s.params.ampBits) : State.Sound { s with pulses := f } :=
  ⟨h.bounded, hf, h.haltHasCause, h.closedFrame, h.idleSeq⟩

theorem State.Sound.writeChildren (h : s.Sound) (nd : Node) (c1 c2 : Word) : (s.writeChildren nd c1 c2).Sound :=
  h.setPulses ((h.fits.write _ _ _).write _ _ _)

/-! ## The invariant from its two parts -/

/-- With no request pending and no sequencer command under way, nothing is asked of the command in execution. -/
theorem State.Sound.inv_of_idle (h : s.Sound) (hpend : s.pend = false) (hidle : s.halt = false → s.op = .idle) :
    s.Inv where
  bounded := h.bounded
  fits := h.fits
  haltHasCause := h.haltHasCause
  haltNotPending _ := hpend
  closedFrame := h.closedFrame
  idleSeq := h.idleSeq
  running hrun := by simp [State.macroInOrder, hidle hrun]
  pending hp := by cases hpend.symm.trans hp

/-- While not halted, a sequencer command under way stays in order. -/
theorem State.Sound.inv_of_order (h : s.Sound) (hrun : s.halt = false) (horder : s.macroInOrder)
    (hpending : s.pend = true → ∃ p, s.PendingOf p) : s.Inv where
  bounded := h.bounded
  fits := h.fits
  haltHasCause := h.haltHasCause
  haltNotPending hhalt := by cases hrun.symm.trans hhalt
  closedFrame := h.closedFrame
  idleSeq := h.idleSeq
  running _ := horder
  pending := hpending

/-- A fault keeps the invariant (60_exceptions.md R172). -/
theorem State.Sound.takeFault_inv (h : s.Sound) (hc : c ≠ .noFault) : (s.takeFault c).Inv :=
  (h.takeFault hc).inv_of_idle rfl nofun

/-- What is outside the block does not matter. -/
theorem State.Inv.outside (h : s.Inv) (ws : List CommandWord) (rs : List EcResponse) (us : List CommandWord)
    (turns : List Agent) (es : List Event) :
    State.Inv { s with hostWords := ws, coderResponses := rs, untaken := us, schedule := turns, trace := es } where
  bounded := h.bounded
  fits := h.fits
  haltHasCause := h.haltHasCause
  haltNotPending := h.haltNotPending
  closedFrame := h.closedFrame
  idleSeq := h.idleSeq
  running := h.running
  pending hp := (h.pending hp).imp fun _ hof =>
    ⟨hof.split, hof.frame, hof.inMacro, hof.coded, hof.inRange, hof.ordered⟩

theorem State.Inv.popTurn (h : s.Inv) : s.popTurn.Inv := h.outside _ _ _ _ _

theorem State.Inv.takeAnswer (h : s.Inv) (r : EcResponse) (rs : List EcResponse) : (s.takeAnswer r rs).Inv :=
  h.outside _ _ _ _ _

/-! ## The command in execution -/

/-- `OP` is `IDLE` or the code of a direction's sequencer command (10_state.md R25). -/
theorem Op.eq_idle_or_ofDir (op : Op) : op = .idle ∨ ∃ dir, op = Op.ofDir dir := by
  cases op with
  | idle => exact .inl rfl
  | enc => exact .inr ⟨.enc, rfl⟩
  | dec => exact .inr ⟨.dec, rfl⟩

theorem Op.ofDir_ne_idle (dir : Dir) : Op.ofDir dir ≠ .idle := by
  cases dir <;> exact nofun

/-- While `OP` says that a sequencer command runs, it is the one in execution (10_state.md R26). -/
theorem State.Inv.command_of_op (h : s.Inv) (hrun : s.halt = false) (hop : s.op = Op.ofDir dir) :
    ∃ i, s.command = some i ∧ IsMacro i dir := by
  have horder := h.running hrun
  cases dir <;> simp only [State.macroInOrder, hop, Op.ofDir] at horder
  case enc => exact ⟨_, horder.1, .senc⟩
  case dec =>
    obtain ⟨⟨v, hcommand⟩, -⟩ := horder
    exact ⟨_, hcommand, .sdec v⟩

/-- Under any other command `OP` is `IDLE`. -/
theorem State.Inv.idle_of_single (h : s.Inv) (hrun : s.halt = false) (hcommand : s.command = some i)
    (hi : IsSingle i) : s.op = .idle := by
  rcases s.op.eq_idle_or_ofDir with hidle | ⟨dir, hop⟩
  · exact hidle
  · obtain ⟨j, hj, hmacro⟩ := h.command_of_op hrun hop
    cases hcommand.symm.trans hj
    exact absurd hmacro (hi dir)

/-- With no command in execution `OP` is `IDLE` and no request is pending. -/
theorem State.Inv.idle_of_none (h : s.Inv) (hcur : s.cur = none) :
    s.pend = false ∧ (s.halt = false → s.op = .idle) := by
  have hnone : s.command = none := by simp [State.command, hcur]
  refine ⟨Bool.eq_false_iff.mpr fun hpend => ?_, fun hrun => ?_⟩
  · obtain ⟨p, hof⟩ := h.pending hpend
    simpa [State.pendingSplit, hnone] using hof.split
  · rcases s.op.eq_idle_or_ofDir with hidle | ⟨dir, hop⟩
    · exact hidle
    · obtain ⟨i, hi, -⟩ := h.command_of_op hrun hop
      cases hnone.symm.trans hi

/-! ## Splits -/

/-- `SplitDone` of a single split ends its command, and that of a sequencer command leaves it in order
(41_split_codec.md R110, 42_shell_sequencer.md R124). -/
theorem State.Sound.splitDone {m : Bool} (h : s.Sound) (hpend : s.pend = false) (hrun : s.halt = false)
    (horder : s.macroInOrder) (hm : m = decide (s.op ≠ .idle)) : (s.splitDone m).Inv := by
  cases m with
  | false => exact (h.respond 0 0).inv_of_idle hpend fun _ => not_not.mp (of_decide_eq_false hm.symm)
  | true =>
    obtain ⟨hbounded, hfits, hcause, hclosed, -⟩ := h
    have hbusy : s.op ≠ .idle := of_decide_eq_true hm.symm
    show s.advance.Inv
    rcases advance_cases s with ⟨hlt, hnext⟩ | ⟨-, hlast⟩
    · rw [hnext]
      exact State.Sound.inv_of_order ⟨hbounded, hfits, hcause, hclosed, fun hop => absurd hop hbusy⟩ hrun horder
        fun hp => by cases hpend.symm.trans hp
    · rw [hlast]
      exact State.Sound.inv_of_idle ⟨hbounded, hfits, hcause, hclosed, fun _ => rfl⟩ hpend fun _ => rfl

/-- `SplitBegin` of the command in execution keeps the invariant: a request that it sends has passed its checks. -/
theorem State.Inv.splitBegin (h : s.Inv) (hpend : s.pend = false) (hsplit : s.pendingSplit = some p)
    (hrun : s.halt = false) (hframe : s.frameIs p.dir = true) (hm : p.inMacro = decide (s.op ≠ .idle)) :
    (splitBegin p.dir p.node p.inMacro s).Inv := by
  have hsound := h.sound
  have horder := h.running hrun
  rcases splitBegin_cases p.dir p.node p.inMacro s with ⟨-, hend⟩ | ⟨-, -, -, hend⟩ | ⟨-, -, -, -, hend⟩ |
    ⟨-, -, -, hend⟩ | ⟨hrange, hordered, hcoded, hend⟩ <;> rw [hend]
  · exact hsound.takeFault_inv nofun
  · exact hsound.takeFault_inv nofun
  · exact hsound.splitDone hpend hrun horder hm
  · exact (hsound.writeChildren _ _ _).splitDone hpend hrun horder hm
  · exact State.Sound.inv_of_order ⟨h.bounded, h.fits, h.haltHasCause, h.closedFrame, h.idleSeq⟩ hrun horder
      fun _ => ⟨p, hsplit, hframe, hm, hcoded, hrange, hordered⟩

/-- `SplitComplete` of the pending split keeps the invariant. -/
theorem State.Inv.splitComplete (h : s.Inv) (hpend : s.pend = true) (hsplit : s.pendingSplit = some p)
    (r : EcResponse) : (splitComplete p r s).Inv := by
  obtain ⟨p', hof⟩ := h.pending hpend
  obtain rfl : p' = p := Option.some.inj (hof.split.symm.trans hsplit)
  have hrun : s.halt = false := Bool.eq_false_iff.mpr fun hhalt => by cases (h.haltNotPending hhalt).symm.trans hpend
  have hsound : State.Sound { s with pend := false } :=
    ⟨h.bounded, h.fits, h.haltHasCause, h.closedFrame, h.idleSeq⟩
  have horder := h.running hrun
  rcases splitComplete_cases p' r s with ⟨-, hend⟩ | ⟨-, -, hend⟩ | ⟨-, -, hend⟩ <;> rw [hend]
  · exact hsound.splitDone rfl hrun horder hof.inMacro
  · exact h.sound.takeFault_inv nofun
  · exact (hsound.writeChildren _ _ _).splitDone rfl hrun horder hof.inMacro

/-! ## Micro-steps -/

theorem State.Inv.illegalWord (h : s.Inv) (hpend : s.pend = false) : s.illegalWord.Inv := by
  rcases illegalWord_cases s with ⟨hhalt, hend⟩ | ⟨-, hend⟩ <;> rw [hend]
  · exact (h.sound.respond _ _).inv_of_idle hpend fun hrun => by cases hhalt.symm.trans hrun
  · exact h.sound.takeFault_inv nofun

/-- Every micro-step of the command in execution keeps the invariant. -/
theorem MicroStep.inv (hstep : MicroStep i s t) (h : s.Inv) (hpend : s.pend = false) (hcommand : s.command = some i) :
    t.Inv := by
  cases hstep with
  | responds rc data hend =>
    exact (h.sound.respond rc data).inv_of_idle hpend fun hrun => h.idle_of_single hrun hcommand (hend hrun)
  | faults _ hc => exact h.sound.takeFault_inv hc
  | writes hi hf =>
    exact ((h.sound.setPulses (hf h.fits)).respond 0 0).inv_of_idle hpend fun hrun =>
      h.idle_of_single hrun hcommand hi.single
  | setsFrame hi hclosed =>
    have hsound := h.sound
    exact State.Sound.inv_of_idle ⟨hsound.bounded, hsound.fits, hsound.haltHasCause, hclosed, hsound.idleSeq⟩ hpend
      fun hrun => h.idle_of_single hrun hcommand hi.single
  | beginsSenc hi _ _ hframe =>
    subst hi
    exact ⟨h.bounded, h.sound.fits.combineTree, h.haltHasCause, h.haltNotPending, h.closedFrame, nofun,
      fun _ => ⟨hcommand, hframe⟩, fun hp => by cases hpend.symm.trans hp⟩
  | beginsSdec hi _ _ hframe =>
    subst hi
    exact ⟨h.bounded, h.sound.fits.write _ _ _, h.haltHasCause, h.haltNotPending, h.closedFrame, nofun,
      fun _ => ⟨⟨_, hcommand⟩, hframe⟩, fun hp => by cases hpend.symm.trans hp⟩
  | @splits p hsplit hbegins hop =>
    have hrun := hbegins.notHalted
    refine h.splitBegin hpend ?_ hrun (hbegins.framed.elim id (h.frameIs_of_op hrun)) ?_
    · rw [State.pendingSplit, hcommand]
      exact hsplit
    · cases hm : p.inMacro with
      | false => simpa using h.idle_of_single hrun hcommand (splitOf_single hsplit hm)
      | true => simpa [hop hm] using Op.ofDir_ne_idle p.dir

/-! ## The statements -/

theorem Params.bounded_iff {p : Params} :
    p.bounded = true ↔ 1 ≤ p.ampBits ∧ p.ampBits ≤ 12 ∧ 1 ≤ p.aMax ∧ p.aMax ≤ 255 ∧ p.aMax < 2 ^ p.ampBits := by
  simp only [Params.bounded, Bool.and_eq_true, decide_eq_true_eq, and_assoc]

/-- Whatever `A_MAX` the reset state holds, it is one of 1..255 (log 3). -/
theorem Params.unlisted_bounded : Params.unlisted.bounded = true := by
  have hmax : Config.aMax < 2 ^ 8 := Nat.succ_lt_succ Config.aMaxIndex.isLt
  exact Params.bounded_iff.mpr
    ⟨by decide, by decide, Nat.le_add_left 1 _, Nat.le_of_lt_succ hmax, hmax⟩

theorem State.reset_sound : State.reset.Sound where
  bounded := Params.unlisted_bounded
  fits := PulseFile.fits_zero _
  haltHasCause := by decide
  closedFrame _ := rfl
  idleSeq _ := rfl

/-- Settles O54: no command is in execution and none is halted. -/
theorem resetMeetsTheInvariant : Obligations.ResetMeetsTheInvariant := by
  have hinv : State.reset.Inv := State.reset_sound.inv_of_idle rfl fun _ => rfl
  exact ⟨hinv, hinv, nofun, nofun, fun hbusy => absurd rfl hbusy, fun hbusy => absurd rfl hbusy⟩

/-- Settles O55: by the agent whose turn it is, and for the core by the end of the micro-step. -/
theorem stepKeepsTheInvariant : Obligations.StepKeepsTheInvariant := by
  intro s t h hstep
  have hpop := h.popTurn
  rcases step_cases hstep with ⟨-, rfl⟩ | rfl | ⟨-, hcur, w, ws, -, rfl⟩ | ⟨-, w, ws, -, rfl⟩ |
    ⟨-, hpend, w, hcur, ⟨i, hdecode, hexec⟩ | ⟨e, -, rfl⟩⟩ | ⟨-, hpend, r, rs, p, -, hsplit, rfl⟩
  · exact hpop.sound.resetBlock.inv_of_idle rfl fun _ => rfl
  · exact hpop
  · obtain ⟨hpend, hidle⟩ := h.idle_of_none hcur
    exact State.Sound.inv_of_idle ⟨h.bounded, h.fits, h.haltHasCause, h.closedFrame, h.idleSeq⟩ hpend hidle
  · exact h.outside _ _ _ _ _
  · exact (exec_microStep hexec).inv hpop hpend (State.command_of_decode hcur hdecode)
  · exact hpop.illegalWord hpend
  · exact (hpop.takeAnswer r rs).splitComplete hpend hsplit r

/-! ## No step stops -/

/-- An outcome that goes on. -/
def IsNext (o : Out) : Prop := ∃ t, o = .next t

theorem IsNext.of_whenRunning {body : Out} (h : s.halt = false → IsNext body) : IsNext (whenRunning s body) := by
  cases hhalt : s.halt with
  | true => exact ⟨_, whenRunning_of_halted hhalt⟩
  | false => rw [whenRunning_of_running hhalt]; exact h hhalt

theorem IsNext.of_whenLegal {body : Out} (h : IsNext body) : IsNext (whenLegal i s body) := by
  unfold whenLegal
  split
  · exact h
  · exact ⟨_, rfl⟩

theorem IsNext.of_ite (b : Bool) (u v : State) : IsNext (if b then .next u else .next v) := by
  cases b <;> exact ⟨_, rfl⟩

/-- A micro-step stops at most where `OP` says that the other sequencer command runs (log 15). -/
theorem exec_isNext (h : ∀ dir, s.halt = false → IsMacro i dir → s.op = .idle ∨ s.op = Op.ofDir dir) :
    IsNext (exec i s) := by
  cases i with
  | nop | rds => exact ⟨_, rfl⟩
  | rd => exact .of_whenLegal ⟨_, rfl⟩
  | wr | cmb => exact .of_whenRunning fun _ => .of_whenLegal ⟨_, rfl⟩
  | cmbt => exact .of_whenRunning fun _ => ⟨_, rfl⟩
  | espl | dspl => exact .of_whenRunning fun _ => .of_whenLegal (.of_ite _ _ _)
  | fbeg | fend => exact .of_whenRunning fun _ => .of_ite _ _ _
  | senc =>
    refine .of_whenRunning fun hrun => ?_
    rcases h .enc hrun .senc with hop | hop <;> rw [hop]
    · exact .of_ite _ _ _
    · exact ⟨_, rfl⟩
  | sdec v =>
    refine .of_whenRunning fun hrun => .of_whenLegal ?_
    rcases h .dec hrun (.sdec v) with hop | hop <;> rw [hop]
    · exact .of_ite _ _ _
    · exact ⟨_, rfl⟩

/-- A command is a sequencer command of at most one direction. -/
theorem IsMacro.dir_unique {dir' : Dir} (h : IsMacro i dir) (h' : IsMacro i dir') : dir' = dir := by
  cases h <;> cases h' <;> rfl

/-- Under the invariant the core's turn goes on. -/
theorem State.Inv.coreTurn_isNext (h : s.Inv) : IsNext (coreTurn s) := by
  unfold coreTurn
  split
  · exact ⟨_, rfl⟩
  · split
    · exact ⟨_, rfl⟩
    next w hcur =>
      split
      next i hdecode =>
        refine exec_isNext fun dir hrun hmacro => (s.op.eq_idle_or_ofDir).imp_right ?_
        rintro ⟨dir', hop⟩
        obtain ⟨j, hj, hmacro'⟩ := h.command_of_op hrun hop
        cases (State.command_of_decode hcur hdecode).symm.trans hj
        rw [hop, hmacro.dir_unique hmacro']
      · exact ⟨_, rfl⟩

/-- Under the invariant a pending request is that of the command in execution, so the coder's turn goes on. -/
theorem State.Inv.coderTurn_isNext (h : s.Inv) : IsNext (coderTurn s) := by
  unfold coderTurn
  split
  next hpend =>
    obtain ⟨p, hof⟩ := h.pending hpend
    rw [hof.split]
    split <;> exact ⟨_, rfl⟩
  · exact ⟨_, rfl⟩

theorem hostTurn_isNext (s : State) : IsNext (hostTurn s) := by
  unfold hostTurn
  split <;> exact ⟨_, rfl⟩

theorem takeTurn_isNext (s : State) : IsNext (takeTurn s) := by
  unfold takeTurn
  split <;> exact ⟨_, rfl⟩

/-- Settles O56: the turns of the host and the reset always go on, and under the invariant the core's and the coder's. -/
theorem noStepStopsUnderTheInvariant : Obligations.NoStepStopsUnderTheInvariant := by
  intro s h
  show IsNext (runTurn s.turn s.popTurn)
  cases s.turn with
  | host => exact hostTurn_isNext _
  | take => exact takeTurn_isNext _
  | core => exact h.popTurn.coreTurn_isNext
  | coder => exact h.popTurn.coderTurn_isNext
  | reset => exact ⟨_, rfl⟩

end Sys2Proof.Machine
end

section
/-! PROOF. The invariant of a running sequencer command (42_shell_sequencer.md R126, R127). While the command is under way
the core and the coder do what they do in a run of it alone, where every turn is theirs and no word is to come. -/

namespace Sys2Proof.Machine

variable {s t u : State} {i : Instr} {dir : Dir} {p : PendingSplit} {nd : Node} {q : Fin 15} {m : Bool}
  {total aMax : Nat}

/-! ## The same state with every turn left to the enabled agent and no word to come -/

def State.alone (s : State) : State := { s with schedule := [], hostWords := [] }

theorem State.advance_alone (s : State) : s.advance.alone = s.alone.advance := by
  rw [State.advance, apply_dite State.alone]
  rfl

theorem State.splitDone_alone (s : State) (m : Bool) : (s.splitDone m).alone = s.alone.splitDone m := by
  cases m with
  | false => rfl
  | true => exact s.advance_alone

/-- `SplitBegin` neither reads nor writes the schedule and the words to come. -/
theorem splitBegin_alone (dir : Dir) (nd : Node) (m : Bool) (s : State) :
    (splitBegin dir nd m s).alone = splitBegin dir nd m s.alone := by
  cases dir <;> simp only [splitBegin, apply_ite State.alone, State.splitDone_alone] <;> rfl

/-- Nor does `SplitComplete`. -/
theorem splitComplete_alone (p : PendingSplit) (r : EcResponse) (s : State) :
    (splitComplete p r s).alone = splitComplete p r s.alone := by
  unfold splitComplete
  cases p.dir
  · exact State.splitDone_alone _ _
  · simp only [apply_ite State.alone, State.splitDone_alone]
    rfl

/-! ## A sequencer command under way -/

/-- The word in `CUR` is that of the command in execution, which is legal (30_encoding.md R73). -/
theorem State.accepted_of_command (h : s.command = some i) :
    s.cur = some (encode i) ∧ i.wellFormed s.params.ampBits = true := by
  unfold State.command at h
  split at h
  · cases h
  next w hcur =>
    split at h <;> cases h
    next hdecode =>
      obtain ⟨hlegal, rfl⟩ := decodedWordIsItsCommandsWord _ _ _ hdecode
      exact ⟨hcur, hlegal⟩

/-- Under its invariant a sequencer command that has not halted is under way with the root as its total. -/
theorem State.MacroInv.underWay (h : s.MacroInv) (hrun : s.halt = false) (hop : s.op = Op.ofDir dir) :
    ∃ i, s.command = some i ∧ s.alone.UnderWay i dir (s.pulse 4 0).toNat s.params.aMax := by
  obtain ⟨hinv, hencode, hdecode, hpassed, -⟩ := h
  obtain ⟨i, hcommand, hmacro⟩ := hinv.command_of_op hrun hop
  obtain ⟨hcur, hlegal⟩ := State.accepted_of_command hcommand
  have hbusy : s.op ≠ .idle := hop ▸ Op.ofDir_ne_idle dir
  refine ⟨i, hcommand, ⟨hmacro, hrun, hlegal, hop, hcur, rfl⟩, rfl, hinv.bounded, rfl, rfl, fun q hq => ?_,
    fun henc => ?_, hpassed hbusy⟩
  · cases dir with
    | enc => exact hencode hop _ _ (isNode_trav q)
    | dec => exact hdecode hop q hq
  · subst henc
    exact hencode hop

/-- A sequencer command under way meets its invariant. -/
theorem State.UnderWay.macroInv (h : s.alone.UnderWay i dir total aMax) (hinv : s.Inv) : s.MacroInv where
  inv := hinv
  treeInEncode hop := by
    cases dir with
    | enc => exact h.tree rfl
    | dec => cases h.splitting.op.symm.trans hop
  splitInDecode _ := h.sums
  rootPassed _ hpassed := (h.root.trans_le (h.passed hpassed)).trans_eq h.limit.symm
  faults _ hhalt := by cases h.splitting.notHalted.symm.trans hhalt

/-- The invariant asks nothing while `OP` is `IDLE`. -/
theorem State.Inv.macroInv_of_idle (h : s.Inv) (hidle : s.op = .idle) : s.MacroInv where
  inv := h
  treeInEncode hop := by cases hidle.symm.trans hop
  splitInDecode hop := by cases hidle.symm.trans hop
  rootPassed hbusy := absurd hidle hbusy
  faults hbusy := absurd hidle hbusy

/-- What the invariant says beside that of the block does not speak of `CUR` and of what is outside the block. -/
theorem State.MacroInv.outside (h : s.MacroInv) {cur : Option CommandWord} {ws : List CommandWord}
    {rs : List EcResponse} {us : List CommandWord} {turns : List Agent} {es : List Event}
    (hinv : State.Inv { s with
      cur := cur, hostWords := ws, coderResponses := rs, untaken := us, schedule := turns, trace := es }) :
    State.MacroInv { s with
      cur := cur, hostWords := ws, coderResponses := rs, untaken := us, schedule := turns, trace := es } :=
  ⟨hinv, h.treeInEncode, h.splitInDecode, h.rootPassed, h.faults⟩

/-- A fault of a sequencer command under way as 42_shell_sequencer.md R127 has it. -/
theorem State.MacroInv.takeFault {c : Cause} (h : s.MacroInv) (hinv : (s.takeFault c).Inv)
    (hc : (c = .range ∧ s.seq = 0 ∧ ¬ s.rootInRange) ∨ (c = .sym ∧ s.op = .dec ∧ s.rootInRange)) :
    (s.takeFault c).MacroInv :=
  ⟨hinv, h.treeInEncode, h.splitInDecode, fun hop hpassed => h.rootPassed hop (hpassed.imp_right nofun), fun _ _ => hc⟩

/-- A split of a sequencer command under way keeps the invariant, or halts the command, or ends it. -/
theorem State.MacroInv.of_split (h : s.MacroInv) (hop : s.op = Op.ofDir dir) (hinv : t.Inv)
    (hhalts : s.HaltsOnlyByFault t)
    (hend : t.alone.UnderWay i dir (s.pulse 4 0).toNat s.params.aMax ∨
      t.alone.AtRest dir (s.pulse 4 0).toNat s.params.aMax) : t.MacroInv := by
  rcases hend with hunder | hrest
  · exact hunder.macroInv hinv
  · cases hhalt : t.halt with
    | false => exact hinv.macroInv_of_idle ((hinv.idle_of_none hrest.noCommand).2 hhalt)
    | true =>
      obtain ⟨c, -, rfl⟩ := hhalts hhalt
      refine h.takeFault hinv ((hrest.fault rfl).imp ?_ ?_)
      · exact fun ⟨hcause, hseq, hover⟩ => ⟨hcause, hseq, hover.not_ge⟩
      · rintro ⟨rfl, hcause, hle⟩
        exact ⟨hcause, hop, hle⟩

/-! ## Steps -/

/-- The core's micro-step of a sequencer command under way begins its next split (42_shell_sequencer.md R122, R123). -/
theorem IsMacro.exec_splitBegin (hmacro : IsMacro i dir) (hrun : s.halt = false) (hop : s.op = Op.ofDir dir)
    (hlegal : i.wellFormed s.params.ampBits = true) : exec i s = .next (splitBegin dir (trav s.seq) true s) := by
  cases hmacro with
  | senc => exact exec_senc_splitBegin hrun hop
  | sdec v => exact exec_sdec_splitBegin hrun hop hlegal

/-- `SENC` begins with the whole tree, `SDEC` with no node split. -/
theorem State.MacroInv.microStep (h : s.MacroInv) (hidle : s.op = .idle) (hpend : s.pend = false)
    (hstep : MicroStep i s t) (hinv : t.Inv) : t.MacroInv := by
  cases hstep with
  | responds | faults | writes | setsFrame => exact hinv.macroInv_of_idle hidle
  | beginsSenc _ hrun =>
    exact ⟨hinv, fun _ => h.inv.widthsFit.combineTree_sumsEverywhere, nofun,
      fun _ hpassed => by simp [State.sencBegun, hpend] at hpassed, fun _ hhalt => by cases hrun.symm.trans hhalt⟩
  | beginsSdec _ hrun =>
    exact ⟨hinv, nofun, fun _ q hq => absurd hq (Fin.not_lt_zero q),
      fun _ hpassed => by simp [State.sdecBegun, hpend] at hpassed, fun _ hhalt => by cases hrun.symm.trans hhalt⟩
  | @splits p _ _ hop =>
    cases hm : p.inMacro with
    | false =>
      rw [hm] at hinv
      exact hinv.macroInv_of_idle ((splitBegin_single _ _ _).2.trans hidle)
    | true => exact absurd ((hop hm).symm.trans hidle) (Op.ofDir_ne_idle _)

/-- The core's turn of a command in execution. -/
theorem State.MacroInv.exec (h : s.MacroInv) (hpend : s.pend = false) (hcommand : s.command = some i)
    (hexec : exec i s = .next t) (hinv : t.Inv) : t.MacroInv := by
  rcases s.op.eq_idle_or_ofDir with hidle | ⟨dir, hop⟩
  · exact h.microStep hidle hpend (exec_microStep hexec) hinv
  · cases hrun : s.halt with
    | true =>
      obtain ⟨rc, data, rfl⟩ := exec_halted_responds hrun hexec
      exact h.outside hinv
    | false =>
      obtain ⟨j, hj, hunder⟩ := h.underWay hrun hop
      cases hcommand.symm.trans hj
      cases (hunder.splitting.isMacro.exec_splitBegin hrun hop hunder.splitting.legal).symm.trans hexec
      refine h.of_split (i := i) hop hinv (haltsOnlyByFault_splitBegin hrun _ _ _) ?_
      rw [splitBegin_alone]
      exact hunder.splitBegin hpend

theorem State.MacroInv.illegalWord (h : s.MacroInv) (hcommand : s.command = none) (hinv : s.illegalWord.Inv) :
    s.illegalWord.MacroInv := by
  rcases illegalWord_cases s with ⟨-, hend⟩ | ⟨hrun, hend⟩ <;> rw [hend] at hinv ⊢
  · exact h.outside hinv
  · rcases s.op.eq_idle_or_ofDir with hidle | ⟨dir, hop⟩
    · exact hinv.macroInv_of_idle hidle
    · obtain ⟨i, hi, -⟩ := h.inv.command_of_op hrun hop
      cases hcommand.symm.trans hi

/-- The coder's answer to the pending split. -/
theorem State.MacroInv.splitComplete (h : s.MacroInv) (hpend : s.pend = true) (hsplit : s.pendingSplit = some p)
    (r : EcResponse) (rs : List EcResponse) (hinv : (splitComplete p r (s.takeAnswer r rs)).Inv) :
    (splitComplete p r (s.takeAnswer r rs)).MacroInv := by
  obtain ⟨p', hof⟩ := h.inv.pending hpend
  obtain rfl : p' = p := Option.some.inj (hof.split.symm.trans hsplit)
  have hrun : s.halt = false := Bool.eq_false_iff.mpr fun hhalt => by
    cases (h.inv.haltNotPending hhalt).symm.trans hpend
  rcases s.op.eq_idle_or_ofDir with hidle | ⟨dir, hop⟩
  · have hsingle : p'.inMacro = false := by simp [hof.inMacro, hidle]
    exact hinv.macroInv_of_idle ((splitComplete_single hsingle _ _).2.trans hidle)
  · obtain ⟨i, hcommand, hunder⟩ := h.underWay hrun hop
    obtain rfl : p' = ⟨dir, trav s.seq, true⟩ := by
      rw [State.pendingSplit, hcommand] at hsplit
      exact Option.some.inj (hsplit.symm.trans (hunder.splitting.isMacro.splitOf s.seq))
    have hanswered : (s.takeAnswer r rs).MacroInv := h.outside (h.inv.takeAnswer r rs)
    refine hanswered.of_split (i := i) hop hinv (haltsOnlyByFault_splitComplete (s := s.takeAnswer r rs) hrun _ _) ?_
    rw [splitComplete_alone]
    exact hunder.splitComplete hpend r rs

theorem State.command_of_decode_error {w : CommandWord} {e : DecodeError} (hcur : s.cur = some w)
    (h : decode s.params.ampBits w = .error e) : s.command = none := by
  simp [State.command, hcur, h]

/-- Settles O60: a sequencer command under way keeps its invariant as a run of it alone does; while `OP` is `IDLE` only
its first micro-step can begin one. -/
theorem stepKeepsTheMacroInvariant : Obligations.StepKeepsTheMacroInvariant := by
  intro s t h hstep
  have hinv := stepKeepsTheInvariant s t h.inv hstep
  have hpop : s.popTurn.MacroInv := h.outside h.inv.popTurn
  rcases step_cases hstep with ⟨-, rfl⟩ | rfl | ⟨-, -, w, ws, -, rfl⟩ | ⟨-, w, ws, -, rfl⟩ |
    ⟨-, hpend, w, hcur, ⟨i, hdecode, hexec⟩ | ⟨e, hdecode, rfl⟩⟩ | ⟨-, hpend, r, rs, p, -, hsplit, rfl⟩
  · exact hinv.macroInv_of_idle rfl
  · exact hpop
  · exact h.outside hinv
  · exact h.outside hinv
  · exact hpop.exec hpend (State.command_of_decode hcur hdecode) hexec hinv
  · exact hpop.illegalWord (State.command_of_decode_error hcur hdecode) hinv
  · exact hpop.splitComplete hpend hsplit r rs hinv

end Sys2Proof.Machine
end

section
/-! PROOF. What a step leaves unchanged (10_state.md R21, R26, R30, 20_memory.md R65), by the end of the micro-step. -/

namespace Sys2Proof.Machine

variable {s t : State} {i : Instr} {dir : Dir} {p : PendingSplit} {nd : Node} {m : Bool}

/-! ## The parameters -/

theorem State.illegalWord_params (s : State) : s.illegalWord.params = s.params := by
  rcases illegalWord_cases s with ⟨-, h⟩ | ⟨-, h⟩ <;> exact h ▸ rfl

theorem splitBegin_params (dir : Dir) (nd : Node) (m : Bool) (s : State) :
    (splitBegin dir nd m s).params = s.params := by
  rcases splitBegin_cases dir nd m s with ⟨-, h⟩ | ⟨-, -, -, h⟩ | ⟨-, -, -, -, h⟩ | ⟨-, -, -, h⟩ | ⟨-, -, -, h⟩ <;>
    simp [h]

theorem splitComplete_params (p : PendingSplit) (r : EcResponse) (s : State) :
    (splitComplete p r s).params = s.params := by
  rcases splitComplete_cases p r s with ⟨-, h⟩ | ⟨-, -, h⟩ | ⟨-, -, h⟩ <;> simp [h]

theorem MicroStep.params (h : MicroStep i s t) : t.params = s.params := by
  cases h with
  | responds | faults | writes | setsFrame | beginsSenc | beginsSdec => rfl
  | splits => exact splitBegin_params _ _ _ _

/-- Settles O10: no agent's turn writes the parameters. -/
theorem stepKeepsTheConfiguration : Obligations.StepKeepsTheConfiguration := by
  intro s t hstep
  rcases step_cases hstep with ⟨-, rfl⟩ | rfl | ⟨-, -, w, ws, -, rfl⟩ | ⟨-, w, ws, -, rfl⟩ |
    ⟨-, -, w, -, ⟨i, -, hexec⟩ | ⟨e, -, rfl⟩⟩ | ⟨-, -, r, rs, p, -, -, rfl⟩
  · rfl
  · rfl
  · rfl
  · rfl
  · exact (exec_microStep hexec).params
  · exact s.popTurn.illegalWord_params
  · exact splitComplete_params _ _ _

/-! ## The pulse registers -/

theorem State.illegalWord_pulses (s : State) : s.illegalWord.pulses = s.pulses := by
  rcases illegalWord_cases s with ⟨-, h⟩ | ⟨-, h⟩ <;> exact h ▸ rfl

/-- On encode a split writes no register (41_split_codec.md R101, R104). -/
theorem splitBegin_pulses (m : Bool) (h : (splitBegin dir nd m s).pulses ≠ s.pulses) : dir = .dec := by
  rcases splitBegin_cases dir nd m s with ⟨-, hend⟩ | ⟨-, -, -, hend⟩ | ⟨-, -, -, -, hend⟩ | ⟨-, hdec, -⟩ |
    ⟨-, -, -, hend⟩
  · exact absurd (by simp [hend]) h
  · exact absurd (by simp [hend]) h
  · exact absurd (by simp [hend]) h
  · exact hdec
  · exact absurd (by simp [hend]) h

theorem splitComplete_pulses {r : EcResponse} (h : (splitComplete p r s).pulses ≠ s.pulses) : p.dir = .dec := by
  rcases splitComplete_cases p r s with ⟨-, hend⟩ | ⟨hdec, -⟩ | ⟨hdec, -⟩
  · exact absurd (by simp [hend]) h
  · exact hdec
  · exact hdec

/-- The commands whose micro-steps write pulse registers (10_state.md R21). -/
theorem MicroStep.pulses (hstep : MicroStep i s t) (h : t.pulses ≠ s.pulses) :
    (∃ k j v, i = .wr k j v) ∨ (∃ k, i = .cmb k) ∨ i = .cmbt ∨ i = .senc ∨ (∃ l j, i = .dspl l j) ∨
      ∃ x, i = .sdec x := by
  cases hstep with
  | responds | faults | setsFrame => exact absurd rfl h
  | writes hi =>
    rcases hi with hwr | hcmb | hcmbt
    · exact .inl hwr
    · exact .inr (.inl hcmb)
    · exact .inr (.inr (.inl hcmbt))
  | beginsSenc hi => exact .inr (.inr (.inr (.inl hi)))
  | beginsSdec hi => exact .inr (.inr (.inr (.inr (.inr ⟨_, hi⟩))))
  | splits hsplit => exact .inr (.inr (.inr (.inr (splitOf_dec hsplit (splitBegin_pulses _ h)))))

/-- Settles O50: the turns of the host write no register; the core's and the coder's by the command in execution. -/
theorem onlyTheirWritersChangePulses : Obligations.OnlyTheirWritersChangePulses := by
  intro s t hstep hchange
  rcases step_cases hstep with ⟨hreset, -⟩ | rfl | ⟨-, -, w, ws, -, rfl⟩ | ⟨-, w, ws, -, rfl⟩ |
    ⟨hcore, -, w, hcur, ⟨i, hdecode, hexec⟩ | ⟨e, -, rfl⟩⟩ | ⟨hcoder, -, r, rs, p, -, hsplit, rfl⟩
  · exact .inl hreset
  · exact absurd rfl hchange
  · exact absurd rfl hchange
  · exact absurd rfl hchange
  · have hcommand := State.command_of_decode hcur hdecode
    refine .inr (.inl ⟨hcore, ?_⟩)
    simpa only [hcommand, Option.some.injEq] using (exec_microStep hexec).pulses hchange
  · exact absurd s.popTurn.illegalWord_pulses hchange
  · obtain ⟨i, hcommand, hsplit⟩ := State.pendingSplit_eq_some hsplit
    refine .inr (.inr ⟨hcoder, ?_⟩)
    simpa only [hcommand, Option.some.injEq] using splitOf_dec hsplit (splitComplete_pulses hchange)

/-! ## The sequencer -/

/-- The commands whose micro-steps write `SEQ` or `OP` (10_state.md R26). -/
theorem MicroStep.sequencer (hstep : MicroStep i s t) (h : t.seq ≠ s.seq ∨ t.op ≠ s.op) :
    i = .senc ∨ ∃ x, i = .sdec x := by
  cases hstep with
  | responds | faults | writes | setsFrame => exact (h.elim (· rfl) (· rfl)).elim
  | beginsSenc hi => exact .inl hi
  | beginsSdec hi => exact .inr ⟨_, hi⟩
  | @splits p hsplit =>
    cases hm : p.inMacro with
    | false =>
      rw [hm] at h
      obtain ⟨hseq, hop⟩ := splitBegin_single p.dir p.node s
      exact (h.elim (· hseq) (· hop)).elim
    | true => exact (splitOf_inMacro hsplit hm).1.eq_senc_or_sdec

theorem State.illegalWord_sequencer (s : State) : s.illegalWord.seq = s.seq ∧ s.illegalWord.op = s.op := by
  rcases illegalWord_cases s with ⟨-, h⟩ | ⟨-, h⟩ <;> exact h ▸ ⟨rfl, rfl⟩

/-- Settles O51: the turns of the host write neither; the core's and the coder's by the command in execution. -/
theorem onlyMacrosChangeTheSequencer : Obligations.OnlyMacrosChangeTheSequencer := by
  intro s t hstep hchange
  rcases step_cases hstep with ⟨hreset, -⟩ | rfl | ⟨-, -, w, ws, -, rfl⟩ | ⟨-, w, ws, -, rfl⟩ |
    ⟨hcore, -, w, hcur, ⟨i, hdecode, hexec⟩ | ⟨e, -, rfl⟩⟩ | ⟨hcoder, -, r, rs, p, -, hsplit, rfl⟩
  · exact .inl hreset
  · exact (hchange.elim (· rfl) (· rfl)).elim
  · exact (hchange.elim (· rfl) (· rfl)).elim
  · exact (hchange.elim (· rfl) (· rfl)).elim
  · refine .inr ?_
    simpa only [State.command_of_decode hcur hdecode, Option.some.injEq] using
      (exec_microStep hexec).sequencer hchange
  · obtain ⟨hseq, hop⟩ := s.popTurn.illegalWord_sequencer
    exact (hchange.elim (· hseq) (· hop)).elim
  · obtain ⟨i, hcommand, hsplit⟩ := State.pendingSplit_eq_some hsplit
    refine .inr ?_
    simp only [hcommand, Option.some.injEq]
    cases hm : p.inMacro with
    | false =>
      obtain ⟨hseq, hop⟩ := splitComplete_single hm r
        { s.popTurn with coderResponses := rs, trace := s.trace ++ [.answer r] }
      exact (hchange.elim (· hseq) (· hop)).elim
    | true => exact (splitOf_inMacro hsplit hm).1.eq_senc_or_sdec

end Sys2Proof.Machine
end

section
/-! PROOF. Responses (30_encoding.md R74, 10_state.md R37, 70_reset_and_hazards.md R203, R204): how each agent's move ends
for the host, and the account of the words issued, the responses sent and the responses taken that every step keeps. -/

namespace Sys2Proof.Machine

variable {s t u : State} {i : Instr} {dir : Dir} {p : PendingSplit} {nd : Node} {m : Bool} {es es' : List Event}
  {f : PulseFile}

/-! ## The three ends of a move of the core or the coder (10_state.md R37) -/

/-- The words to come and the turns to come are the same. -/
structure State.SameOutside (s t : State) : Prop where
  hostWords : t.hostWords = s.hostWords
  schedule : t.schedule = s.schedule

/-- The move from `s` to `t` ends in one of three ways. -/
inductive State.MoveEnd (s t : State) : Prop
  /-- the response `w` ends the command -/
  | responds (w : CommandWord) (hout : s.SameOutside t) (hcur : t.cur = none) (hpend : t.pend = false)
    (htrace : t.trace = s.trace ++ [.respond w]) (huntaken : t.untaken = s.untaken ++ [w])
  /-- the request `r` is sent and pending -/
  | requests (r : EcRequest) (hout : s.SameOutside t) (hcur : t.cur = s.cur) (hpend : t.pend = true)
    (htrace : t.trace = s.trace ++ [.request r]) (huntaken : t.untaken = s.untaken) (hseq : t.seq = s.seq)
    (hop : t.op = s.op)
  /-- a sequencer command moves on -/
  | goesOn (hout : s.SameOutside t) (hcur : t.cur = s.cur) (hpend : t.pend = false) (htrace : t.trace = s.trace)
    (huntaken : t.untaken = s.untaken) (hmoves : t.seq ≠ s.seq ∨ t.op ≠ s.op)

/-- The end of a split, with the registers written (41_split_codec.md R110, 42_shell_sequencer.md R124). -/
theorem State.moveEnd_splitDone (hpend : s.pend = false) (f : PulseFile) (m : Bool) :
    s.MoveEnd ({ s with pulses := f }.splitDone m) := by
  cases m with
  | false => exact .responds _ ⟨rfl, rfl⟩ rfl hpend rfl rfl
  | true =>
    show s.MoveEnd (State.advance { s with pulses := f })
    rcases advance_cases { s with pulses := f } with ⟨hlt, hnext⟩ | ⟨-, hlast⟩
    · rw [hnext]
      exact .goesOn ⟨rfl, rfl⟩ rfl hpend rfl rfl (.inl fun hseq => Nat.succ_ne_self _ (congrArg Fin.val hseq))
    · rw [hlast]
      exact .responds _ ⟨rfl, rfl⟩ rfl hpend rfl rfl

theorem State.moveEnd_takeFault (s : State) (c : Cause) : s.MoveEnd (s.takeFault c) :=
  .responds _ ⟨rfl, rfl⟩ rfl rfl rfl rfl

theorem splitBegin_moveEnd (hpend : s.pend = false) (dir : Dir) (nd : Node) (m : Bool) :
    s.MoveEnd (splitBegin dir nd m s) := by
  rcases splitBegin_cases dir nd m s with ⟨-, h⟩ | ⟨-, -, -, h⟩ | ⟨-, -, -, -, h⟩ | ⟨-, -, -, h⟩ | ⟨-, -, -, h⟩ <;> rw [h]
  · exact s.moveEnd_takeFault _
  · exact s.moveEnd_takeFault _
  · exact State.moveEnd_splitDone hpend s.pulses m
  · exact State.moveEnd_splitDone hpend _ m
  · exact .requests _ ⟨rfl, rfl⟩ rfl rfl rfl rfl rfl rfl

/-- The coder's answer ends the command or lets it go on. -/
theorem splitComplete_moveEnd (p : PendingSplit) (r : EcResponse) (s : State) :
    State.MoveEnd { s with pend := false } (splitComplete p r s) := by
  rcases splitComplete_cases p r s with ⟨-, h⟩ | ⟨-, -, h⟩ | ⟨-, -, h⟩ <;> rw [h]
  · exact State.moveEnd_splitDone (s := { s with pend := false }) rfl s.pulses _
  · exact State.moveEnd_takeFault { s with pend := false } .sym
  · exact State.moveEnd_splitDone (s := { s with pend := false }) rfl _ _

theorem State.moveEnd_illegalWord (hpend : s.pend = false) : s.MoveEnd s.illegalWord := by
  rcases illegalWord_cases s with ⟨-, h⟩ | ⟨-, h⟩ <;> rw [h]
  · exact .responds _ ⟨rfl, rfl⟩ rfl hpend rfl rfl
  · exact s.moveEnd_takeFault _

theorem MicroStep.moveEnd (hstep : MicroStep i s t) (hpend : s.pend = false) : s.MoveEnd t := by
  cases hstep with
  | responds | writes | setsFrame => exact .responds _ ⟨rfl, rfl⟩ rfl hpend rfl rfl
  | faults => exact s.moveEnd_takeFault _
  | beginsSenc _ _ hidle => exact .goesOn ⟨rfl, rfl⟩ rfl hpend rfl rfl (.inr (by simp [State.sencBegun, hidle]))
  | beginsSdec _ _ hidle => exact .goesOn ⟨rfl, rfl⟩ rfl hpend rfl rfl (.inr (by simp [State.sdecBegun, hidle]))
  | splits => exact splitBegin_moveEnd hpend _ _ _

/-- Settles O9: the three ends of the micro-step, with what each has observed. -/
theorem everyMicroStepEndsInOneWay : Obligations.EveryMicroStepEndsInOneWay := by
  intro s t hturn hpend hcur hstep
  obtain ⟨w, hw⟩ := Option.ne_none_iff_exists'.mp hcur
  have hend : s.popTurn.MoveEnd t := by
    cases hdecode : decode s.params.ampBits w with
    | ok i =>
      rw [step_core_of_decode_ok hturn hpend hw hdecode] at hstep
      exact (exec_microStep hstep).moveEnd hpend
    | error e =>
      cases (step_core_of_decode_error hturn hpend hw hdecode).symm.trans hstep
      exact State.moveEnd_illegalWord hpend
  cases hend with
  | responds w _ hcur hpend htrace =>
    rw [eventsSince_of_trace_append (s := s) htrace]
    exact .inl ⟨hcur, hpend, rfl, rfl⟩
  | requests r _ hcur hpend htrace _ hseq hop =>
    rw [eventsSince_of_trace_append (s := s) htrace]
    exact .inr (.inl ⟨hcur, hpend, rfl, rfl, hseq, hop⟩)
  | goesOn _ hcur hpend htrace _ hmoves =>
    rw [eventsSince_of_trace_append (s := s) (es := []) (htrace.trans (List.append_nil _).symm)]
    exact .inr (.inr ⟨hcur, hpend, rfl, rfl, hmoves⟩)

/-! ## The account of words and responses -/

/-- How many commands are in execution. -/
def State.executing (s : State) : Nat := if s.cur = none then 0 else 1

theorem State.executing_of_some (h : s.cur ≠ none) : s.executing = 1 := if_neg h

theorem State.executing_congr (h : t.cur = s.cur) : t.executing = s.executing := by
  rw [State.executing, h, State.executing]

/-- From `s` to `t` the events `es` are observed: the responses are taken in the order in which they are sent, and one is
sent where a command ends. -/
structure State.Accounts (s t : State) (es : List Event) : Prop where
  trace : t.trace = s.trace ++ es
  order : s.untaken ++ responsesOf es = takenOf es ++ t.untaken
  ends : (responsesOf es).length + t.executing = s.executing
  hostWords : t.hostWords = s.hostWords
  schedule : t.schedule <:+ s.schedule

theorem takenOf_append (es es' : List Event) : takenOf (es ++ es') = takenOf es ++ takenOf es' :=
  List.filterMap_append

theorem State.Accounts.trans (h : s.Accounts t es) (h' : t.Accounts u es') : s.Accounts u (es ++ es') where
  trace := by rw [h'.trace, h.trace, List.append_assoc]
  order := by
    rw [responsesOf_append, takenOf_append, ← List.append_assoc, h.order, List.append_assoc, h'.order,
      List.append_assoc]
  ends := by
    have hends := h.ends
    have hends' := h'.ends
    rw [responsesOf_append, List.length_append]
    omega
  hostWords := h'.hostWords.trans h.hostWords
  schedule := h'.schedule.trans h.schedule

/-- Events that are neither a response nor its taking, while `CUR` and what waits stay. -/
theorem State.Accounts.of_silent (htrace : t.trace = s.trace ++ es) (hsent : responsesOf es = [])
    (htaken : takenOf es = []) (hcur : t.cur = s.cur) (huntaken : t.untaken = s.untaken)
    (hwords : t.hostWords = s.hostWords) (hturns : t.schedule <:+ s.schedule) : s.Accounts t es where
  trace := htrace
  order := by rw [hsent, htaken, huntaken, List.append_nil, List.nil_append]
  ends := by rw [hsent, State.executing_congr hcur]; exact Nat.zero_add _
  hostWords := hwords
  schedule := hturns

theorem State.accounts_popTurn (s : State) : s.Accounts s.popTurn [] :=
  .of_silent (List.append_nil _).symm rfl rfl rfl rfl rfl (List.tail_suffix _)

/-- A move of the core or the coder for a command in execution. -/
theorem State.MoveEnd.accounts (h : s.MoveEnd t) (hcur : s.cur ≠ none) : ∃ es, s.Accounts t es := by
  cases h with
  | responds w hout hnone _ htrace huntaken =>
    have hone := State.executing_of_some hcur
    have hzero : t.executing = 0 := if_pos hnone
    exact ⟨_, htrace, huntaken.symm, by rw [hone, hzero]; rfl, hout.hostWords, hout.schedule ▸ List.suffix_rfl⟩
  | requests r hout hsame _ htrace huntaken =>
    exact ⟨_, .of_silent htrace rfl rfl hsame huntaken hout.hostWords (hout.schedule ▸ List.suffix_rfl)⟩
  | goesOn hout hsame _ htrace huntaken =>
    exact ⟨[], .of_silent (htrace.trans (List.append_nil _).symm) rfl rfl hsame huntaken hout.hostWords
      (hout.schedule ▸ List.suffix_rfl)⟩

/-- Every step but a reset keeps the account, or the host issues its next word. -/
theorem step_accounts (hstep : step s = .next t) (hturn : s.turn ≠ .reset) :
    (∃ es, s.Accounts t es) ∨
      (s.cur = none ∧ ∃ w ws, s.hostWords = w :: ws ∧ t = ({ s.popTurn with hostWords := ws }).accept w) := by
  have hpop := s.accounts_popTurn
  rcases step_cases hstep with ⟨hreset, -⟩ | rfl | ⟨-, hissue⟩ | ⟨-, w, ws, hwaits, rfl⟩ |
    ⟨-, hpend, w, hcur, ⟨i, -, hexec⟩ | ⟨e, -, rfl⟩⟩ | ⟨-, -, r, rs, p, -, hsplit, rfl⟩
  · exact absurd hreset hturn
  · exact .inl ⟨_, hpop⟩
  · exact .inr hissue
  · exact .inl ⟨[.taken w], rfl, (List.append_nil _).trans hwaits, Nat.zero_add _, rfl, List.tail_suffix _⟩
  · obtain ⟨es, h⟩ := ((exec_microStep hexec).moveEnd hpend).accounts (Option.ne_none_iff_exists'.mpr ⟨w, hcur⟩)
    exact .inl ⟨_, hpop.trans h⟩
  · obtain ⟨es, h⟩ := (State.moveEnd_illegalWord (s := s.popTurn) hpend).accounts
      (Option.ne_none_iff_exists'.mpr ⟨w, hcur⟩)
    exact .inl ⟨_, hpop.trans h⟩
  · obtain ⟨i, hcommand, -⟩ := State.pendingSplit_eq_some hsplit
    have hanswer : s.Accounts { s.popTurn.takeAnswer r rs with pend := false } [.answer r] :=
      .of_silent rfl rfl rfl rfl rfl rfl (List.tail_suffix _)
    obtain ⟨es, h⟩ := (splitComplete_moveEnd p r (s.popTurn.takeAnswer r rs)).accounts
      (State.cur_ne_none_of_command hcommand)
    exact .inl ⟨_, hanswer.trans h⟩

/-- Settles O8: the account says it of every step but the host's issue, which ends no command. -/
theorem oneResponseEndsEachCommand : Obligations.OneResponseEndsEachCommand := by
  intro s t hstep hturn
  rcases step_accounts hstep hturn with ⟨es, h⟩ | ⟨hcur, w, ws, -, rfl⟩
  · have hends := h.ends
    rw [eventsSince_of_trace_append h.trace]
    by_cases hbusy : s.cur = none
    · have hzero : s.executing = 0 := if_pos hbusy
      rw [if_neg fun hend => hend.1 hbusy]
      omega
    · rw [State.executing_of_some hbusy] at hends
      by_cases hnone : t.cur = none
      · have hzero : t.executing = 0 := if_pos hnone
        rw [if_pos ⟨hbusy, hnone⟩]
        omega
      · rw [State.executing_of_some hnone] at hends
        rw [if_neg fun hend => hnone hend.2]
        omega
  · rw [if_neg fun hends => hends.1 hcur]
    simp [eventsSince, responsesOf]

/-- Settles O57: the turn to take, and the order that the account keeps; a reset leaves what waits. -/
theorem hostTakesResponsesInOrder : Obligations.HostTakesResponsesInOrder := by
  refine ⟨fun s w ws hturn hwaits => ?_, fun s t hstep => ?_⟩
  · simp [step, hturn, runTurn, takeTurn, hwaits]
  · by_cases hturn : s.turn = .reset
    · cases (step_reset hturn).symm.trans hstep
      rw [eventsSince_popTurn_resetBlock]
      exact List.append_nil _
    · rcases step_accounts hstep hturn with ⟨es, h⟩ | ⟨-, w, ws, -, rfl⟩
      · rw [eventsSince_of_trace_append h.trace]
        exact h.order
      · simp [eventsSince, responsesOf, takenOf]

/-! ## Runs (70_reset_and_hazards.md R203) -/

/-- The enabled agent is never the reset (log 8). -/
theorem State.turn_ne_reset (h : .reset ∉ s.schedule) : s.turn ≠ .reset := by
  cases hsched : s.schedule with
  | nil =>
    rw [turn_of_empty hsched, State.enabledAgent]
    split_ifs <;> exact nofun
  | cons a turns =>
    intro hturn
    rw [State.turn, hsched] at hturn
    exact h (by rw [hsched, show a = .reset from hturn]; exact List.mem_cons_self)

/-- A step but a reset sends a response for each word that is neither in execution nor still to be issued any more. -/
theorem step_words (hstep : step s = .next t) (hturn : s.turn ≠ .reset) :
    ∃ es, t.trace = s.trace ++ es ∧ t.schedule <:+ s.schedule ∧
      (responsesOf es).length + t.executing + t.hostWords.length = s.executing + s.hostWords.length := by
  rcases step_accounts hstep hturn with ⟨es, h⟩ | ⟨hcur, w, ws, hwords, rfl⟩
  · exact ⟨es, h.trace, h.schedule, by rw [h.ends, h.hostWords]⟩
  · refine ⟨[], (List.append_nil _).symm, List.tail_suffix _, ?_⟩
    have hzero : s.executing = 0 := if_pos hcur
    have hone : (({ s.popTurn with hostWords := ws } : State).accept w).executing = 1 := rfl
    rw [hzero, hone, hwords, List.length_cons]
    show 0 + 1 + ws.length = 0 + (ws.length + 1)
    omega

/-- The same of a run without a reset, by induction on the number of steps. -/
theorem runSteps_words {k : Nat} (hrun : runSteps k s = .next t) (hturns : .reset ∉ s.schedule) :
    ∃ es, t.trace = s.trace ++ es ∧
      (responsesOf es).length + t.executing + t.hostWords.length = s.executing + s.hostWords.length := by
  induction k generalizing s with
  | zero =>
    cases hrun
    exact ⟨[], (List.append_nil _).symm, by simp [responsesOf]⟩
  | succ k ih =>
    obtain ⟨u, hstep, hrest⟩ := runSteps_succ_next hrun
    obtain ⟨es, htrace, hsuffix, hwords⟩ := step_words hstep (State.turn_ne_reset hturns)
    obtain ⟨es', htrace', hwords'⟩ := ih hrest fun hreset => hturns (hsuffix.subset hreset)
    refine ⟨es ++ es', by rw [htrace', htrace, List.append_assoc], ?_⟩
    rw [responsesOf_append, List.length_append]
    omega

/-- Settles O58: a run starts with no command in execution and every word still to be issued. -/
theorem runAnswersEveryWord : Obligations.RunAnswersEveryWord := by
  intro s t ws k hturns hrun seen
  obtain ⟨es, htrace, hwords⟩ := runSteps_words (s := s.startRun ws) hrun hturns
  have hseen : seen.responses = responsesOf es := congrArg responsesOf (eventsSince_of_trace_append htrace)
  have hcount : seen.responses.length + t.executing + t.hostWords.length = ws.length := by
    rw [hseen, hwords]
    exact Nat.zero_add _
  refine ⟨hcount, fun hend => ?_⟩
  simp only [State.endedWell, State.commandDone, Bool.and_eq_true, List.isEmpty_iff, Option.isNone_iff_eq_none,
    Bool.not_eq_true'] at hend
  obtain ⟨hnil, ⟨hcur, hpend⟩, hhalt⟩ := hend
  have hzero : t.executing = 0 := if_pos hcur
  rw [hzero, hnil] at hcount
  exact ⟨hcount, hcur, hpend, hhalt⟩

end Sys2Proof.Machine
end

section
/-! PROOF. Whose turn it is (10_state.md R36 to R38): the turns of the host and the core, and a block that waits for a coder
that never answers (10_state.md R32, 70_reset_and_hazards.md R201). -/

namespace Sys2Proof.Machine

variable {s t : State} {i : Instr} {w : CommandWord}

/-! ## Turns -/

/-- Settles O4: the core's turn, which comes by itself where no turn is scheduled (log 8). -/
theorem stepRunsTheDecodedCommand : Obligations.StepRunsTheDecodedCommand := by
  intro s w i hpend hcur hdecode
  refine ⟨fun hturn => step_core_of_decode_ok hturn hpend hcur hdecode, fun hsched => ?_⟩
  have hturn : s.turn = .core := by simp [turn_of_empty hsched, State.enabledAgent, hpend, hcur]
  rw [step_core_of_decode_ok hturn hpend hcur hdecode, popTurn_of_empty hsched]

/-- While a command is in execution the host's turn changes nothing (10_state.md R36). -/
theorem step_host_of_busy (hturn : s.turn = .host) (hcur : s.cur ≠ none) : step s = .next s.popTurn := by
  obtain ⟨w, hw⟩ := Option.ne_none_iff_exists'.mp hcur
  simp [step, hturn, runTurn, hostTurn, hw]

/-- Settles O5: the host's turn by `CUR` and the words to come. -/
theorem hostIssuesOnlyWhenReady : Obligations.HostIssuesOnlyWhenReady := by
  refine fun s hturn => ⟨fun w ws hcur hwords => ?_, step_host_of_busy hturn⟩
  simp [step, hturn, runTurn, hostTurn, hcur, hwords, State.accept]

/-- While a request is pending the core's turn changes nothing (10_state.md R37). -/
theorem step_core_of_pending (hturn : s.turn = .core) (hpend : s.pend = true) : step s = .next s.popTurn := by
  simp [step_core hturn, coreTurn, hpend]

/-- A coder that has no answer changes nothing (log 9). -/
theorem step_coder_of_silent (hturn : s.turn = .coder) (hsilent : s.coderResponses = []) :
    step s = .next s.popTurn := by
  simp [step, hturn, runTurn, coderTurn, hsilent]

/-! ## A silent coder -/

/-- After `k` turns, on which the host has taken `m` of the responses that waited. -/
def State.afterTurns (s : State) (k m : Nat) : State :=
  { s with
    schedule := s.schedule.drop k
    untaken := s.untaken.drop m
    trace := s.trace ++ (s.untaken.take m).map .taken }

theorem State.afterTurns_zero (s : State) (k : Nat) : s.afterTurns k 0 = { s with schedule := s.schedule.drop k } := by
  simp [State.afterTurns]

theorem State.popTurn_eq_afterTurns (s : State) : s.popTurn = s.afterTurns 1 0 := by
  rw [State.afterTurns_zero, List.drop_one, State.popTurn]

theorem State.afterTurns_afterTurns (s : State) (j k m n : Nat) :
    (s.afterTurns j m).afterTurns k n = s.afterTurns (j + k) (m + n) := by
  simp [State.afterTurns, List.drop_drop, List.take_add]

/-- The host's turn to take takes the oldest response that waits, if one does. -/
theorem step_take (hturn : s.turn = .take) : ∃ m ≤ 1, step s = .next (s.afterTurns 1 m) := by
  cases hwaits : s.untaken with
  | nil =>
    refine ⟨0, Nat.zero_le 1, ?_⟩
    rw [← s.popTurn_eq_afterTurns]
    simp [step, hturn, runTurn, takeTurn, hwaits]
  | cons w ws =>
    refine ⟨1, le_rfl, ?_⟩
    rw [hostTakesResponsesInOrder.1 s w ws hturn hwaits]
    simp [State.afterTurns, State.popTurn, hwaits]

/-- With a request pending the host's turn to take does not come by itself (log 8). -/
theorem State.take_mem_schedule (hpend : s.pend = true) (hturn : s.turn = .take) : .take ∈ s.schedule := by
  cases hsched : s.schedule with
  | nil => simp [turn_of_empty hsched, State.enabledAgent, hpend] at hturn
  | cons a turns =>
    rw [State.turn, hsched] at hturn
    exact List.mem_cons.mpr (.inl hturn.symm)

section
variable (hpend : s.pend = true) (hsilent : s.coderResponses = [])
include hpend hsilent

/-- Any turn but a reset is used up, and at most a response is taken. -/
theorem step_of_silent (hcur : s.cur ≠ none) (hreset : .reset ∉ s.schedule) :
    ∃ m ≤ 1, (.take ∉ s.schedule → m = 0) ∧ step s = .next (s.afterTurns 1 m) := by
  have hused (hstep : step s = .next s.popTurn) :
      ∃ m ≤ 1, (.take ∉ s.schedule → m = 0) ∧ step s = .next (s.afterTurns 1 m) :=
    ⟨0, Nat.zero_le 1, fun _ => rfl, by rw [hstep, s.popTurn_eq_afterTurns]⟩
  cases hturn : s.turn with
  | host => exact hused (step_host_of_busy hturn hcur)
  | core => exact hused (step_core_of_pending hturn hpend)
  | coder => exact hused (step_coder_of_silent hturn hsilent)
  | reset => exact absurd hturn (State.turn_ne_reset hreset)
  | take =>
    obtain ⟨m, hm, hstep⟩ := step_take hturn
    exact ⟨m, hm, fun hnot => absurd (State.take_mem_schedule hpend hturn) hnot, hstep⟩

/-- So are any number of turns, by induction on it. -/
theorem runSteps_of_silent (hcur : s.cur ≠ none) (hreset : .reset ∉ s.schedule) (k : Nat) :
    ∃ m ≤ k, (.take ∉ s.schedule → m = 0) ∧ runSteps k s = .next (s.afterTurns k m) := by
  induction k generalizing s with
  | zero => exact ⟨0, le_rfl, fun _ => rfl, by rw [s.afterTurns_zero]; rfl⟩
  | succ k ih =>
    obtain ⟨m, hm, hnone, hstep⟩ := step_of_silent hpend hsilent hcur hreset
    have hsub : (s.afterTurns 1 m).schedule ⊆ s.schedule := List.drop_subset _ _
    obtain ⟨n, hn, hnone', hrest⟩ := ih (s := s.afterTurns 1 m) hpend hsilent hcur fun h => hreset (hsub h)
    refine ⟨m + n, by omega, fun hnot => ?_, ?_⟩
    · rw [hnone hnot, hnone' fun h => hnot (hsub h)]
    · rw [runSteps_succ_of_next k hstep, hrest, State.afterTurns_afterTurns, Nat.add_comm 1 k]

/-- Where no turn is scheduled the coder's comes by itself. -/
theorem runSteps_of_silent_of_unscheduled (hsched : s.schedule = []) (k : Nat) : runSteps k s = .next s := by
  have hturn : s.turn = .coder := by simp [turn_of_empty hsched, State.enabledAgent, hpend]
  have hstep : step s = .next s := by rw [step_coder_of_silent hturn hsilent, popTurn_of_empty hsched]
  induction k with
  | zero => rfl
  | succ k ih => rw [runSteps_succ_of_next k hstep, ih]

end

/-- Settles O7: the turns of core and host while a request is pending, and any turns with a silent coder. -/
theorem silentCoderLeavesTheBlockWaiting : Obligations.SilentCoderLeavesTheBlockWaiting := by
  intro s hpend
  refine ⟨?_, fun hsilent k => ⟨fun hsched => runSteps_of_silent_of_unscheduled hpend hsilent hsched k,
    fun hcur hreset => runSteps_of_silent hpend hsilent hcur hreset k⟩⟩
  rintro (hturn | ⟨hturn, hcur⟩)
  · exact step_core_of_pending hturn hpend
  · exact step_host_of_busy hturn hcur

end Sys2Proof.Machine
end

section
/-! PROOF. The state after reset (10_state.md R35) and the fields of `STATUS` (10_state.md R29). -/

namespace Sys2Proof.Machine

variable {s : State}

/-- Settles O12: the registers are cleared, and every other field is written out. -/
theorem resetStateIsZero : Obligations.ResetStateIsZero := by
  refine ⟨fun k i => PulseFile.read_zero k i, rfl, rfl, rfl, rfl, rfl, rfl, rfl, rfl, ?_⟩
  simp [State.status, State.reset, Op.code, Cause.code, Dir.bit]

/-- Each bit of `STATUS` stands in one field (10_state.md R29). -/
theorem State.status_getLsbD (s : State) (b : Nat) (hb : b < 16) :
    s.status.getLsbD b =
      if b < 1 then s.frame else if b < 2 then decide (s.fdir = .dec) else if b < 3 then s.halt
      else if b < 4 then false else if b < 7 then s.cause.code.getLsbD (b - 4) else if b < 8 then false
      else if b < 12 then (BitVec.ofNat 4 s.seq.val).getLsbD (b - 8)
      else if b < 14 then s.op.code.getLsbD (b - 12) else false := by
  have hdir : s.fdir.bit = BitVec.ofBool (decide (s.fdir = .dec)) := by cases s.fdir <;> rfl
  simp only [State.status, BitVec.getLsbD_append, hdir]
  interval_cases b <;> simp

/-- A field of `STATUS` of `len` bits from bit `lo` on. -/
theorem State.status_field (s : State) {lo len : Nat} {x : BitVec len}
    (h : ∀ b < len, s.status.getLsbD (lo + b) = x.getLsbD b) : s.status.extractLsb' lo len = x := by
  ext b hb
  rw [BitVec.getElem_extractLsb', h b hb, BitVec.getLsbD_eq_getElem hb]

theorem State.status_cause (s : State) : s.status.extractLsb' 4 3 = s.cause.code :=
  s.status_field fun b hb => by
    rw [s.status_getLsbD _ (by omega)]
    interval_cases b <;> rfl

theorem State.status_seq (s : State) : s.status.extractLsb' 8 4 = BitVec.ofNat 4 s.seq.val :=
  s.status_field fun b hb => by
    rw [s.status_getLsbD _ (by omega)]
    interval_cases b <;> rfl

theorem State.status_op (s : State) : s.status.extractLsb' 12 2 = s.op.code :=
  s.status_field fun b hb => by
    rw [s.status_getLsbD _ (by omega)]
    interval_cases b <;> rfl

/-- Settles O17: bit by bit, and `SEQ` is below 16. -/
theorem statusFieldsStandInTheirPlaces : Obligations.StatusFieldsStandInTheirPlaces := by
  refine ⟨fun s => ?_, by decide⟩
  have hseq : (BitVec.ofNat 4 s.seq.val).toNat = s.seq.val :=
    Nat.mod_eq_of_lt (s.seq.isLt.trans (by decide))
  have hbit (b : Nat) (hb : b < 16) := (BitVec.getLsbD_eq_getElem hb).symm.trans (s.status_getLsbD b hb)
  rw [s.status_cause, s.status_seq, s.status_op, hseq]
  simp [hbit]

/-- Settles O18: `RDS` is no sequencer command, so `OP` is `IDLE` and with it `SEQ` is 0; the two fields adjoin. -/
theorem statusShowsIdleUnlessHalted : Obligations.StatusShowsIdleUnlessHalted := by
  intro s hinv hcommand hrun
  have hop : s.op = .idle := hinv.idle_of_single hrun hcommand fun _ => nofun
  have hseq : s.seq = 0 := hinv.idleSeq hop
  refine s.status_field fun b hb => ?_
  rw [s.status_getLsbD _ (by omega), hop, hseq]
  interval_cases b <;> rfl

end Sys2Proof.Machine
end

section
/-! PROOF. Configurations and their rows (20_memory.md R50 to R58): the check of `configure` says the four constraints of
every row, and the row read port gives the row of the pending request. -/

namespace Sys2Proof.Machine

variable {p : Params} {t : Table} {a o : Nat}

/-! ## The boundary and the port -/

/-- Settles O44: by the check. -/
theorem malformedConfigurationIsRefused : Obligations.MalformedConfigurationIsRefused := by
  intro p s
  constructor <;> intro h <;> simp [configure, h]

theorem Params.getElem?_row (p : Params) {l a i : Nat} (hi : i ≤ a) :
    (p.row l a)[i]? = some (p.cdfByte l (p.tblOff l a + i)) := by
  simp [Params.row, List.getElem?_range (Nat.lt_succ_of_le hi)]

/-- Settles O45: up to `amp` the port reads the byte at the row's offset and the index. -/
theorem rowPortGivesTheRow : Obligations.RowPortGivesTheRow := by
  intro s p i hpend hsplit hi
  rw [Params.getElem?_row _ hi]
  simp [State.ecCdfByte, hpend, hsplit, hi]

/-! ## Rows -/

/-- The check of a row, as the constraints on the listed bytes (20_memory.md R52). -/
theorem Table.rowLawful_iff :
    t.rowLawful a = true ↔ ∃ o, t.off[a]? = some o ∧ o + a < t.cdfSize ∧
      (∀ i ≤ a, (t.cdf.read (o + i)).isSome = true) ∧
      (∀ i < a, (t.cdf.read (o + i + 1)).getD 0 < (t.cdf.read (o + i)).getD 0) ∧ t.cdf.read (o + a) = some 0 := by
  unfold Table.rowLawful
  cases t.off[a]? with
  | none => simp
  | some o => simp [and_assoc]

/-- The bytes from offset `o` on, 0 where none is listed. -/
def Table.bytesFrom (t : Table) (o a : Nat) : List Byte := (List.range (a + 1)).map fun i => (t.cdf.read (o + i)).getD 0

/-- A row meets the constraints exactly where the check says so. -/
theorem Table.rowLawful_iff_rowAt : t.rowLawful a = true ↔ ∃ o row, t.RowAt a o row := by
  rw [Table.rowLawful_iff]
  constructor
  · rintro ⟨o, hoff, hinside, hlisted, hdec, hlast⟩
    have hget {i : Nat} (hi : i ≤ a) : (t.bytesFrom o a)[i]? = some ((t.cdf.read (o + i)).getD 0) := by
      simp [Table.bytesFrom, List.getElem?_range (Nat.lt_succ_of_le hi)]
    have hlength : (t.bytesFrom o a).length = a + 1 := by simp [Table.bytesFrom]
    refine ⟨o, t.bytesFrom o a, hoff, hinside, hlength, fun i hi => ?_, ?_, ?_⟩
    · rw [hget hi]
      obtain ⟨b, hb⟩ := Option.isSome_iff_exists.mp (hlisted i hi)
      rw [hb, Option.getD_some]
    · have : Trans (fun x y : Byte => y < x) (fun x y => y < x) (fun x y => y < x) := ⟨fun h h' => BitVec.lt_trans h' h⟩
      refine List.isChain_iff_pairwise.mp (List.isChain_iff_getElem.mpr fun i hi => ?_)
      simpa [Table.bytesFrom, Nat.add_assoc] using hdec i (by omega)
    · rw [List.getLast?_eq_getElem?, hlength, Nat.add_sub_cancel, hget le_rfl, hlast, Option.getD_some]
  · rintro ⟨o, row, hrow⟩
    have hget {i : Nat} (hi : i ≤ a) : t.cdf.read (o + i) = some (row[i]'(by rw [hrow.length]; omega)) := by
      rw [hrow.listed i hi, List.getElem?_eq_getElem]
    refine ⟨o, hrow.offset, hrow.inside, fun i hi => by rw [hget hi]; rfl, fun i hi => ?_, ?_⟩
    · rw [Nat.add_assoc, hget hi, hget hi.le]
      exact List.pairwise_iff_getElem.mp hrow.decreasing _ _ _ _ (Nat.lt_succ_self i)
    · have hlast := hrow.endsInZero
      rwa [List.getLast?_eq_getElem?, hrow.length, Nat.add_sub_cancel, ← hrow.listed a le_rfl] at hlast

/-- A lawful table has the shape of the parameters and a lawful row for every amplitude (20_memory.md R50, R52). -/
theorem Table.lawful_iff :
    t.lawful p = true ↔ t.ShapedBy p ∧ ∀ a, 1 ≤ a → a ≤ p.aMax → ∃ o row, t.RowAt a o row := by
  have hrows : (∀ a < p.aMax, t.rowLawful (a + 1) = true) ↔ ∀ a, 1 ≤ a → a ≤ p.aMax → ∃ o row, t.RowAt a o row := by
    simp only [Table.rowLawful_iff_rowAt]
    refine ⟨fun h a h1 hmax => ?_, fun h a ha => h (a + 1) (Nat.le_add_left 1 a) ha⟩
    obtain ⟨b, rfl⟩ := Nat.exists_eq_add_of_le' h1
    exact h b hmax
  simp only [Table.lawful, Bool.and_eq_true, List.all_eq_true, decide_eq_true_eq, List.mem_range, hrows]
  constructor
  · rintro ⟨⟨⟨⟨⟨hcanonical, hin⟩, haddressed⟩, hentries⟩, hwidth⟩, hrow⟩
    exact ⟨⟨hentries, hwidth, haddressed, hin, hcanonical⟩, hrow⟩
  · rintro ⟨⟨hentries, hwidth, haddressed, hin, hcanonical⟩, hrow⟩
    exact ⟨⟨⟨⟨⟨hcanonical, hin⟩, haddressed⟩, hentries⟩, hwidth⟩, hrow⟩

/-- The tables of a configuration are the four of R51. -/
theorem Params.forall_mem_tables {P : Table → Prop} : (∀ t ∈ p.tables.toList, P t) ↔ ∀ l < 4, P (p.table l) := by
  have htable {l : Nat} (hl : l < 4) : p.table l = p.tables[l] := by simp [Params.table, hl]
  simp only [List.forall_mem_iff_getElem, Vector.length_toList, Vector.getElem_toList]
  exact forall₂_congr fun l hl => by rw [htable hl]

/-- Settles O59: the check of the parameters, and of each of the four tables. -/
theorem lawfulExactlyUnderTheConstraints : Obligations.LawfulExactlyUnderTheConstraints := by
  intro p
  rw [Params.lawful, Bool.and_eq_true, Params.bounded_iff, List.all_eq_true, Params.forall_mem_tables]
  exact and_congr_right fun _ => forall₂_congr fun l _ => Table.lawful_iff

/-- The row that a lawful table lists for an amplitude is the one that a request denotes (20_memory.md R53, R54). -/
theorem Table.RowAt.eq_row {l : Nat} {row : List Byte} (h : (p.table l).RowAt a o row) (ho : o < 2 ^ p.offBits) :
    p.tblOff l a = o ∧ p.row l a = row := by
  have hoff : p.tblOff l a = o := by
    rw [Params.tblOff, h.offset, Option.getD_some, Nat.mod_eq_of_lt ho]
  refine ⟨hoff, List.ext_getElem? fun i => ?_⟩
  rcases Nat.lt_or_ge a i with hi | hi
  · have hlength : (p.row l a).length = a + 1 := by simp [Params.row]
    rw [List.getElem?_eq_none (by omega), List.getElem?_eq_none (by rw [h.length]; omega)]
  · have hlisted := h.listed i hi
    have hin : i < row.length := by rw [h.length]; omega
    rw [List.getElem?_eq_getElem hin] at hlisted ⊢
    rw [Params.getElem?_row p hi, hoff, Params.cdfByte, hlisted, Option.getD_some]

/-- Settles O43: the row that the constraints give is the one that a request denotes. -/
theorem lawfulRowsAreStrictlyDecreasing : Obligations.LawfulRowsAreStrictlyDecreasing := by
  intro p l a hlawful hl h1 hmax
  obtain ⟨-, htables⟩ := (lawfulExactlyUnderTheConstraints p).mp hlawful
  obtain ⟨hshape, hrows⟩ := htables l hl
  obtain ⟨o, row, hrow⟩ := hrows a h1 hmax
  have ho : o < 2 ^ p.offBits := hshape.entryWidth o (List.mem_of_getElem? hrow.offset)
  obtain ⟨rfl, rfl⟩ := hrow.eq_row ho
  exact ⟨hrow.offset, ho, hrow.inside, hshape.addressed, hrow.listed, hrow.length, hrow.decreasing, hrow.endsInZero⟩

end Sys2Proof.Machine
end

section
/-! PROOF. The micro-steps of the splits (41_split_codec.md R101 to R110, 42_shell_sequencer.md R122 to R124), in the terms
of the statements: the request that is awaited, the end of a split, and the faults with their response words. -/

namespace Sys2Proof.Machine

variable {s t : State} {i : Instr} {dir : Dir} {p : PendingSplit} {nd : Node} {m : Bool} {q : Fin 15} {n : Nat}
  {l : BitVec 3} {j : BitVec 4} {v : Word}

/-! ## The states that the statements write out -/

/-- `SplitDone` inside a sequencer command (42_shell_sequencer.md R124). -/
theorem State.advance_eq_nextSplit (s : State) : s.advance = s.nextSplit := by
  rcases advance_cases s with ⟨hlt, hnext⟩ | ⟨hlast, hend⟩
  · have hne : s.seq ≠ 14 := fun h => hlt.ne (congrArg Fin.val h)
    have hsucc : (s.seq + 1).val = s.seq.val + 1 := Fin.val_add_one_of_lt (Fin.lt_def.mpr hlt)
    rw [hnext, State.nextSplit, if_neg hne]
    congr 1
    exact Fin.ext hsucc.symm
  · rw [hend, State.nextSplit, if_pos (Fin.ext hlast)]
    rfl

theorem State.splitDone_eq (s : State) (m : Bool) : s.splitDone m = if m then s.nextSplit else s.endsWith 0 := by
  cases m with
  | false => rfl
  | true => exact s.advance_eq_nextSplit

/-! ## `SplitBegin` by the parent and child1 -/

theorem splitBegin_of_over (dir : Dir) (m : Bool) (h : s.params.aMax < (s.parent nd).toNat) :
    splitBegin dir nd m s = s.haltsWith .range 0x30000000 :=
  (if_pos (decide_eq_true h)).trans (s.takeFault_eq_haltsWith .range)

section
variable (hmax : (s.parent nd).toNat ≤ s.params.aMax)
include hmax

theorem State.overRange_of_le : s.overRange nd = false := decide_eq_false hmax.not_gt

theorem splitBegin_enc_of_disorder (m : Bool) (h : (s.parent nd).toNat < (s.child1 nd).toNat) :
    splitBegin .enc nd m s = s.haltsWith .order 0x40000000 := by
  have horder : s.outOfOrder nd = true := decide_eq_true h
  simp [splitBegin, State.overRange_of_le hmax, horder, s.takeFault_eq_haltsWith, Cause.code]

theorem splitBegin_enc_of_coded (m : Bool) (hle : (s.child1 nd).toNat ≤ (s.parent nd).toNat) (hne : s.parent nd ≠ 0) :
    splitBegin .enc nd m s = s.awaits .enc nd.lvl nd.idx (s.child1 nd) :=
  splitBegin_of_coded m (State.overRange_of_le hmax) hne fun _ => decide_eq_false hle.not_gt

theorem splitBegin_dec_of_coded (m : Bool) (hne : s.parent nd ≠ 0) :
    splitBegin .dec nd m s = s.awaits .dec nd.lvl nd.idx 0 :=
  splitBegin_of_coded m (State.overRange_of_le hmax) hne nofun

end

theorem splitBegin_enc_of_zero (m : Bool) (hzero : s.parent nd = 0) (hchild : s.child1 nd = 0) :
    splitBegin .enc nd m s = s.splitDone m :=
  splitBegin_of_zeroParent m hzero fun _ => decide_eq_false (by rw [hchild]; exact Nat.not_lt_zero _)

/-- The registers after both children of a node are written. -/
def State.childrenWritten (s : State) (nd : Node) (c1 c2 : Word) : PulseFile := (s.writeChildren nd c1 c2).pulses

/-- A zero parent on decode: both children are 0, and no other register is written (41_split_codec.md R107). -/
theorem State.childrenWritten_zero (s : State) (nd : Node) :
    (s.childrenWritten nd 0 0).read nd.lvl (2 * nd.idx) = 0 ∧
      (s.childrenWritten nd 0 0).read nd.lvl (2 * nd.idx + 1) = 0 ∧
      ∀ k i, ¬ (k = nd.lvl ∧ (i = 2 * nd.idx ∨ i = 2 * nd.idx + 1)) →
        (s.childrenWritten nd 0 0).read k i = s.pulse k i :=
  ⟨s.child1_writeChildren_zero nd 0, s.child2_writeChildren_zero nd 0, fun _ _ => s.writeChildren_pulse_other 0 0⟩

/-! ## The words of the commands (30_encoding.md R71) -/

theorem encode_espl (l : BitVec 3) (j : BitVec 4) : encode (.espl l j) = 0x6#4 ++ 0#1 ++ l ++ j ++ 0#20 :=
  BitVec.append_assoc (x₁ := 0x6#4 ++ 0#1 ++ l ++ j) (x₂ := 0#4) (x₃ := 0#16)

theorem encode_dspl (l : BitVec 3) (j : BitVec 4) : encode (.dspl l j) = 0x7#4 ++ 0#1 ++ l ++ j ++ 0#20 :=
  BitVec.append_assoc (x₁ := 0x7#4 ++ 0#1 ++ l ++ j) (x₂ := 0#4) (x₃ := 0#16)

/-! ## The first micro-steps -/

/-- Settles O23: in its frame `ESPL` runs `SplitBegin`, whose cases are those of the parent and child1. -/
theorem encodeSplitFirstMicroStep : Obligations.EncodeSplitFirstMicroStep := by
  intro s l j amp c1
  refine ⟨encode_espl l j, fun hrange hrun => ?_, fun hillegal => ?_⟩
  · have hlegal := (Instr.wellFormed_espl_iff s.params.ampBits l j).mpr hrange
    refine ⟨fun hframe => ?_, fun hframe => ?_⟩
    · rw [exec_espl_splitBegin hrun hlegal (State.frameIs_iff.mpr hframe)]
      refine ⟨fun hmax hle hne => ?_, fun hzero hchild => ?_, fun hover => ?_, fun hmax hlt => ?_⟩
      · exact congrArg _ (splitBegin_enc_of_coded (nd := ⟨l.toNat, j.toNat⟩) hmax false hle hne)
      · exact congrArg _ (splitBegin_enc_of_zero false hzero hchild)
      · exact congrArg _ (splitBegin_of_over .enc false hover)
      · exact congrArg _ (splitBegin_enc_of_disorder (nd := ⟨l.toNat, j.toNat⟩) hmax false hlt)
    · rw [exec_espl_wrongFrame hrun hlegal (State.frameIs_eq_false hframe), State.takeFault_mode_eq_haltsWith]
  · rw [← Instr.wellFormed_espl_iff s.params.ampBits, Bool.not_eq_true] at hillegal
    exact illegalWord_encode hillegal

/-- Settles O24: in its frame `DSPL` runs `SplitBegin`, whose cases are those of the parent. -/
theorem decodeSplitFirstMicroStep : Obligations.DecodeSplitFirstMicroStep := by
  intro s l j amp
  refine ⟨encode_dspl l j, fun hrange hrun => ?_, fun hillegal => ?_⟩
  · have hlegal := (Instr.wellFormed_dspl_iff s.params.ampBits l j).mpr hrange
    refine ⟨fun hframe => ?_, fun hframe => ?_⟩
    · rw [exec_dspl_splitBegin hrun hlegal (State.frameIs_iff.mpr hframe)]
      refine ⟨fun hmax hne => ?_, fun hzero => ?_, fun hover => ?_⟩
      · exact congrArg _ (splitBegin_dec_of_coded (nd := ⟨l.toNat, j.toNat⟩) hmax false hne)
      · exact ⟨s.childrenWritten ⟨l.toNat, j.toNat⟩ 0 0, congrArg _ (splitBegin_dec_of_zeroParent false hzero),
          s.childrenWritten_zero _⟩
      · exact congrArg _ (splitBegin_of_over .dec false hover)
    · rw [exec_dspl_wrongFrame hrun hlegal (State.frameIs_eq_false hframe), State.takeFault_mode_eq_haltsWith]
  · rw [← Instr.wellFormed_dspl_iff s.params.ampBits, Bool.not_eq_true] at hillegal
    exact illegalWord_encode hillegal

/-- Settles O31: the combine phase leaves the registers of `CMBT`, and each split runs `SplitBegin` at `TRAV[SEQ]`. -/
theorem encodeMacroMicroSteps : Obligations.EncodeMacroMicroSteps := by
  refine ⟨by decide, fun s hrun => ⟨fun hidle => ⟨fun hframe => ?_, fun hframe => ?_⟩, fun hop => ?_⟩⟩
  · exact ⟨_, exec_cmbt hrun, exec_senc_combinePhase hrun hidle (State.frameIs_iff.mpr hframe)⟩
  · rw [exec_senc_wrongFrame hrun hidle (State.frameIs_eq_false hframe), State.takeFault_mode_eq_haltsWith]
  · rw [exec_senc_splitBegin hrun hop]
    refine ⟨fun hmax hle hne => ?_, fun hzero hchild => ?_, fun hover => ?_⟩
    · exact congrArg _ (splitBegin_enc_of_coded hmax true hle hne)
    · rw [splitBegin_enc_of_zero true hzero hchild, State.splitDone_eq]
      rfl
    · exact congrArg _ (splitBegin_of_over .enc true hover)

theorem exec_sdec_rootTotal (hrun : s.halt = false) (hlegal : (Instr.sdec v).wellFormed s.params.ampBits = true)
    (hidle : s.op = .idle) (hframe : s.frameIs .dec = true) : exec (.sdec v) s = .next (s.sdecBegun v) := by
  simp [exec, execSdec, hrun, hlegal, hidle, hframe, State.sdecBegun]

/-- Settles O32: the root total is written whole, and each split runs `SplitBegin` at `TRAV[SEQ]`. -/
theorem decodeMacroMicroSteps : Obligations.DecodeMacroMicroSteps := by
  intro s v
  refine ⟨rfl, fun hrange hrun => ?_, fun hillegal => ?_⟩
  · have hlegal := (Instr.wellFormed_sdec_iff s.params.ampBits v).mpr hrange
    refine ⟨fun hidle => ⟨fun hframe => ?_, fun hframe => ?_⟩, fun hop => ?_⟩
    · exact ⟨_, exec_sdec_rootTotal hrun hlegal hidle (State.frameIs_iff.mpr hframe),
        PulseFile.read_write_of_lt _ (by decide) hrange, fun k i => PulseFile.read_write_other _ _ v⟩
    · rw [exec_sdec_wrongFrame hrun hlegal hidle (State.frameIs_eq_false hframe), State.takeFault_mode_eq_haltsWith]
    · rw [exec_sdec_splitBegin hrun hop hlegal]
      refine ⟨fun hmax hne => ?_, fun hzero => ?_, fun hover => ?_⟩
      · exact congrArg _ (splitBegin_dec_of_coded hmax true hne)
      · refine ⟨s.childrenWritten (trav s.seq) 0 0, ?_, s.childrenWritten_zero _⟩
        rw [splitBegin_dec_of_zeroParent true hzero, State.splitDone_eq]
        rfl
      · exact congrArg _ (splitBegin_of_over .dec true hover)
  · rw [← Instr.wellFormed_sdec_iff, Bool.not_eq_true] at hillegal
    exact illegalWord_encode hillegal

/-! ## The coder's answer (10_state.md R38) -/

section
variable {r : EcResponse} {rs : List EcResponse} (hturn : s.turn = .coder) (hpend : s.pend = true)
  (hsplit : s.pendingSplit = some p) (hcoder : s.coderResponses = r :: rs)
include hturn hpend hcoder

include hsplit in
/-- The answer completes the pending split. -/
theorem step_coder_of_split : step s = .next (splitComplete p r (s.popTurn.takeAnswer r rs)) := by
  have hpop : s.popTurn.pendingSplit = some p := hsplit
  simp [step, hturn, runTurn, coderTurn, hpend, hcoder, hpop, State.takeAnswer]

/-- A pending request that no split command owns stops the model (log 15). -/
theorem step_coder_of_stray (hnone : s.pendingSplit = none) : step s = .fault .strayRequest := by
  have hpop : s.popTurn.pendingSplit = none := hnone
  simp [step, hturn, runTurn, coderTurn, hpend, hcoder, hpop]

end

/-- Settles O25: on encode `SplitComplete` only clears `PEND` and ends the split. -/
theorem encodeAnswerEndsTheSplit : Obligations.EncodeAnswerEndsTheSplit := by
  rintro s ⟨dir, nd, m⟩ r rs hturn hpend hsplit rfl hcoder u
  rw [step_coder_of_split hturn hpend hsplit hcoder]
  exact congrArg _ (State.splitDone_eq u m)

/-- Settles O27: `SplitComplete` compares the answer's low `N` bits with the parent. -/
theorem symbolAboveParentTakesSym : Obligations.SymbolAboveParentTakesSym := by
  rintro s ⟨dir, nd, m⟩ r rs hturn hpend hsplit rfl hcoder habove u
  have hlarge : u.symbolTooLarge nd (fit u.params.ampBits r.sym) = true :=
    decide_eq_true (by rw [fit_toNat]; exact habove)
  rw [step_coder_of_split hturn hpend hsplit hcoder]
  exact congrArg _ ((if_pos hlarge).trans (u.takeFault_eq_haltsWith .sym))

/-- The split of a legal command is at a node of the tree (41_split_codec.md R100). -/
theorem splitOf_isNode (h : splitOf q i = some p) (hlegal : i.wellFormed n = true) :
    isNode p.node.lvl p.node.idx = true := by
  cases i with
  | espl | dspl => cases h; exact hlegal
  | senc | sdec => cases h; exact isNode_trav q
  | nop | wr | rd | rds | cmb | cmbt | fbeg | fend => cases h

/-- A symbol of at most the parent, written to child1, with the rest of the parent written to child2
(41_split_codec.md R104, R109). -/
theorem State.writeChildren_symbol {c1 : Word} (hnode : isNode nd.lvl nd.idx = true)
    (hle : c1.toNat ≤ (s.parent nd).toNat) (hparent : (s.parent nd).toNat < 2 ^ s.params.ampBits) :
    let t := s.writeChildren nd c1 (s.parent nd - c1)
    t.child1 nd = c1 ∧ t.sumsAt nd ∧ t.parent nd = s.parent nd := by
  obtain ⟨q, rfl⟩ : ∃ q, trav q = nd := exists_trav_eq hnode
  have hsum : c1.toNat + (s.parent (trav q) - c1).toNat = (s.parent (trav q)).toNat := by
    rw [BitVec.toNat_sub_of_le hle, Nat.add_sub_of_le hle]
  obtain ⟨hchild1, -⟩ := s.writeChildren_children (a := c1) (b := s.parent (trav q) - c1) hnode (by omega) (by omega)
  exact ⟨hchild1, State.sumsAt_writeChildren hsum hparent, s.writeChildren_parent_trav _ _ le_rfl⟩

/-- Settles O26: the symbol is at most the parent, which fits `N` bits under the invariant. -/
theorem decodeAnswerWritesBothChildren : Obligations.DecodeAnswerWritesBothChildren := by
  intro s p r rs hinv hturn hpend hsplit hdec hcoder hle
  rw [← fit_toNat] at hle ⊢
  obtain ⟨i, hcommand, hof⟩ := State.pendingSplit_eq_some hsplit
  have hnode := splitOf_isNode hof (State.accepted_of_command hcommand).2
  have hparent : (s.parent p.node).toNat < 2 ^ s.params.ampBits := by
    obtain ⟨p', hp⟩ := hinv.pending hpend
    obtain rfl := Option.some.inj (hp.split.symm.trans hsplit)
    exact (not_lt.mp (of_decide_eq_false hp.inRange)).trans_lt (Params.aMax_lt_of_bounded hinv.bounded)
  obtain ⟨hchild1, hsums, hsame⟩ := State.writeChildren_symbol hnode hle hparent
  have hfits : (s.popTurn.takeAnswer r rs).symbolTooLarge p.node (fit s.params.ampBits r.sym) = false :=
    decide_eq_false hle.not_gt
  refine ⟨s.childrenWritten p.node (fit s.params.ampBits r.sym) (s.parent p.node - fit s.params.ampBits r.sym), ?_,
    congrArg _ hchild1, hsums, hsame, fun k i => s.writeChildren_pulse_other _ _⟩
  rw [step_coder_of_split hturn hpend hsplit hcoder, splitComplete, hdec, ← State.splitDone_eq]
  exact congrArg _ (if_neg (Bool.eq_false_iff.mp hfits))

/-! ## Stops and operands out of range (log 13, log 15) -/

/-- Settles O52: the other sequencer command's `OP`, and a stray request. -/
theorem unreachableStatesStopByName : Obligations.UnreachableStatesStopByName := by
  refine ⟨fun s hrun hop => ?_, fun s v hrun hlegal hop => ?_, fun s r rs hturn hpend hnone hcoder => ?_⟩
  · simp [exec, execSenc, hrun, hop]
  · simp [exec, execSdec, hrun, hlegal, hop]
  · exact step_coder_of_stray hturn hpend hcoder hnone

theorem whenLegal_of_illFormed {body : Out} (h : i.wellFormed s.params.ampBits = false) :
    whenLegal i s body = .next s.illegalWord := by
  simp [whenLegal, h]

/-- Both guards: halted or not, operands out of range make an illegal word. -/
theorem whenRunning_whenLegal_of_illFormed {body : Out} (h : i.wellFormed s.params.ampBits = false) :
    whenRunning s (whenLegal i s body) = .next s.illegalWord := by
  cases hhalt : s.halt with
  | true => rw [whenRunning_of_halted hhalt, State.illegalWord_of_halted hhalt]
  | false => rw [whenRunning_of_running hhalt, whenLegal_of_illFormed h]

/-- A command that has operands asks for their ranges. -/
theorem exec_of_illFormed (h : i.wellFormed s.params.ampBits = false) : exec i s = .next s.illegalWord := by
  cases i with
  | nop | rds | cmbt | senc | fbeg | fend => cases h
  | rd => exact whenLegal_of_illFormed h
  | wr | cmb | espl | dspl | sdec => exact whenRunning_whenLegal_of_illFormed h

/-- Settles O53: the command acts as an illegal word. -/
theorem illFormedCommandTakesIll : Obligations.IllFormedCommandTakesIll := by
  intro s i h
  rw [exec_of_illFormed h]
  refine ⟨fun hrun => ?_, fun hhalt => ?_⟩
  · rw [State.illegalWord, hrun]
    exact congrArg _ (s.takeFault_eq_haltsWith .ill)
  · rw [State.illegalWord_of_halted hhalt, State.refuseHalted_eq_endsWith]

/-! ## The walk -/

/-- Settles O30: below the root the parent is a child of a node visited before, and that node is the one above. -/
theorem parentComesBeforeChildren : Obligations.ParentComesBeforeChildren := by
  intro q hlvl
  have hroot : q ≠ 0 := by
    rintro rfl
    exact absurd hlvl (by decide)
  obtain ⟨q', hlt, hk, hi⟩ := exists_earlier_hasChild hroot
  refine ⟨q', hlt, ?_⟩
  generalize trav q' = nd at hk hi ⊢
  obtain ⟨l', j'⟩ := nd
  simp only at hk hi
  rw [Node.mk.injEq]
  omega

end Sys2Proof.Machine
end

section
/-! PROOF. `SENC` to its end (42_shell_sequencer.md R122, R124), and how many requests a tree calls for (R128). -/

namespace Sys2Proof.Machine

variable {s : State} {l j : Nat}

/-- Settles O33: one answer is taken for each request, and `SEQ` and `OP` end as they began. -/
theorem encodeMacroRunsToItsEnd : Obligations.EncodeMacroRunsToItsEnd := by
  intro s hs hsum reqs hcoder
  have hlength := List.length_take_of_le hcoder
  obtain ⟨es, ⟨n, hn, hrun⟩, hreqs, hresp⟩ := hs.senc_reaches_end hsum hlength (List.take_append_drop _ _).symm
  refine ⟨n, es, hn, hrun.trans (congrArg _ ?_), hreqs, hresp⟩
  rw [State.macroEnd, ← hs.inv.idleSeq hs.idle, ← hs.idle, ← hs.notPending]
  rfl

/-! ## The number of requests -/

/-- How many nodes of a walk have a nonzero parent. -/
def State.codedNodes (s : State) (nodes : List Node) : Nat := nodes.countP fun nd => decide (s.parent nd ≠ 0)

theorem State.codedNodes_cons {nd : Node} (h : s.parent nd ≠ 0) (nodes : List Node) :
    s.codedNodes (nd :: nodes) = s.codedNodes nodes + 1 :=
  List.countP_cons_of_pos (decide_eq_true h)

theorem State.encodeRequests_length (s : State) : s.encodeRequests.length = s.codedNodes walk := by
  rw [State.encodeRequests, List.length_filterMap_eq_countP, State.codedNodes]
  refine congrArg (List.countP · walk) (funext fun nd => ?_)
  by_cases hzero : s.parent nd = 0
  · rw [if_pos hzero, decide_eq_false (not_not_intro hzero)]
    rfl
  · rw [if_neg hzero, decide_eq_true hzero]
    rfl

/-- Under a nonzero parent at least one node of each level below is coded, by induction on the level: one of the children
is not 0, and it is the parent of the next node. -/
theorem State.sumsEverywhere.lt_codedNodes_visit (hsum : s.sumsEverywhere) (hnode : isNode l j = true)
    (hcoded : s.parent ⟨l, j⟩ ≠ 0) : l < s.codedNodes (visit l j) := by
  induction l generalizing j with
  | zero =>
    rw [visit, State.codedNodes_cons hcoded]
    exact Nat.succ_pos _
  | succ l ih =>
    have hhead : s.codedNodes (visit (l + 1) j) =
        s.codedNodes (visit l (2 * j)) + s.codedNodes (visit l (2 * j + 1)) + 1 := by
      rw [visit, State.codedNodes_cons hcoded, State.codedNodes, List.countP_append]
      rfl
    have hadd : (s.pulse (l + 1) (2 * j)).toNat + (s.pulse (l + 1) (2 * j + 1)).toNat =
        (s.parent ⟨l + 1, j⟩).toNat := hsum _ _ hnode
    obtain ⟨-, hreg1, hreg2⟩ := isNode_registers hnode
    by_cases hchild : s.pulse (l + 1) (2 * j) = 0
    · have hchild2 : s.pulse (l + 1) (2 * j + 1) ≠ 0 := fun h => hcoded (by bv_omega)
      have := ih (isNode_of_isRegister_succ hreg2) hchild2
      omega
    · have := ih (isNode_of_isRegister_succ hreg1) hchild
      omega

/-- Settles O34: the walk has 15 nodes on four levels, and the root is the total. -/
theorem treeCallsForFourToFifteenRequests : Obligations.TreeCallsForFourToFifteenRequests := by
  refine fun s hfit => ⟨s.combineTree.encodeRequests_length_le, fun htotal => ?_⟩
  have hsum := hfit.combineTree_sumsEverywhere
  have hroot : (s.combineTree.pulse 4 0).toNat = s.leafSum := by
    rw [hsum.pulse_eq_leavesUnder (by decide), State.leavesUnder_root]
    rfl
  rw [State.encodeRequests_length]
  exact hsum.lt_codedNodes_visit (l := 3) (j := 0) (by decide) fun hzero =>
    htotal (hroot.symm.trans (congrArg BitVec.toNat hzero))

end Sys2Proof.Machine
end

section
/-! PROOF. `SDEC` to its end, whatever symbols the coder answers (42_shell_sequencer.md R123, R126, R128): what has been
sent, answered and decoded after the first nodes of the walk, split by split. -/

namespace Sys2Proof.Machine

variable {s x y : State} {nd : Node} {v : Word} {f f' : PulseFile} {m : Nat} {q : Fin 15} {as rs : List EcResponse}
  {es : List Event} {a : EcResponse}

/-! ## The requests and the symbols of the first nodes -/

theorem walk_take_succ (q : Fin 15) : walk.take (q + 1) = walk.take q ++ [trav q] := by
  revert q; decide

theorem exists_trav_of_mem_take (h : nd ∈ walk.take m) : ∃ q : Fin 15, q < m ∧ trav q = nd := by
  obtain ⟨k, hk, rfl⟩ := List.getElem_of_mem h
  rw [List.length_take, walk_length, lt_min_iff] at hk
  refine ⟨⟨k, hk.2⟩, hk.1, ?_⟩
  have hdrop := congrArg List.head? (walk_drop ⟨k, hk.2⟩)
  rw [List.head?_drop, List.head?_cons, List.getElem?_eq_getElem] at hdrop
  rw [List.getElem_take]
  exact (Option.some.inj hdrop).symm

/-- The symbol of a node, where it is coded. -/
def State.symbolAt (s : State) (nd : Node) : Option Word := if s.parent nd = 0 then none else some (s.child1 nd)

/-- The symbols of the coded nodes among the first `m` of the walk. -/
def State.symbolsUpTo (s : State) (m : Nat) : List Word := (walk.take m).filterMap s.symbolAt

theorem State.symbolsUpTo_succ (s : State) (q : Fin 15) :
    s.symbolsUpTo (q + 1) = s.symbolsUpTo q ++ (s.symbolAt (trav q)).toList := by
  rw [State.symbolsUpTo, walk_take_succ, List.filterMap_append]
  cases h : s.symbolAt (trav q) <;> simp [State.symbolsUpTo, h]

theorem State.decodeRequests_succ (s : State) (q : Fin 15) :
    s.decodeRequests (q + 1) = s.decodeRequests q ++ (s.requestAt .dec (trav q)).toList := by
  show (walk.take (q + 1)).filterMap (s.requestAt .dec) = _
  rw [walk_take_succ, List.filterMap_append]
  cases h : s.requestAt .dec (trav q) <;> simp [h] <;> rfl

theorem State.decodeRequests_length_le (s : State) (m : Nat) : (s.decodeRequests m).length ≤ m :=
  (List.length_filterMap_le _ _).trans (List.length_take_le _ _)

/-- The requests of the first nodes depend on the tables and their parents alone. -/
theorem State.decodeRequests_congr (hparams : y.params = x.params)
    (hparent : ∀ q : Fin 15, q < m → y.parent (trav q) = x.parent (trav q)) :
    y.decodeRequests m = x.decodeRequests m := by
  refine List.filterMap_congr fun nd hnd => ?_
  obtain ⟨q, hq, rfl⟩ := exists_trav_of_mem_take hnd
  simp only [State.requestFor, hparent q hq, hparams]

theorem State.symbolsUpTo_congr (hparent : ∀ q : Fin 15, q < m → y.parent (trav q) = x.parent (trav q))
    (hchild : ∀ q : Fin 15, q < m → y.child1 (trav q) = x.child1 (trav q)) : y.symbolsUpTo m = x.symbolsUpTo m := by
  refine List.filterMap_congr fun nd hnd => ?_
  obtain ⟨q, hq, rfl⟩ := exists_trav_of_mem_take hnd
  simp only [State.symbolAt, hparent q hq, hchild q hq]

/-! ## What has been decoded after the first nodes -/

/-- `s` with the registers `f`. -/
def State.withPulses (s : State) (f : PulseFile) : State := { s with pulses := f }

/-- `SDEC` under way from `s`, at step `q` of the walk, with the registers `f`, the answers `rs` still to come, and the
events `es` observed. -/
def State.decoding (s : State) (f : PulseFile) (q : Fin 15) (rs : List EcResponse) (es : List Event) : State :=
  { s with pulses := f, seq := q, op := .dec, coderResponses := rs, trace := s.trace ++ es }

/-- The events `es` are the requests of the first `m` nodes, each with one of the answers `as`. -/
structure State.Logged (s : State) (f : PulseFile) (m : Nat) (as rs : List EcResponse) (es : List Event) : Prop where
  answers : s.coderResponses = as ++ rs
  count : as.length = (requestsOf es).length
  requests : requestsOf es = (s.withPulses f).decodeRequests m
  silent : responsesOf es = []

/-- Moreover the answers are the symbols of the first `m` nodes of a tree with the root `v`, as far as it is decoded. -/
structure State.Decodes (s : State) (v : Word) (f : PulseFile) (m : Nat) (as rs : List EcResponse)
    (es : List Event) : Prop where
  logged : s.Logged f m as rs es
  root : f.read 4 0 = v
  sums : ∀ q : Fin 15, q < m → (s.withPulses f).sumsAt (trav q)
  symbols : as.map (fun r => fit s.params.ampBits r.sym) = (s.withPulses f).symbolsUpTo m

/-- An answer is at hand for each of the 15 nodes. -/
theorem State.Logged.exists_answer (h : s.Logged f q as rs es) (hcoder : 15 ≤ s.coderResponses.length) :
    ∃ a rs', rs = a :: rs' := by
  have hle := (s.withPulses f).decodeRequests_length_le q
  have hq := q.isLt
  rw [← h.requests, ← h.count] at hle
  rw [h.answers, List.length_append] at hcoder
  exact List.exists_cons_of_length_pos (by omega)

/-- A node with a zero parent sends nothing (41_split_codec.md R107). -/
theorem State.Logged.skip (h : s.Logged f q as rs es) (hzero : (s.withPulses f).parent (trav q) = 0) :
    s.Logged f (q + 1) as rs es where
  answers := h.answers
  count := h.count
  requests := by rw [State.decodeRequests_succ, State.requestAt, if_pos hzero, h.requests]; exact (List.append_nil _).symm
  silent := h.silent

/-- The request of a coded node and its answer (41_split_codec.md R108). -/
theorem State.Logged.push (h : s.Logged f q as (a :: rs) es) (hcoded : (s.withPulses f).parent (trav q) ≠ 0) :
    s.Logged f (q + 1) (as ++ [a]) rs
      (es ++ [.request ((s.withPulses f).requestFor .dec (trav q) 0), .answer a]) where
  answers := by rw [h.answers, List.append_assoc, List.singleton_append]
  count := by rw [requestsOf_append, List.length_append, List.length_append, h.count]; rfl
  requests := by
    rw [requestsOf_append, State.decodeRequests_succ, State.requestAt, if_neg hcoded, h.requests]
    rfl
  silent := by rw [responsesOf_append, h.silent]; rfl

/-- The registers after the split at step `q` with the symbol `c1` (41_split_codec.md R104). -/
def State.splitPulses (s : State) (f : PulseFile) (q : Fin 15) (c1 : Word) : PulseFile :=
  (s.withPulses f).childrenWritten (trav q) c1 ((s.withPulses f).parent (trav q) - c1)

theorem State.withPulses_splitPulses (s : State) (f : PulseFile) (q : Fin 15) (c1 : Word) :
    s.withPulses (s.splitPulses f q c1) =
      (s.withPulses f).writeChildren (trav q) c1 ((s.withPulses f).parent (trav q) - c1) := rfl

/-- No parent up to the node at hand exceeds the root. -/
theorem State.Decodes.parent_le (h : s.Decodes v f q as rs es) :
    ((s.withPulses f).parent (trav q)).toNat ≤ v.toNat :=
  (State.parent_trav_le_root (s := s.withPulses f) h.sums le_rfl).trans_eq (congrArg BitVec.toNat h.root)

/-- The split at step `q` with a symbol of at most the parent: with the children written, the requests up to the node stay
as they were sent. -/
theorem State.Decodes.split {as' rs' : List EcResponse} {es' : List Event} {c1 : Word} (h : s.Decodes v f q as rs es)
    (hv : v.toNat < 2 ^ s.params.ampBits) (hlogged : s.Logged f (q + 1) as' rs' es')
    (hle : c1.toNat ≤ ((s.withPulses f).parent (trav q)).toNat)
    (hsymbol : as'.map (fun r => fit s.params.ampBits r.sym) = (s.withPulses f).symbolsUpTo q ++
      if (s.withPulses f).parent (trav q) = 0 then [] else [c1]) :
    s.Decodes v (s.splitPulses f q c1) (q + 1) as' rs' es' := by
  have hparent : ∀ q' ≤ q, (s.withPulses (s.splitPulses f q c1)).parent (trav q') = (s.withPulses f).parent (trav q') :=
    fun q' => (s.withPulses f).writeChildren_parent_trav _ _
  obtain ⟨hchild, hsum, -⟩ := State.writeChildren_symbol (s := s.withPulses f) (isNode_trav q) hle
    (h.parent_le.trans_lt hv)
  rw [← State.withPulses_splitPulses] at hchild hsum
  have hrequests : (s.withPulses (s.splitPulses f q c1)).decodeRequests (q + 1) =
      (s.withPulses f).decodeRequests (q + 1) :=
    State.decodeRequests_congr rfl fun q' hq' => hparent q' (Fin.le_def.mpr (Nat.le_of_lt_succ hq'))
  have hbefore : (s.withPulses (s.splitPulses f q c1)).symbolsUpTo q = (s.withPulses f).symbolsUpTo q :=
    State.symbolsUpTo_congr (fun q' hq' => hparent q' hq'.le) fun q' hq' =>
      (s.withPulses f).writeChildren_child1_other _ _ (trav_injective.ne (Fin.ne_of_lt hq'))
  have hhere : ((s.withPulses (s.splitPulses f q c1)).symbolAt (trav q)).toList =
      if (s.withPulses f).parent (trav q) = 0 then [] else [c1] := by
    rw [State.symbolAt, hparent q le_rfl, hchild]
    split <;> rfl
  refine ⟨⟨hlogged.answers, hlogged.count, hlogged.requests.trans hrequests.symm, hlogged.silent⟩, ?_, fun q' hq' => ?_,
    ?_⟩
  · exact ((s.withPulses f).writeChildren_pulse_other _ _ (not_hasChild_root q)).trans h.root
  · rcases (Nat.le_of_lt_succ hq').lt_or_eq with hlt | heq
    · exact State.sumsAt_writeChildren_earlier (s := s.withPulses f) _ _ hlt (h.sums q' hlt)
    · obtain rfl : q' = q := Fin.ext heq
      exact hsum
  · rw [State.symbolsUpTo_succ, hbefore, hhere, hsymbol]

/-! ## One split -/

/-- `SDEC` has halted with `SYM` at the node `TRAV[SEQ]`, whose request is the last one sent. -/
def State.EndsInSym (s u : State) : Prop :=
  ∃ (f : PulseFile) (q : Fin 15) (as rs : List EcResponse) (es : List Event),
    s.Logged f (q + 1) as rs es ∧ u = (s.decoding f q rs es).takeFault .sym

/-- What is observed at a coded node. -/
def State.codedEvents (s : State) (f : PulseFile) (q : Fin 15) (a : EcResponse) : List Event :=
  [.request ((s.withPulses f).requestFor .dec (trav q) 0), .answer a]

/-- A coded node after its answer. -/
theorem State.recordSplit_afterAnswer_decoding (hpend : s.pend = false) (c1 : Word) :
    ((s.decoding f q (a :: rs) es).afterAnswer ((s.withPulses f).requestFor .dec (trav q) 0) a rs).recordSplit .dec
        (trav q) c1 ((s.withPulses f).parent (trav q) - c1) =
      s.decoding (s.splitPulses f q c1) q rs (es ++ s.codedEvents f q a) := by
  simp only [State.decoding, State.afterAnswer, State.recordSplit, hpend, List.append_assoc]
  rfl

/-- A coded node after an answer that faults. -/
theorem State.takeFault_takeAnswer_decoding (s : State) (f : PulseFile) (q : Fin 15) (a : EcResponse)
    (rs : List EcResponse) (es : List Event) :
    (((s.decoding f q (a :: rs) es).sendRequest ((s.withPulses f).requestFor .dec (trav q) 0)).takeAnswer a rs).takeFault
        .sym =
      (s.decoding f q rs (es ++ s.codedEvents f q a)).takeFault .sym := by
  have htrace : s.trace ++ es ++ [Event.request ((s.withPulses f).requestFor .dec (trav q) 0)] ++ [Event.answer a] =
      s.trace ++ (es ++ s.codedEvents f q a) := by simp [State.codedEvents]
  simp only [State.decoding, State.sendRequest, State.takeAnswer, State.takeFault, ← htrace]

theorem State.ReadyFor.decoding_splitting (hs : s.ReadyFor (.sdec v) .dec) (f : PulseFile) (q : Fin 15)
    (rs : List EcResponse) (es : List Event) : (s.decoding f q rs es).Splitting (.sdec v) .dec :=
  ⟨.sdec v, hs.notHalted, hs.legal, rfl, hs.accepted, hs.noSchedule⟩

/-- The first micro-step writes the root and decodes no node. -/
theorem State.ReadyFor.decodes_begun (hs : s.ReadyFor (.sdec v) .dec) :
    s.sdecBegun v = s.decoding (s.sdecBegun v).pulses 0 s.coderResponses [] ∧
      s.Decodes v (s.sdecBegun v).pulses 0 [] s.coderResponses [] := by
  refine ⟨?_, ⟨rfl, rfl, rfl, rfl⟩, hs.sdecBegun_root, fun q hq => absurd hq (Nat.not_lt_zero q), rfl⟩
  rw [State.decoding, List.append_nil]
  rfl

/-- After the last split the command responds. -/
theorem State.decoding_advance_last (hpend : s.pend = false) (f : PulseFile) (rs : List EcResponse) (es : List Event) :
    (s.decoding f (Fin.last 14) rs es).advance = s.macroEnd f rs (es ++ [Event.respond 0]) := by
  rw [State.advance_last (s := s.decoding f (Fin.last 14) rs es) rfl]
  simp only [State.decoding, State.macroEnd, ← List.append_assoc, ← hpend]
  rfl

section
variable (hs : s.ReadyFor (.sdec v) .dec) (hv : v.toNat ≤ s.params.aMax)
include hs hv

theorem State.ReadyFor.total_lt : v.toNat < 2 ^ s.params.ampBits :=
  hv.trans_lt (Params.aMax_lt_of_bounded hs.inv.bounded)

/-- A node with a zero parent takes one step. -/
theorem State.Decodes.reaches_of_zero (h : s.Decodes v f q as rs es)
    (hzero : (s.withPulses f).parent (trav q) = 0) :
    (s.decoding f q rs es).Reaches 2 (s.decoding (s.splitPulses f q 0) q rs es).advance ∧
      s.Decodes v (s.splitPulses f q 0) (q + 1) as rs es := by
  have hstep := (hs.decoding_splitting f q rs es).step_begin hs.notPending
  have hend := splitBegin_dec_of_zeroParent (s := s.decoding f q rs es) true hzero
  refine ⟨(State.Reaches.of_step (hstep.trans (congrArg _ (hend.trans ?_)))).mono one_le_two,
    h.split (hs.total_lt hv) (h.logged.skip hzero) (Nat.zero_le _) ?_⟩
  · rw [State.splitPulses, hzero]
    rfl
  · rw [if_pos hzero, List.append_nil, h.symbols]

/-- A coded node whose symbol is at most the parent takes two steps. -/
theorem State.Decodes.reaches_of_symbol (h : s.Decodes v f q as (a :: rs) es)
    (hcoded : (s.withPulses f).parent (trav q) ≠ 0)
    (hle : (fit s.params.ampBits a.sym).toNat ≤ ((s.withPulses f).parent (trav q)).toNat) :
    (s.decoding f q (a :: rs) es).Reaches 2
        (s.decoding (s.splitPulses f q (fit s.params.ampBits a.sym)) q rs (es ++ s.codedEvents f q a)).advance ∧
      s.Decodes v (s.splitPulses f q (fit s.params.ampBits a.sym)) (q + 1) (as ++ [a]) rs
        (es ++ s.codedEvents f q a) := by
  have hrange : (s.decoding f q (a :: rs) es).overRange (trav q) = false := State.overRange_of_le (h.parent_le.trans hv)
  have hrun := (hs.decoding_splitting f q (a :: rs) es).reaches_of_coded hs.notPending hrange hcoded nofun rfl
    (fun _ => rfl) hle
  refine ⟨?_, h.split (hs.total_lt hv) (h.logged.push hcoded) hle ?_⟩
  · rw [← State.recordSplit_afterAnswer_decoding hs.notPending]
    exact hrun
  · rw [if_neg hcoded, List.map_append, h.symbols]
    rfl

/-- A coded node whose symbol exceeds the parent halts in two steps. -/
theorem State.Decodes.reaches_of_sym (h : s.Decodes v f q as (a :: rs) es)
    (hcoded : (s.withPulses f).parent (trav q) ≠ 0)
    (hlt : ((s.withPulses f).parent (trav q)).toNat < (fit s.params.ampBits a.sym).toNat) :
    ∃ u, (s.decoding f q (a :: rs) es).Reaches 2 u ∧ s.EndsInSym u := by
  have hrange : (s.decoding f q (a :: rs) es).overRange (trav q) = false := State.overRange_of_le (h.parent_le.trans hv)
  have hsplitting := hs.decoding_splitting f q (a :: rs) es
  have hsend := hsplitting.step_begin hs.notPending
  have hbegin := splitBegin_of_coded (dir := .dec) true hrange hcoded nofun
  have hsent : ((s.decoding f q (a :: rs) es).sendRequest ((s.withPulses f).requestFor .dec (trav q) 0)).Splitting
      (.sdec v) .dec :=
    ⟨.sdec v, hs.notHalted, hs.legal, rfl, hs.accepted, hs.noSchedule⟩
  have hanswer := hsent.step_complete rfl rfl
  have hfault : splitComplete ⟨.dec, trav q, true⟩ a
      (((s.decoding f q (a :: rs) es).sendRequest ((s.withPulses f).requestFor .dec (trav q) 0)).takeAnswer a rs) =
        (s.decoding f q rs (es ++ s.codedEvents f q a)).takeFault .sym :=
    (if_pos (decide_eq_true hlt)).trans (s.takeFault_takeAnswer_decoding f q a rs es)
  exact ⟨_, (State.Reaches.of_step (hsend.trans (congrArg _ hbegin))).trans
    (.of_step (hanswer.trans (congrArg _ hfault))), f, q, as ++ [a], rs, _, h.logged.push hcoded, rfl⟩

/-- The split at step `q`, with an answer at hand, ends in at most two steps, or halts with `SYM`. -/
theorem State.Decodes.reaches (hcoder : 15 ≤ s.coderResponses.length) (h : s.Decodes v f q as rs es) :
    (∃ f' as' rs' es', (s.decoding f q rs es).Reaches 2 (s.decoding f' q rs' es').advance ∧
      s.Decodes v f' (q + 1) as' rs' es') ∨ ∃ u, (s.decoding f q rs es).Reaches 2 u ∧ s.EndsInSym u := by
  by_cases hzero : (s.withPulses f).parent (trav q) = 0
  · exact .inl ⟨_, _, _, _, h.reaches_of_zero hs hv hzero⟩
  · obtain ⟨a, rs, rfl⟩ := h.logged.exists_answer hcoder
    by_cases hle : (fit s.params.ampBits a.sym).toNat ≤ ((s.withPulses f).parent (trav q)).toNat
    · exact .inl ⟨_, _, _, _, h.reaches_of_symbol hs hv hzero hle⟩
    · exact .inr (h.reaches_of_sym hs hv hzero (Nat.lt_of_not_le hle))

/-! ## The walk -/

/-- Every step of the walk is reached in at most two steps for each split before it, unless the command halts with `SYM`;
by induction on the step. -/
theorem State.ReadyFor.reaches_decoding (hcoder : 15 ≤ s.coderResponses.length) (q : Fin 15) :
    (∃ f as rs es, s.Reaches (1 + 2 * q) (s.decoding f q rs es) ∧ s.Decodes v f q as rs es) ∨
      ∃ u, s.Reaches 31 u ∧ s.EndsInSym u := by
  induction q using Fin.induction with
  | zero =>
    obtain ⟨hbegun, hdecodes⟩ := hs.decodes_begun
    exact .inl ⟨_, _, _, _, .of_step (hbegun ▸ hs.step_sdec), hdecodes⟩
  | succ q ih =>
    refine ih.elim ?_ .inr
    rintro ⟨f, as, rs, es, hrun, hdecodes⟩
    rcases hdecodes.reaches hs hv hcoder with ⟨f', as', rs', es', hrest, hdecodes'⟩ | ⟨u, hrest, hsym⟩
    · rw [State.advance_castSucc (s := s.decoding f' q.castSucc rs' es') rfl] at hrest
      exact .inl ⟨f', as', rs', es', (hrun.trans hrest).mono (by simp; omega), hdecodes'⟩
    · exact .inr ⟨u, (hrun.trans hrest).mono (by have := q.isLt; simp; omega), hsym⟩

/-- `SDEC` ends in at most 31 steps: with every node decoded, or with `SYM`. -/
theorem State.ReadyFor.sdec_ends (hcoder : 15 ≤ s.coderResponses.length) :
    (∃ f as rs es, s.Reaches 31 (s.macroEnd f rs (es ++ [Event.respond 0])) ∧ s.Decodes v f 15 as rs es) ∨
      ∃ u, s.Reaches 31 u ∧ s.EndsInSym u := by
  rcases hs.reaches_decoding hv hcoder (Fin.last 14) with ⟨f, as, rs, es, hrun, hdecodes⟩ | hsym
  · rcases hdecodes.reaches hs hv hcoder with ⟨f', as', rs', es', hrest, hdecodes'⟩ | ⟨u, hrest, hsym⟩
    · rw [State.decoding_advance_last hs.notPending] at hrest
      exact .inl ⟨f', as', rs', es', hrun.trans hrest, hdecodes'⟩
    · exact .inr ⟨u, hrun.trans hrest, hsym⟩
  · exact .inr hsym

end

/-- The coder's answers that are left are those that no request used up. -/
theorem State.Logged.answers_left (h : s.Logged f m as rs es) :
    rs = s.coderResponses.drop (requestsOf es).length ∧ as = s.coderResponses.take (requestsOf es).length := by
  rw [← h.count, h.answers]
  exact ⟨List.drop_left.symm, List.take_left.symm⟩

/-- Settles O36: the requests and the answers are those logged, and the tree is the one decoded. -/
theorem decodeMacroRunsToItsEnd : Obligations.DecodeMacroRunsToItsEnd := by
  intro s v hs hv hcoder
  rcases hs.sdec_ends hv hcoder with ⟨f, as, rs, es, ⟨n, hn, hrun⟩, hdecodes⟩ |
    ⟨u, ⟨n, hn, hrun⟩, f, q, as, rs, es, hlogged, rfl⟩
  · have hsent : requestsOf (es ++ [Event.respond 0]) = requestsOf es := (requestsOf_append _ _).trans (List.append_nil _)
    obtain ⟨hleft, hused⟩ := hdecodes.logged.answers_left
    have hsum : (s.macroEnd f rs (es ++ [Event.respond 0])).sumsEverywhere := fun l j hnode => by
      obtain ⟨q, hq⟩ := exists_trav_eq hnode
      exact hq ▸ hdecodes.sums q q.isLt
    refine ⟨n, _, hn, hrun, rfl, rfl, ?_⟩
    rw [eventsSince_of_trace_append rfl, hsent, responsesOf_append, hdecodes.logged.silent]
    refine ⟨hleft, .inr ⟨hs.notHalted, rfl, rfl, rfl, hdecodes.logged.requests, ?_, hdecodes.root, hsum, ?_, ?_⟩⟩
    · rw [← hused]
      exact hdecodes.symbols.symm
    · rw [← State.leavesUnder_root, ← hsum.pulse_eq_leavesUnder (by decide)]
      exact congrArg BitVec.toNat hdecodes.root
    · rw [State.macroEnd, ← hs.inv.idleSeq hs.idle, ← hs.idle, ← hs.notPending]
  · have hsent : requestsOf (es ++ [Event.respond 0x50000000]) = requestsOf es :=
      (requestsOf_append _ _).trans (List.append_nil _)
    refine ⟨n, _, hn, hrun, rfl, rfl, ?_⟩
    rw [eventsSince_takeFault (es := es) .sym rfl, responsesOf_append, hlogged.silent]
    exact ⟨hsent.symm ▸ hlogged.answers_left.1, .inl ⟨rfl, rfl, rfl, hsent.trans hlogged.requests⟩⟩

end Sys2Proof.Machine
end
